-- ==== Sys2Proof/Word.lean ====
section
/-! DEFINITION. The bit-vector types of the block: what the spec gives a width in bits. -/

namespace Sys2Proof

/-- One byte of MEM (R50). -/
abbrev Byte := BitVec 8

/-- A command word CW (R70), a response's rdata (R82), and the 64-bit container of a W-bit WORD
register (R24, R28): at W = 32 its upper half is 0 (the invariant `State.Inv`). -/
abbrev Word := BitVec 64

/-- A byte address: AW = 32 bits (R12). -/
abbrev Addr := BitVec 32

/-- One of the 256 byte values, the index of the normalizer's tables (R38). -/
abbrev Symbol := BitVec 8

/-- One histogram counter: CW = 32 bits (R13). -/
abbrev Counter := BitVec 32

end Sys2Proof
end

