-- ==== Sys2Proof/Syntax.lean ====
section
/-! DEFINITION. The commands of the block, one constructor per row of the opcode map
(30_encoding R80, spec/opcode_table.json), each with the operand fields of its format
(R71 to R76). Operands stand in the order of the textual syntax (R88). -/

namespace Sys2Proof

/-- A decoded command. Every field is unsigned (R77) and holds every value its encoding admits. -/
inductive Instr where
  /-- NOP, format N, OPC 0x00 (R181). -/
  | nop
  /-- RD_STATE, format X, OPC 0x01 (R182): `idx` = IDX, a state-register index of R41. -/
  | rdState (idx : BitVec 8)
  /-- WE_INIT, format A, OPC 0x10 (R100). -/
  | weInit (addr : Addr) (len : BitVec 24)
  /-- WE_WRITE, format B, OPC 0x11 (R102). -/
  | weWrite (val : BitVec 32) (nb : BitVec 5)
  /-- WE_FLUSH, format N, OPC 0x12 (R103). -/
  | weFlush
  /-- WE_CLOSE, format B, OPC 0x13 (R104). -/
  | weClose (val : BitVec 32) (nb : BitVec 5)
  /-- RE_INIT, format A, OPC 0x20 (R120). -/
  | reInit (addr : Addr) (len : BitVec 24)
  /-- RE_PEEK, format P, OPC 0x21 (R123). -/
  | rePeek (nb : BitVec 5)
  /-- RE_CONSUME, format P, OPC 0x22 (R124). -/
  | reConsume (nb : BitVec 5)
  /-- RE_READ, format P, OPC 0x23 (R125). -/
  | reRead (nb : BitVec 5)
  /-- RE_RELOAD, format N, OPC 0x24 (R126). -/
  | reReload
  /-- RE_CLOSE, format N, OPC 0x25 (R127). -/
  | reClose
  /-- FN_COUNT, format A, OPC 0x30 (R150). -/
  | fnCount (addr : Addr) (len : BitVec 24)
  /-- FN_NORM, format I, OPC 0x31 (R151). -/
  | fnNorm (maxTotal : BitVec 32)
  /-- FN_RDRAW, format X, OPC 0x32 (R160). -/
  | fnRdRaw (idx : Symbol)
  /-- FN_RDNORM, format X, OPC 0x33 (R161). -/
  | fnRdNorm (idx : Symbol)
deriving DecidableEq, Repr

/-- `rd.status`, a pseudo-instruction (R89). -/
abbrev Instr.rdStatus : Instr := .rdState 0x00
/-- `rd.id`, a pseudo-instruction (R89). -/
abbrev Instr.rdId : Instr := .rdState 0x01
/-- `we.cursor`, a pseudo-instruction (R89). -/
abbrev Instr.weCursor : Instr := .rdState 0x14
/-- `re.cursor`, a pseudo-instruction (R89). -/
abbrev Instr.reCursor : Instr := .rdState 0x24
/-- `re.status`, a pseudo-instruction (R89). -/
abbrev Instr.reStatus : Instr := .rdState 0x26
/-- `fn.status`, a pseudo-instruction (R89). -/
abbrev Instr.fnStatus : Instr := .rdState 0x30

end Sys2Proof
end

