-- ==== Sys2Proof/WellFormed.lean ====
section
/-! DEFINITION. The static legality checks of a command, the two a command's own fields can fail:
a bit count above 26 (R78) and an RD_STATE index outside the register map (R87). Both can be
ENCODED, so the decoder reads them and the machine answers them with the fault the spec names
(NBITS, ILLEGAL); a well-formed command is one that fails neither check. A field too large for
its encoding cannot be written at all: the operand types are the fields' own widths (R77). -/

namespace Sys2Proof

/-- R78: a bit count is legal when NB ≤ 26. -/
def bitCountLegal (nb : BitVec 5) : Bool := decide (nb.toNat ≤ 26)

/-- The indices of the state register map (R41). -/
def mappedIndices : List (BitVec 8) :=
  [0x00, 0x01, 0x10, 0x11, 0x12, 0x13, 0x14, 0x15,
   0x20, 0x21, 0x22, 0x23, 0x24, 0x25, 0x26, 0x30, 0x31]

/-- R87: an RD_STATE index is legal when R41 maps it. -/
def indexMapped (idx : BitVec 8) : Bool := decide (idx ∈ mappedIndices)

/-- A command whose fields pass the static checks of R78 and R87. -/
def Instr.wellFormed : Instr → Bool
  | .nop => true
  | .rdState idx => indexMapped idx
  | .weInit _ _ => true
  | .weWrite _ nb => bitCountLegal nb
  | .weFlush => true
  | .weClose _ nb => bitCountLegal nb
  | .reInit _ _ => true
  | .rePeek nb => bitCountLegal nb
  | .reConsume nb => bitCountLegal nb
  | .reRead nb => bitCountLegal nb
  | .reReload => true
  | .reClose => true
  | .fnCount _ _ => true
  | .fnNorm _ => true
  | .fnRdRaw _ => true
  | .fnRdNorm _ => true

end Sys2Proof
end

