-- ==== Sys2Proof/Decode.lean ====
section
/-! DEFINITION. The decoder and the encoder of the 64-bit command word (30_encoding).

The decoder is total on command words. It answers a command when `(CW & mask) == match` for the row
of its opcode (R81), and otherwise rejects the word by name: a reserved opcode (R84) or a nonzero
reserved field (R85). The machine turns either rejection into the ILLEGAL fault (R207). -/

namespace Sys2Proof

/-- Why a command word is no command. Either reason is the ILLEGAL fault (R207). -/
inductive Rejection where
  /-- The opcode is in no row of the opcode map (R84). -/
  | reservedOpcode (opc : BitVec 8)
  /-- The opcode's row is the named command, and a reserved-must-be-zero bit is 1 (R85). -/
  | reservedBits (mnemonic : String)
deriving DecidableEq, Repr

/-- The six command formats (R71 to R76). -/
inductive Format where
  | n
  | a
  | b
  | p
  | i
  | x
deriving DecidableEq, Repr

/-- The mask of a format (R81): the bits a legal word fixes. -/
def Format.mask : Format → Word
  | .n => 0xFFFFFFFFFFFFFFFF
  | .a => 0xFF00000000000000
  | .b => 0xFFFFFFE000000000
  | .p => 0xFFFFFFE0FFFFFFFF
  | .i => 0xFFFFFFFF00000000
  | .x => 0xFFFFFFFFFFFFFF00

/-- `OPC = CW[63:56]` (R70). -/
def opcField (cw : Word) : BitVec 8 := cw.extractLsb' 56 8
/-- `LEN = CW[55:32]` (R72). -/
def lenField (cw : Word) : BitVec 24 := cw.extractLsb' 32 24
/-- `NB = CW[36:32]` (R73, R74). -/
def nbField (cw : Word) : BitVec 5 := cw.extractLsb' 32 5
/-- `ADDR`, `VAL` or `IMM = CW[31:0]` (R72, R73, R75). -/
def lowField (cw : Word) : BitVec 32 := cw.extractLsb' 0 32
/-- `IDX = CW[7:0]` (R76). -/
def idxField (cw : Word) : BitVec 8 := cw.extractLsb' 0 8

/-- `OPC << 56`, the match value of a row (R81). -/
def opcMatch (opc : BitVec 8) : Word := opc.setWidth 64 <<< 56

/-- One row of the opcode map (R80): its opcode, its mnemonic, its format, and the command a word of the row
stands for. -/
structure OpcodeRow where
  opc : BitVec 8
  mnemonic : String
  format : Format
  command : Word → Instr

/-- The opcode map (R80), row by row. -/
def opcodeMap : List OpcodeRow :=
  [⟨0x00, "NOP", .n, fun _ => .nop⟩,
   ⟨0x01, "RD_STATE", .x, fun cw => .rdState (idxField cw)⟩,
   ⟨0x10, "WE_INIT", .a, fun cw => .weInit (lowField cw) (lenField cw)⟩,
   ⟨0x11, "WE_WRITE", .b, fun cw => .weWrite (lowField cw) (nbField cw)⟩,
   ⟨0x12, "WE_FLUSH", .n, fun _ => .weFlush⟩,
   ⟨0x13, "WE_CLOSE", .b, fun cw => .weClose (lowField cw) (nbField cw)⟩,
   ⟨0x20, "RE_INIT", .a, fun cw => .reInit (lowField cw) (lenField cw)⟩,
   ⟨0x21, "RE_PEEK", .p, fun cw => .rePeek (nbField cw)⟩,
   ⟨0x22, "RE_CONSUME", .p, fun cw => .reConsume (nbField cw)⟩,
   ⟨0x23, "RE_READ", .p, fun cw => .reRead (nbField cw)⟩,
   ⟨0x24, "RE_RELOAD", .n, fun _ => .reReload⟩,
   ⟨0x25, "RE_CLOSE", .n, fun _ => .reClose⟩,
   ⟨0x30, "FN_COUNT", .a, fun cw => .fnCount (lowField cw) (lenField cw)⟩,
   ⟨0x31, "FN_NORM", .i, fun cw => .fnNorm (lowField cw)⟩,
   ⟨0x32, "FN_RDRAW", .x, fun cw => .fnRdRaw (idxField cw)⟩,
   ⟨0x33, "FN_RDNORM", .x, fun cw => .fnRdNorm (idxField cw)⟩]

/-- The row of a word's opcode, none for a reserved opcode (R84). -/
def opcodeRow (opc : BitVec 8) : Option OpcodeRow := opcodeMap.find? fun r => decide (r.opc = opc)

/-- The decoder: a word is the command of its opcode's row when it matches that row (R81), and is rejected by
name otherwise (R84, R85). -/
def decode (cw : Word) : Except Rejection Instr :=
  match opcodeRow (opcField cw) with
  | none => .error (.reservedOpcode (opcField cw))
  | some r =>
    if cw &&& r.format.mask = opcMatch r.opc then .ok (r.command cw) else .error (.reservedBits r.mnemonic)

/-- The host's fixed entry to the decoder: `w` is the command word as one number, bit 0 its least
significant bit, with every bit at or above `nbits` zero. A command is one 64-bit word (R70), which
the host presents on the command port and no memory holds (R64), so it has no byte order. -/
def decodeTableWord (nbits w : Nat) : Option Instr :=
  match decode (BitVec.ofNat 64 (w % 2 ^ nbits)) with
  | .ok i => some i
  | .error _ => none

/-! ### The encoder -/

/-- The opcode of a command (R80). -/
def Instr.opcode : Instr → BitVec 8
  | .nop => 0x00
  | .rdState _ => 0x01
  | .weInit _ _ => 0x10
  | .weWrite _ _ => 0x11
  | .weFlush => 0x12
  | .weClose _ _ => 0x13
  | .reInit _ _ => 0x20
  | .rePeek _ => 0x21
  | .reConsume _ => 0x22
  | .reRead _ => 0x23
  | .reReload => 0x24
  | .reClose => 0x25
  | .fnCount _ _ => 0x30
  | .fnNorm _ => 0x31
  | .fnRdRaw _ => 0x32
  | .fnRdNorm _ => 0x33

/-- Format N: `OPC << 56` (R90). -/
def encodeN (opc : BitVec 8) : Word := opcMatch opc
/-- Format A: `(OPC << 56) | (LEN << 32) | ADDR` (R90). -/
def encodeA (opc : BitVec 8) (addr : Addr) (len : BitVec 24) : Word :=
  opcMatch opc ||| (len.setWidth 64 <<< 32) ||| addr.setWidth 64
/-- Format B: `(OPC << 56) | (NB << 32) | VAL` (R90). -/
def encodeB (opc : BitVec 8) (val : BitVec 32) (nb : BitVec 5) : Word :=
  opcMatch opc ||| (nb.setWidth 64 <<< 32) ||| val.setWidth 64
/-- Format P: `(OPC << 56) | (NB << 32)` (R90). -/
def encodeP (opc : BitVec 8) (nb : BitVec 5) : Word := opcMatch opc ||| (nb.setWidth 64 <<< 32)
/-- Format I: `(OPC << 56) | IMM` (R90). -/
def encodeI (opc : BitVec 8) (imm : BitVec 32) : Word := opcMatch opc ||| imm.setWidth 64
/-- Format X: `(OPC << 56) | IDX` (R90). -/
def encodeX (opc : BitVec 8) (idx : BitVec 8) : Word := opcMatch opc ||| idx.setWidth 64

/-- The command word of a command (R90). -/
def encode (c : Instr) : Word :=
  match c with
  | .nop => encodeN c.opcode
  | .rdState idx => encodeX c.opcode idx
  | .weInit addr len => encodeA c.opcode addr len
  | .weWrite val nb => encodeB c.opcode val nb
  | .weFlush => encodeN c.opcode
  | .weClose val nb => encodeB c.opcode val nb
  | .reInit addr len => encodeA c.opcode addr len
  | .rePeek nb => encodeP c.opcode nb
  | .reConsume nb => encodeP c.opcode nb
  | .reRead nb => encodeP c.opcode nb
  | .reReload => encodeN c.opcode
  | .reClose => encodeN c.opcode
  | .fnCount addr len => encodeA c.opcode addr len
  | .fnNorm imm => encodeI c.opcode imm
  | .fnRdRaw idx => encodeX c.opcode idx
  | .fnRdNorm idx => encodeX c.opcode idx

end Sys2Proof
end

