-- ==== Sys2Proof/Config.lean ====
section
/-! DEFINITION. The implementation parameter of the block: the word width W (spec 00_scope R9).

The spec leaves W open with W ∈ {32, 64} (D2). The model takes it as DATA: `WordWidth` is a field of
`State` that no step writes, so every statement about all states is a statement about both widths
(assumption 1). -/

namespace Sys2Proof

/-- The two word widths R9 allows. -/
inductive WordWidth where
  /-- W = 32, B = 4. -/
  | w32
  /-- W = 64, B = 8. -/
  | w64
deriving DecidableEq, Repr

/-- `W`, the width of each engine's WORD register in bits (R9). -/
def WordWidth.bits : WordWidth → Nat
  | .w32 => 32
  | .w64 => 64

/-- `B = W / 8`, the word width in bytes (R9). -/
def WordWidth.bytes : WordWidth → Nat
  | .w32 => 4
  | .w64 => 8

end Sys2Proof
end

