-- ==== Sys2Proof/Machine/State.lean ====
section
/-! DEFINITION. The state of the block (10_state), its memory, the host's side of the two ports, and
the reasons a step can stop. State is plain data. -/

namespace Sys2Proof.Machine

/-! ### The units' registers -/

/-- ReloadStatus (R17, R30): the three values RE.RSTAT can hold ("No other states are reachable").
`ReloadStatus.code` of Flags.lean is its 2-bit encoding. -/
inductive ReloadStatus where
  /-- "more full words remain" -/
  | incomplete
  /-- "fewer than a full word remain but some bits are still available" -/
  | endOfBuffer
  /-- "buffer fully exhausted, no bits remain" -/
  | complete
deriving DecidableEq, Repr

/-- The write engine's registers (R23 to R26). -/
structure WriteEngine where
  /-- WE.VALID (R23). -/
  valid : Bool
  /-- WE.WORD, W bits in a 64-bit container (R24). -/
  word : Word
  /-- WE.BITOFF, the number of free bits (R25). -/
  bitoff : BitVec 7
  /-- WE.START (R26). -/
  start : Addr
  /-- WE.CURSOR (R26). -/
  cursor : Addr
  /-- WE.END (R26). -/
  bufEnd : Addr
deriving DecidableEq, Repr

/-- The read engine's registers (R27 to R30). -/
structure ReadEngine where
  /-- RE.VALID (R27). -/
  valid : Bool
  /-- RE.WORD, W bits in a 64-bit container (R28). -/
  word : Word
  /-- RE.BITOFF, the number of available bits (R29). -/
  bitoff : BitVec 7
  /-- RE.START (R29). -/
  start : Addr
  /-- RE.CURSOR (R29). -/
  cursor : Addr
  /-- RE.END (R29). -/
  bufEnd : Addr
  /-- RE.RSTAT (R30). -/
  rstat : ReloadStatus
deriving DecidableEq, Repr

/-- A 256-entry table of 32-bit counters (R33, R34). -/
abbrev Table := Vector Counter 256

/-- The frequency normalizer's tables and registers (R33 to R36). -/
structure Normalizer where
  /-- FN.RAW (R33). -/
  raw : Table
  /-- FN.NORM (R34). -/
  norm : Table
  /-- FN.STATUS.NVALID (R35). -/
  nvalid : Bool
  /-- FN.STATUS.NFAIL (R35). -/
  nfail : Bool
  /-- FN.MAXSYM (R36). -/
  maxsym : BitVec 9
deriving DecidableEq, Repr

/-- BLK_STATUS (R32). BLK_ID (R31) is hardwired: it is a function of the word width, no field. -/
structure BlockStatus where
  /-- BLK_STATUS.HALTED. -/
  halted : Bool
  /-- BLK_STATUS.FCODE. -/
  fcode : BitVec 8
deriving DecidableEq, Repr

/-! ### Memory and the ports -/

/-- MEM (R50): the listed bytes by address. `Memory.wf` of Ops.lean is its canonical form, and an
address with no entry reads as `unlistedByte`. -/
abbrev Memory := List Host.Cell

/-- A response (R82): `rcode` and `rdata` as the response port carries them. -/
structure Response where
  rcode : BitVec 8
  rdata : Word
deriving DecidableEq, Repr

/-- What the host can do between commands (R19, R61, R240). A host READ of memory changes nothing
(R56) and is no move. -/
inductive HostMove where
  /-- Present one command word on the command port (R70). -/
  | command (cw : Word)
  /-- Write one byte of MEM (R58, R61). -/
  | store (addr : Addr) (val : Byte)
  /-- Assert the reset input (R240). -/
  | reset
deriving DecidableEq, Repr

/-! ### The state -/

/-- The whole machine: the block's registers, MEM, and the host's side of the ports. -/
structure State where
  /-- The parameter W (R9). The model's own field: no step writes it (assumption 1). -/
  width : WordWidth
  /-- BLK_STATUS (R32). -/
  blk : BlockStatus
  /-- The write engine (R23 to R26). -/
  we : WriteEngine
  /-- The read engine (R27 to R30). -/
  re : ReadEngine
  /-- The frequency normalizer (R33 to R36). -/
  fn : Normalizer
  /-- MEM (R50). -/
  mem : Memory
  /-- The host's moves still to come, the next one first. The model's own field: it is the host's
  command list of R22, which is host state (assumption 2). -/
  moves : List HostMove
  /-- The responses the block has produced, the latest first (R82). The model's own field: the host's
  record of the response port (assumption 3). -/
  responses : List Response
deriving DecidableEq, Repr

/-- The write engine after reset (R40). -/
def WriteEngine.reset : WriteEngine :=
  { valid := false, word := 0, bitoff := 0, start := 0, cursor := 0, bufEnd := 0 }

/-- The read engine after reset (R40). -/
def ReadEngine.reset : ReadEngine :=
  { valid := false, word := 0, bitoff := 0, start := 0, cursor := 0, bufEnd := 0, rstat := .incomplete }

/-- The normalizer after reset (R40): MAXSYM is 0x100. -/
def Normalizer.reset : Normalizer :=
  { raw := Vector.replicate 256 0, norm := Vector.replicate 256 0, nvalid := false, nfail := false, maxsym := 0x100 }

/-- BLK_STATUS after reset (R40). -/
def BlockStatus.reset : BlockStatus := { halted := false, fcode := 0 }

/-- The machine right after reset (R40, R241) for a given word width, with nothing listed in MEM,
no move of the host to come and no response produced. -/
def State.resetAt (w : WordWidth) : State :=
  { width := w, blk := .reset, we := .reset, re := .reset, fn := .reset, mem := [], moves := [], responses := [] }

/-- The machine right after reset. DESIGN CHOICE (assumption 1): W = 64, the width the spec's vectors
use unless they say otherwise; the spec leaves W open. No statement rests on it. -/
def State.reset : State := .resetAt .w64

/-! ### The reasons a step can stop -/

/-- Why the MODEL stops. The block's own faults (R201) are no constructor here: a block fault is a
next state with HALTED set (R203). -/
inductive Fault where
  /-- Raised by `boundedRead` and `boundedWrite` of Ops.lean for an access to `len` bytes at `addr`
  that would pass 2^32, where the spec gives MEM no byte (R50). SAFE: the block never forms such an
  address (R59), and no state that satisfies `State.Inv` raises it. -/
  | outsideMem (addr len : Nat)
deriving DecidableEq, Repr

/-- Why a command has no meaning. -/
inductive Refusal where
  /-- Raised by an arm of `exec` for a command with no meaning yet. SAFE. No arm raises it: every
  command has its meaning. -/
  | notModelled (mnemonic : String)
deriving DecidableEq, Repr

end Sys2Proof.Machine
end

