-- ==== Sys2Proof/Machine/Operands.lean ====
section
/-! DEFINITION. Operand assembly (R77 to R79) and the arithmetic primitives of the pseudocode (R15).
Values are exact natural numbers, narrowed only where a register is written (R14). -/

namespace Sys2Proof.Machine

/-- `NBMAX` (R10): the largest bit count one command may request. -/
abbrev maxBitCount : Nat := 26

/-- The size of MEM in bytes (R12, R50). -/
abbrev memSize : Nat := 2 ^ 32

/-- `capacity = zext(LEN)`, or the byte count of FN_COUNT (R77). -/
abbrev lengthOf (len : BitVec 24) : Nat := len.toNat

/-- `base = ADDR` (R77). -/
abbrev baseOf (addr : Addr) : Nat := addr.toNat

/-- `nbits = NB` (R77). -/
abbrev bitsOf (nb : BitVec 5) : Nat := nb.toNat

/-- `value = VAL` (R77). -/
abbrev valueOf (val : BitVec 32) : Nat := val.toNat

/-- `maxTotal = IMM` (R77). -/
abbrev maxTotalOf (imm : BitVec 32) : Nat := imm.toNat

/-- `mask(n) = 2^n - 1` (R15). -/
def bitMask (n : Nat) : Nat := 2 ^ n - 1

/-- `v & mask(n)`: the low n bits, all of a value the block uses (R79, R122). -/
def lowBits (v n : Nat) : Nat := v &&& bitMask n

/-- `shl_W(v, s)` (R15): a shift by W or more gives 0 (D10). -/
def shiftLeftW (w : WordWidth) (v s : Nat) : Nat :=
  if s < w.bits then (v * 2 ^ s) % 2 ^ w.bits else 0

/-- `shr(v, s) = floor(v / 2^s)` (R15). -/
def shiftRight (v s : Nat) : Nat := v / 2 ^ s

/-- A value written to a W-bit WORD register (R14): stored modulo 2^W. -/
def narrowWord (w : WordWidth) (v : Nat) : Word := BitVec.ofNat 64 (v % 2 ^ w.bits)

/-- A value written to a BITOFF register (R25, R29). -/
def narrowBitoff (v : Nat) : BitVec 7 := BitVec.ofNat 7 v

/-- A value written to an address register (R26). -/
def narrowAddr (v : Nat) : Addr := BitVec.ofNat 32 v

/-- R209: a region `[base, base + len)` is inside MEM when it ends at or below 2^32. -/
def regionFits (base len : Nat) : Bool := decide (base + len ≤ memSize)

end Sys2Proof.Machine
end

