-- ==== Sys2Proof/Machine/Flags.lean ====
section
/-! DEFINITION. The codes and the status flags of the block (R30, R32, R35, R37, R200). The block has
no arithmetic condition codes (R37). -/

namespace Sys2Proof.Machine

/-- The fault codes, the values FCODE can take (R201). -/
inductive FaultCode where
  /-- The command word is no command (R207). -/
  | illegal
  /-- A bit count above 26 (R208). -/
  | nbits
  /-- An engine command on an engine that has no buffer (R206). -/
  | notInit
  /-- A write that cannot fit even after the flush (R210). -/
  | space
  /-- A read past the available bits (R211). -/
  | exhaust
  /-- An argument outside the block's domain (R209). -/
  | badArg
deriving DecidableEq, Repr

/-- The value of FCODE and of the fault's rcode (R200). -/
def FaultCode.code : FaultCode → BitVec 8
  | .illegal => 0x10
  | .nbits => 0x11
  | .notInit => 0x12
  | .space => 0x13
  | .exhaust => 0x14
  | .badArg => 0x15

/-- The response codes that are no fault (R200): success, the three status outcomes (R202) and the
refusal while halted (R204). -/
inductive RCode where
  | ok
  | capacity
  | overflow
  | repairFail
  | halted
deriving DecidableEq, Repr

/-- The rcode value of a response that is no fault (R200). -/
def RCode.code : RCode → BitVec 8
  | .ok => 0x00
  | .capacity => 0x01
  | .overflow => 0x02
  | .repairFail => 0x03
  | .halted => 0x1F

/-- The encoding of RE.RSTAT (R30). -/
def ReloadStatus.code : ReloadStatus → BitVec 2
  | .incomplete => 0
  | .endOfBuffer => 1
  | .complete => 2

/-- A 1-bit flag as a number. -/
def flagBit (b : Bool) : Nat := if b then 1 else 0

/-- BLK_STATUS as a word (R32): HALTED in bit 0, FCODE in bits 15:8, every other bit 0. -/
def BlockStatus.toWord (b : BlockStatus) : Word :=
  BitVec.ofNat 64 (b.fcode.toNat * 2 ^ 8 + flagBit b.halted)

/-- FN.STATUS as a word (R35): NVALID in bit 0, NFAIL in bit 1. -/
def Normalizer.statusWord (n : Normalizer) : Word :=
  BitVec.ofNat 64 (flagBit n.nfail * 2 + flagBit n.nvalid)

/-- BLK_ID (R31), hardwired: W in bits 7:0, 26 in bits 15:8, 0 above. -/
def blockId (w : WordWidth) : Word := BitVec.ofNat 64 (maxBitCount * 2 ^ 8 + w.bits)

/-- FN.STATUS after FN_COUNT (R150, D38): NVALID 0 and NFAIL 0. -/
def Normalizer.clearStatus (n : Normalizer) : Normalizer := { n with nvalid := false, nfail := false }

/-- FN.STATUS after an FN_NORM that succeeded (R159): NVALID 1 and NFAIL 0. -/
def Normalizer.markValid (n : Normalizer) : Normalizer := { n with nvalid := true, nfail := false }

/-- FN.STATUS after a repair failure (R159): NVALID 0 and NFAIL 1. -/
def Normalizer.markFailed (n : Normalizer) : Normalizer := { n with nvalid := false, nfail := true }

end Sys2Proof.Machine
end

