-- ==== Sys2Proof/Machine/Ops.lean ====
section
/-! DEFINITION. The operations the commands share: bytes of MEM, responses, faults, the checks of the
command cycle (R180, R205), the state register map, the reset input and the host's moves. -/

namespace Sys2Proof.Machine

/-! ### MEM (R50 to R54)

A memory lists (address, byte) pairs in ONE canonical form, so that equal memories are equal data. -/

/-- What an address that a memory does not list reads as. DESIGN CHOICE (assumption 4): 0, the
contents the spec's vectors start from; the spec makes MEM's contents an input (R58), and every
contents is some canonical memory. -/
def unlistedByte : Byte := 0

/-- The byte of MEM at an address. -/
def readByte : Memory → Nat → Byte
  | [], _ => unlistedByte
  | (k, c) :: m, a => if k = a then c else readByte m a

/-- Put an entry at the head of a list, unless its byte is what an unlisted address reads as. -/
def consByte (a : Nat) (b : Byte) (m : Memory) : Memory :=
  if b = unlistedByte then m else (a, b) :: m

/-- MEM with one byte replaced, in canonical form again. -/
def writeByte : Memory → Nat → Byte → Memory
  | [], a, b => consByte a b []
  | (k, c) :: m, a, b =>
    if a < k then consByte a b ((k, c) :: m)
    else if a = k then consByte a b m
    else (k, c) :: writeByte m a b

/-- Every address of a memory is above `a`. -/
abbrev Memory.above (a : Nat) (m : Memory) : Prop := ∀ c ∈ m, a < c.1

/-- The canonical form: addresses strictly rising and inside MEM, and no entry equal to what an
unlisted address reads as. -/
def Memory.wf : Memory → Bool
  | [] => true
  | (k, c) :: m => decide (k < memSize) && decide (c ≠ unlistedByte) && decide (Memory.above k m) && Memory.wf m

/-- `MemRead(a, n)` (R52): n bytes as one big-endian integer, the byte at `a` the most significant. -/
def memRead (m : Memory) (a : Nat) : Nat → Nat
  | 0 => 0
  | n + 1 => memRead m a n * 256 + (readByte m (a + n)).toNat

/-- `MemWrite(a, n, v)` (R52): the n-byte value `v`, its most significant byte at `a`. -/
def memWrite (m : Memory) (a : Nat) : Nat → Nat → Memory
  | 0, _ => m
  | n + 1, v => writeByte (memWrite m a n (v / 256)) (a + n) (BitVec.ofNat 8 v)

/-! ### Aborting a command -/

/-- Why a command's private copy of the state is discarded (R16). -/
inductive Abort where
  /-- `raise FAULT(code)` (R203). -/
  | raise (c : FaultCode)
  /-- The model stops: an access outside MEM, which no reachable state makes. -/
  | outside (f : Fault)
deriving DecidableEq, Repr

/-- A MemRead of `n` bytes that stops at the end of MEM (R59). -/
def boundedRead (m : Memory) (a n : Nat) : Except Abort Nat :=
  if a + n ≤ memSize then .ok (memRead m a n) else .error (.outside (.outsideMem a n))

/-- A MemWrite of `n` bytes that stops at the end of MEM (R59). -/
def boundedWrite (m : Memory) (a n v : Nat) : Except Abort Memory :=
  if a + n ≤ memSize then .ok (memWrite m a n v) else .error (.outside (.outsideMem a n))

/-! ### Responses and faults -/

/-- Emit one response word on the response port (R82). -/
def State.emit (s : State) (rcode : BitVec 8) (rdata : Word) : State :=
  { s with responses := { rcode := rcode, rdata := rdata } :: s.responses }

/-- `respond(rc, d)` (R15, R82). -/
def State.respond (s : State) (rc : RCode) (d : Word) : State := s.emit rc.code d

/-- TAKING A FAULT (R203), from the state before the command: HALTED and FCODE are set, the response is
(code, 0), and nothing else changes. There is no vector, handler, saved pc or mode (R214). -/
def State.takeFault (s : State) (c : FaultCode) : State :=
  { s with blk := { halted := true, fcode := c.code } }.emit c.code 0

/-- The refusal of a command while halted (R204): (HALTED, 0), nothing latched. -/
def State.refuseHalted (s : State) : State := s.respond .halted 0

/-- LEAVING THE HALT (R215, R240 to R242): the reset input sets every register to its reset value. MEM
is not reset, and the host's command list and its record of responses are the host's. -/
def State.applyReset (s : State) : State :=
  { s with blk := .reset, we := .reset, re := .reset, fn := .reset }

/-! ### The command cycle (R180, R205) -/

/-- The outcomes of a step of this machine. -/
abbrev StepOutcome := Host.Outcome State Fault Refusal

/-- Check 1 of R205: while halted, a command that is not a legal readout is refused (R204). -/
def unlessHalted (s : State) (k : StepOutcome) : StepOutcome :=
  if s.blk.halted then .next s.refuseHalted else k

/-- A check of R205: the fault `c` when the condition fails. -/
def require (s : State) (c : FaultCode) (ok : Bool) (k : StepOutcome) : StepOutcome :=
  if ok then k else .next (s.takeFault c)

/-- Check 3 of R205: NB ≤ 26, otherwise NBITS (R208). -/
def requireBits (s : State) (nb : BitVec 5) (k : StepOutcome) : StepOutcome :=
  require s .nbits (decide (bitsOf nb ≤ maxBitCount)) k

/-- Check 4 of R205: the engine is initialised, otherwise NOTINIT (R206). -/
def requireInit (s : State) (valid : Bool) (k : StepOutcome) : StepOutcome :=
  require s .notInit valid k

/-- Check 5 of R205 for a region: inside MEM, otherwise BADARG (R209). -/
def requireRegion (s : State) (addr : Addr) (len : BitVec 24) (k : StepOutcome) : StepOutcome :=
  require s .badArg (regionFits (baseOf addr) (lengthOf len)) k

/-- What a command's execution leaves: the private copy with its response, or why it is discarded. -/
abbrev Execution := Except Abort (State × RCode × Word)

/-- Step 4 of R180: commit the private copy and respond, or discard it and take the fault (R16). -/
def commit (s : State) (e : Execution) : StepOutcome :=
  match e with
  | .ok (t, rc, d) => .next (t.respond rc d)
  | .error (.raise c) => .next (s.takeFault c)
  | .error (.outside f) => .fault f

/-- A word that is no command (R84, R85): refused while halted (R204), and otherwise ILLEGAL (R207). -/
def State.rejectWord (s : State) : State :=
  if s.blk.halted then s.refuseHalted else s.takeFault .illegal

/-! ### The state register map (R41) -/

/-- The state register map (R41): every register by its index, zero-extended to 64 bits. -/
def registerMap (s : State) : List (BitVec 8 × Word) :=
  [(0x00, s.blk.toWord),
   (0x01, blockId s.width),
   (0x10, BitVec.ofNat 64 (flagBit s.we.valid)),
   (0x11, s.we.word),
   (0x12, s.we.bitoff.setWidth 64),
   (0x13, s.we.start.setWidth 64),
   (0x14, s.we.cursor.setWidth 64),
   (0x15, s.we.bufEnd.setWidth 64),
   (0x20, BitVec.ofNat 64 (flagBit s.re.valid)),
   (0x21, s.re.word),
   (0x22, s.re.bitoff.setWidth 64),
   (0x23, s.re.start.setWidth 64),
   (0x24, s.re.cursor.setWidth 64),
   (0x25, s.re.bufEnd.setWidth 64),
   (0x26, s.re.rstat.code.setWidth 64),
   (0x30, s.fn.statusWord),
   (0x31, s.fn.maxsym.setWidth 64)]

/-- The register RD_STATE selects, and none for a reserved index (R87). -/
def stateRegister (s : State) (idx : BitVec 8) : Option Word :=
  ((registerMap s).find? fun r => decide (r.1 = idx)).map Prod.snd

/-! ### The host's side -/

/-- The host's next move and the state with that move taken from its list. -/
def nextMove (s : State) : Option (HostMove × State) :=
  match s.moves with
  | [] => none
  | m :: rest => some (m, { s with moves := rest })

/-- The host writes one byte of MEM between two commands (R58, R61). -/
def State.hostStore (s : State) (a : Addr) (b : Byte) : State :=
  { s with mem := writeByte s.mem a.toNat b }

/-- The host reads one byte of MEM between two commands (R61): MEM's current contents, changing
nothing (R56, R65). -/
def State.hostLoad (s : State) (a : Addr) : Byte := readByte s.mem a.toNat

end Sys2Proof.Machine
end

