-- ==== Sys2Proof/Machine/Block.lean ====
section
/-! DEFINITION. The block control commands: NOP (R181) and RD_STATE (R182). -/

namespace Sys2Proof.Machine

/-- NOP (R181): respond (OK, 0), halted or not (R204). -/
def execNop (s : State) : StepOutcome := commit s (.ok (s, .ok, 0))

/-- RD_STATE (R182): the selected register, halted or not. An unmapped index is no legal form: ILLEGAL,
or (HALTED, 0) while halted (R204). -/
def execRdState (idx : BitVec 8) (s : State) : StepOutcome :=
  match stateRegister s idx with
  | some v => commit s (.ok (s, .ok, v))
  | none => .next s.rejectWord

end Sys2Proof.Machine
end

