-- ==== Sys2Proof/Machine/Histogram.lean ====
section
/-! DEFINITION. The procedures of the frequency normalizer: counting (R150), the maximum symbol
(R153), scaling (R154, R155) and the starvation repair (R156 to R158). -/

namespace Sys2Proof.Machine

/-- The entry of a table at a symbol (R38). -/
def Table.entry (t : Table) (i : Symbol) : Counter := t[i.toNat]'i.isLt

/-- A table with one entry replaced. -/
def Table.put (t : Table) (i : Symbol) (c : Counter) : Table := t.set i.toNat c i.isLt

/-- The table with every entry 0. -/
def Table.zero : Table := Vector.replicate 256 0

/-- The 256 symbols in ascending order. -/
def symbols : List Symbol := (List.range 256).map (BitVec.ofNat 8)

/-- Add one to a symbol's counter (R150). -/
def Table.bump (t : Table) (i : Symbol) : Table := t.put i (t.entry i + 1)

/-- The counting loop of FN_COUNT (R150): the first `n` bytes at `a` counted into a zero table. -/
def countBytes (m : Memory) (a : Nat) : Nat → Table
  | 0 => Table.zero
  | n + 1 => (countBytes m a n).bump (readByte m (a + n))

/-- `maxRaw` (R151): the largest entry. -/
def maxEntry (raw : Table) : Nat := raw.toList.foldl (fun acc c => max acc c.toNat) 0

/-- The 256 symbols with their entries, in ascending order. -/
def Table.pairs (t : Table) : List (Symbol × Counter) := symbols.zip t.toList

/-- `ms` (R153): the lowest symbol whose entry is the maximum. -/
def maxSymbol (raw : Table) : Symbol :=
  ((raw.pairs.find? fun p => decide (p.2.toNat = maxEntry raw)).map Prod.fst).getD 0

/-- Step 2 (R154) for one symbol: scaled when `maxRaw > maxTotal`, and passed through otherwise. -/
def scaleCount (maxTotal maxRaw count : Nat) : Nat :=
  if maxTotal < maxRaw then maxTotal * count / maxRaw else count

/-- A table with every entry passed through a function. -/
def Table.mapEntries (f : Counter → Counter) (t : Table) : Table :=
  ⟨⟨t.toList.map f⟩, by simp⟩

/-- Steps 2 and 1 (R154, R155): every entry scaled, then the maximum symbol's entry is maxTotal. -/
def scaleTable (raw : Table) (maxTotal : Nat) : Table :=
  (raw.mapEntries fun c => BitVec.ofNat 32 (scaleCount maxTotal (maxEntry raw) c.toNat)).put
    (maxSymbol raw) (BitVec.ofNat 32 maxTotal)

/-- An eligible donor (R157), a symbol with its entry: not the maximum symbol, and more than one unit. -/
def eligibleDonor (ms : Symbol) (p : Symbol × Counter) : Bool := decide (p.1 ≠ ms) && decide (1 < p.2.toNat)

/-- The better of the best donor so far and the next symbol (R157): the smaller entry, and the earlier
symbol among equals. -/
def betterDonor (ms : Symbol) (best : Option (Symbol × Counter)) (p : Symbol × Counter) :
    Option (Symbol × Counter) :=
  if eligibleDonor ms p then
    match best with
    | none => some p
    | some d => if p.2.toNat < d.2.toNat then some p else some d
  else best

/-- The donor of R157, none when no symbol is eligible. -/
def chooseDonor (t : Table) (ms : Symbol) : Option Symbol :=
  (t.pairs.foldl (betterDonor ms) none).map Prod.fst

/-- A victim (R158): present in the input, with working count 0. -/
def isVictim (raw t : Table) (v : Symbol) : Bool :=
  decide (0 < (raw.entry v).toNat) && decide ((t.entry v).toNat = 0)

/-- The symbols present in the input, in ascending order (R158). -/
def presentSymbols (raw : Table) : List Symbol :=
  (raw.pairs.filter fun p => decide (0 < p.2.toNat)).map Prod.fst

/-- One donation (R156): one unit moves from the donor to the victim. -/
def donate (t : Table) (d v : Symbol) : Table := (t.put d (t.entry d - 1)).put v 1

/-- Step 3 (R156) over a list of symbols in order: the working table at the end, and the victim that met
an empty donor set, if one did (R159). -/
def repair (raw : Table) (ms : Symbol) : List Symbol → Table → Table × Option Symbol
  | [], t => (t, none)
  | v :: vs, t =>
    if isVictim raw t v then
      match chooseDonor t ms with
      | none => (t, some v)
      | some d => repair raw ms vs (donate t d v)
    else repair raw ms vs t

/-- The outcome of an FN_NORM with a nonzero maxTotal: the normalizer's new state and the response
(R151, R152, R159). -/
def normalizeCounts (f : Normalizer) (maxTotal : Nat) : Normalizer × RCode × Word :=
  if maxEntry f.raw = 0 then
    ({ f with norm := Table.zero, maxsym := 0x100 }.markValid, .ok, 0x100)
  else
    let ms := maxSymbol f.raw
    match repair f.raw ms (presentSymbols f.raw) (scaleTable f.raw maxTotal) with
    | (t, some v) => ({ f with norm := t, maxsym := ms.setWidth 9 }.markFailed, .repairFail, v.setWidth 64)
    | (t, none) => ({ f with norm := t, maxsym := ms.setWidth 9 }.markValid, .ok, ms.setWidth 64)

end Sys2Proof.Machine
end

