-- ==== Sys2Proof/Machine/NormalizerCommands.lean ====
section
/-! DEFINITION. The normalizer's commands (42_normalizer): FN_COUNT, FN_NORM, FN_RDRAW, FN_RDNORM. -/

namespace Sys2Proof.Machine

/-- FN_COUNT (R150): FN.RAW is overwritten, FN.NORM is kept, NVALID and NFAIL are cleared (D38). -/
def execFnCount (addr : Addr) (len : BitVec 24) (s : State) : StepOutcome :=
  unlessHalted s <| requireRegion s addr len <|
    commit s (.ok ({ s with fn := { s.fn with
      raw := countBytes s.mem (baseOf addr) (lengthOf len) }.clearStatus }, .ok, 0))

/-- The execution of FN_NORM (R151) with a nonzero maxTotal. -/
def runFnNorm (s : State) (maxTotal : Nat) : Execution :=
  match normalizeCounts s.fn maxTotal with
  | (f, rc, d) => .ok ({ s with fn := f }, rc, d)

/-- FN_NORM (R151): BADARG when maxTotal is 0 (D23). -/
def execFnNorm (imm : BitVec 32) (s : State) : StepOutcome :=
  unlessHalted s <| require s .badArg (decide (maxTotalOf imm ≠ 0)) <|
    commit s (runFnNorm s (maxTotalOf imm))

/-- FN_RDRAW (R160): one entry of FN.RAW, halted or not (R204). -/
def execFnRdRaw (idx : Symbol) (s : State) : StepOutcome :=
  commit s (.ok (s, .ok, (s.fn.raw.entry idx).setWidth 64))

/-- FN_RDNORM (R161): one entry of FN.NORM, halted or not (R204). -/
def execFnRdNorm (idx : Symbol) (s : State) : StepOutcome :=
  commit s (.ok (s, .ok, (s.fn.norm.entry idx).setWidth 64))

end Sys2Proof.Machine
end

