-- ==== Sys2Proof/Machine/BitBuffer.lean ====
section
/-! DEFINITION. The procedures of the two engines: Flush (R101), Put (R102), Reload (R121) and Peek
(R122), on a private copy of the state (R16). -/

namespace Sys2Proof.Machine

/-! ### The write engine -/

/-- The whole bytes filled in WE.WORD: `shr(W - WE.BITOFF, 3)` (R101). -/
def filledBytes (s : State) : Nat := shiftRight (s.width.bits - s.we.bitoff.toNat) 3

/-- The write engine's registers after a flush (R101): the cursor moves past the filled bytes, clamped
at END, and the leftover sub-byte bits move to the top of the register. -/
def flushedEngine (s : State) : WriteEngine :=
  { s.we with
    cursor := narrowAddr (min (s.we.cursor.toNat + filledBytes s) s.we.bufEnd.toNat)
    word := narrowWord s.width (shiftLeftW s.width s.we.word.toNat (8 * filledBytes s))
    bitoff := narrowBitoff (s.we.bitoff.toNat + 8 * filledBytes s) }

/-- Procedure Flush() (R101): the whole register is written big-endian at WE.CURSOR. -/
def flush (s : State) : Except Abort State :=
  match boundedWrite s.mem s.we.cursor.toNat s.width.bytes s.we.word.toNat with
  | .error e => .error e
  | .ok m => .ok { s with mem := m, we := flushedEngine s }

/-- The last two lines of Put (R102): the low n bits of v go just below the bits already held. -/
def appendBits (s : State) (v n : Nat) : State :=
  { s with we := { s.we with
      word := narrowWord s.width
        (s.we.word.toNat ||| shiftLeftW s.width (lowBits v n) (s.we.bitoff.toNat - n))
      bitoff := narrowBitoff (s.we.bitoff.toNat - n) } }

/-- Put's flush (R102): only when fewer than n bits are free. -/
def makeRoom (s : State) (n : Nat) : Except Abort State :=
  if s.we.bitoff.toNat < n then flush s else .ok s

/-- Procedure Put(v, n) (R102): SPACE when the flush leaves fewer than n free bits. -/
def put (s : State) (v n : Nat) : Except Abort State :=
  match makeRoom s n with
  | .error e => .error e
  | .ok t => if t.we.bitoff.toNat < n then .error (.raise .space) else .ok (appendBits t v n)

/-- The stream length WE_CLOSE reports (R104): one more byte when bits are pending (D11). -/
def streamLength (s : State) : Nat :=
  (s.we.cursor.toNat - s.we.start.toNat) + (if s.we.bitoff.toNat < s.width.bits then 1 else 0)

/-- The outcome of WE_CLOSE after its final flush (R104). -/
def closeOutcome (s : State) : RCode × Word :=
  if s.we.bufEnd.toNat ≤ s.we.cursor.toNat then (.overflow, 0) else (.ok, BitVec.ofNat 64 (streamLength s))

/-! ### The read engine -/

/-- Peek(n) (R122): the top n of the available bits. -/
def peekBits (s : State) (n : Nat) : Nat := lowBits (shiftRight s.re.word.toNat (s.re.bitoff.toNat - n)) n

/-- Mark n bits as consumed (R124): the word is untouched. -/
def consumeBits (s : State) (n : Nat) : State :=
  { s with re := { s.re with bitoff := narrowBitoff (s.re.bitoff.toNat - n) } }

/-- The bits consumed since the last load: `W - RE.BITOFF` (R121). -/
def consumedBits (s : State) : Nat := s.width.bits - s.re.bitoff.toNat

/-- The address the next load starts at: the cursor advanced by the whole bytes consumed (R121). -/
def reloadAddr (s : State) : Nat := s.re.cursor.toNat + shiftRight (consumedBits s) 3

/-- A full reload's address, word and bit count (R121, case 1). -/
def reloadFull (s : State) : Except Abort (State × ReloadStatus) :=
  match boundedRead s.mem (reloadAddr s) s.width.bytes with
  | .error e => .error e
  | .ok v => .ok ({ s with re := { s.re with
      cursor := narrowAddr (reloadAddr s)
      word := narrowWord s.width v
      bitoff := narrowBitoff (s.width.bits - consumedBits s % 8) } }, .incomplete)

/-- A tail reload's address, word and bit count (R121, case 3): `rem` bytes, right-aligned (D14). -/
def reloadTail (s : State) : Except Abort (State × ReloadStatus) :=
  let rem := s.re.bufEnd.toNat + s.width.bytes - reloadAddr s
  match boundedRead s.mem (reloadAddr s) rem with
  | .error e => .error e
  | .ok v => .ok ({ s with re := { s.re with
      cursor := s.re.bufEnd
      word := narrowWord s.width v
      bitoff := narrowBitoff (8 * rem - consumedBits s % 8) } }, .endOfBuffer)

/-- Function Reload() (R121). -/
def reload (s : State) : Except Abort (State × ReloadStatus) :=
  if s.re.cursor = s.re.bufEnd then
    .ok (s, if 0 < s.re.bitoff.toNat then .endOfBuffer else .complete)
  else if reloadAddr s ≤ s.re.bufEnd.toNat then reloadFull s
  else reloadTail s

/-- A reload that records its status in RE.RSTAT (R125, R126). -/
def reloadRecorded (s : State) : Except Abort (State × ReloadStatus) :=
  match reload s with
  | .error e => .error e
  | .ok (t, st) => .ok ({ t with re := { t.re with rstat := st } }, st)

/-- RE_READ's reload (R125): only when fewer than n bits are available. -/
def refill (s : State) (n : Nat) : Except Abort State :=
  if s.re.bitoff.toNat < n then
    match reloadRecorded s with
    | .error e => .error e
    | .ok (t, _) => .ok t
  else .ok s

/-- The stream is drained (R127). -/
def drained (s : State) : Bool := decide (s.re.cursor = s.re.bufEnd) && decide (s.re.bitoff.toNat = 0)

end Sys2Proof.Machine
end

