-- ==== Sys2Proof/Machine/ReadCommands.lean ====
section
/-! DEFINITION. The read engine's commands (41_read_engine): RE_INIT, RE_PEEK, RE_CONSUME, RE_READ,
RE_RELOAD, RE_CLOSE. -/

namespace Sys2Proof.Machine

/-- The read engine initialised over a buffer, its first word loaded (R120). -/
def initializedReader (w : WordWidth) (base capacity firstWord : Nat) : ReadEngine :=
  { valid := true, word := narrowWord w firstWord, bitoff := narrowBitoff w.bits, start := narrowAddr base
    cursor := narrowAddr base, bufEnd := narrowAddr (base + capacity - w.bytes), rstat := .incomplete }

/-- The execution of RE_INIT (R120): CAPACITY when the buffer is not larger than one word (D7), with no
memory read and the other registers as they were (D35). -/
def runReInit (s : State) (base capacity : Nat) : Execution :=
  if capacity ≤ s.width.bytes then .ok ({ s with re := { s.re with valid := false } }, .capacity, 0)
  else
    match boundedRead s.mem base s.width.bytes with
    | .error e => .error e
    | .ok v => .ok ({ s with re := initializedReader s.width base capacity v }, .ok, 0)

/-- RE_INIT (R120). -/
def execReInit (addr : Addr) (len : BitVec 24) (s : State) : StepOutcome :=
  unlessHalted s <| requireRegion s addr len <| commit s (runReInit s (baseOf addr) (lengthOf len))

/-- The execution of RE_PEEK (R123): EXHAUST when fewer than n bits are available. -/
def runRePeek (s : State) (n : Nat) : Execution :=
  if s.re.bitoff.toNat < n then .error (.raise .exhaust)
  else .ok (s, .ok, BitVec.ofNat 64 (peekBits s n))

/-- RE_PEEK (R123). -/
def execRePeek (nb : BitVec 5) (s : State) : StepOutcome :=
  unlessHalted s <| requireBits s nb <| requireInit s s.re.valid <| commit s (runRePeek s (bitsOf nb))

/-- The execution of RE_CONSUME (R124): the bound of RE_PEEK is checked here too (D15). -/
def runReConsume (s : State) (n : Nat) : Execution :=
  if s.re.bitoff.toNat < n then .error (.raise .exhaust) else .ok (consumeBits s n, .ok, 0)

/-- RE_CONSUME (R124). -/
def execReConsume (nb : BitVec 5) (s : State) : StepOutcome :=
  unlessHalted s <| requireBits s nb <| requireInit s s.re.valid <| commit s (runReConsume s (bitsOf nb))

/-- The execution of RE_READ (R125): a reload when too few bits are available, then EXHAUST if they are
still too few, then a peek and a consume. -/
def runReRead (s : State) (n : Nat) : Execution :=
  match refill s n with
  | .error e => .error e
  | .ok t =>
    if t.re.bitoff.toNat < n then .error (.raise .exhaust)
    else .ok (consumeBits t n, .ok, BitVec.ofNat 64 (peekBits t n))

/-- RE_READ (R125). -/
def execReRead (nb : BitVec 5) (s : State) : StepOutcome :=
  unlessHalted s <| requireBits s nb <| requireInit s s.re.valid <| commit s (runReRead s (bitsOf nb))

/-- The execution of RE_RELOAD (R126): the status goes to RE.RSTAT and to the response. -/
def runReReload (s : State) : Execution :=
  match reloadRecorded s with
  | .error e => .error e
  | .ok (t, st) => .ok (t, .ok, st.code.setWidth 64)

/-- RE_RELOAD (R126). -/
def execReReload (s : State) : StepOutcome :=
  unlessHalted s <| requireInit s s.re.valid <| commit s (runReReload s)

/-- RE_CLOSE (R127): 1 when the stream is drained, and 0 otherwise. -/
def execReClose (s : State) : StepOutcome :=
  unlessHalted s <| requireInit s s.re.valid <|
    commit s (.ok (s, .ok, BitVec.ofNat 64 (flagBit (drained s))))

end Sys2Proof.Machine
end

