-- ==== Sys2Proof/Machine/WriteCommands.lean ====
section
/-! DEFINITION. The write engine's commands (40_write_engine): WE_INIT, WE_WRITE, WE_FLUSH, WE_CLOSE. -/

namespace Sys2Proof.Machine

/-- The write engine initialised over a buffer (R100). -/
def initializedWriter (w : WordWidth) (base capacity : Nat) : WriteEngine :=
  { valid := true, word := 0, bitoff := narrowBitoff w.bits, start := narrowAddr base
    cursor := narrowAddr base, bufEnd := narrowAddr (base + capacity - w.bytes) }

/-- The execution of WE_INIT (R100): CAPACITY when the buffer is not larger than one word (D7), which
leaves the other registers as they were (D35). -/
def runWeInit (s : State) (base capacity : Nat) : Execution :=
  if capacity ≤ s.width.bytes then .ok ({ s with we := { s.we with valid := false } }, .capacity, 0)
  else .ok ({ s with we := initializedWriter s.width base capacity }, .ok, 0)

/-- WE_INIT (R100). -/
def execWeInit (addr : Addr) (len : BitVec 24) (s : State) : StepOutcome :=
  unlessHalted s <| requireRegion s addr len <| commit s (runWeInit s (baseOf addr) (lengthOf len))

/-- The execution of WE_WRITE (R102). -/
def runWeWrite (s : State) (v n : Nat) : Execution :=
  match put s v n with
  | .error e => .error e
  | .ok t => .ok (t, .ok, 0)

/-- WE_WRITE (R102). -/
def execWeWrite (val : BitVec 32) (nb : BitVec 5) (s : State) : StepOutcome :=
  unlessHalted s <| requireBits s nb <| requireInit s s.we.valid <|
    commit s (runWeWrite s (valueOf val) (bitsOf nb))

/-- The execution of WE_FLUSH (R103). -/
def runWeFlush (s : State) : Execution :=
  match flush s with
  | .error e => .error e
  | .ok t => .ok (t, .ok, 0)

/-- WE_FLUSH (R103). -/
def execWeFlush (s : State) : StepOutcome :=
  unlessHalted s <| requireInit s s.we.valid <| commit s (runWeFlush s)

/-- The execution of WE_CLOSE (R104): the marker, a flush, and the stream length or OVERFLOW. -/
def runWeClose (s : State) (v n : Nat) : Execution :=
  match put s v n with
  | .error e => .error e
  | .ok t =>
    match flush t with
    | .error e => .error e
    | .ok u => .ok (u, closeOutcome u)

/-- WE_CLOSE (R104). -/
def execWeClose (val : BitVec 32) (nb : BitVec 5) (s : State) : StepOutcome :=
  unlessHalted s <| requireBits s nb <| requireInit s s.we.valid <|
    commit s (runWeClose s (valueOf val) (bitsOf nb))

end Sys2Proof.Machine
end

