-- ==== Sys2Proof/Machine/Dispatch.lean ====
section
/-! DEFINITION. One arm per command, each a call of its meaning. -/

namespace Sys2Proof.Machine

def exec (i : Instr) (s : State) : Host.Outcome State Fault Refusal :=
  match i with
  | .nop => Sys2Proof.Machine.execNop s
  | .rdState idx => Sys2Proof.Machine.execRdState idx s
  | .weInit addr len => Sys2Proof.Machine.execWeInit addr len s
  | .weWrite val nb => Sys2Proof.Machine.execWeWrite val nb s
  | .weFlush => Sys2Proof.Machine.execWeFlush s
  | .weClose val nb => Sys2Proof.Machine.execWeClose val nb s
  | .reInit addr len => Sys2Proof.Machine.execReInit addr len s
  | .rePeek nb => Sys2Proof.Machine.execRePeek nb s
  | .reConsume nb => Sys2Proof.Machine.execReConsume nb s
  | .reRead nb => Sys2Proof.Machine.execReRead nb s
  | .reReload => Sys2Proof.Machine.execReReload s
  | .reClose => Sys2Proof.Machine.execReClose s
  | .fnCount addr len => Sys2Proof.Machine.execFnCount addr len s
  | .fnNorm imm => Sys2Proof.Machine.execFnNorm imm s
  | .fnRdRaw idx => Sys2Proof.Machine.execFnRdRaw idx s
  | .fnRdNorm idx => Sys2Proof.Machine.execFnRdNorm idx s

end Sys2Proof.Machine
end

