-- ==== Sys2Proof/Machine/Step.lean ====
section
/-! DEFINITION. One step: the host's next move, or nothing when the host has none to make. -/

namespace Sys2Proof.Machine

/-- One command word through the command cycle (R180): decoded and executed, or rejected (R207). -/
def runWord (cw : Word) (s : State) : Host.Outcome State Fault Refusal :=
  match decode cw with
  | .ok i => exec i s
  | .error _ => .next s.rejectWord

/-- One step of the machine. A command is one atomic step (R56, R180); the host's own moves come between
commands (R61, R240); with no move to come the block holds its state (R222, R251). -/
def step (s : State) : Host.Outcome State Fault Refusal :=
  match nextMove s with
  | none => .next s
  | some (.command cw, t) => runWord cw t
  | some (.store a b, t) => .next (t.hostStore a b)
  | some (.reset, t) => .next t.applyReset

/-- The state in which the host's next move presents the command word `w` (its bits at or above `nbits`
zero), so that the very next step runs it. Commands come from the command port, never from MEM (R64). -/
def State.withFetchWord (s : State) (nbits w : Nat) : State :=
  { s with moves := .command (BitVec.ofNat 64 (w % 2 ^ nbits)) :: s.moves }

end Sys2Proof.Machine
end

