-- ==== Sys2Proof/Machine/Assembler.lean ====
section
/-! DEFINITION. The textual syntax of command lists (R88, R89): one command a line, a lower-case mnemonic
and comma-separated operands, `;` starting a comment. It is the host's notation: no step reads it. -/

namespace Sys2Proof.Machine

/-- Why a line is no command (R88). -/
inductive AsmError where
  /-- The mnemonic is in no row of R88 and is no pseudo-instruction of R89. -/
  | unknownMnemonic
  /-- An operand is no decimal or 0x-hexadecimal numeral. -/
  | badNumeral
  /-- The operands are too few or too many for the mnemonic. -/
  | operandCount
  /-- "An operand that does not fit its field is an assembly error. It is never truncated." -/
  | doesNotFit
deriving DecidableEq, Repr

/-- The operand shapes of R88, each with the command it builds. -/
inductive AsmShape where
  | noOperand (i : Instr)
  | addrLen (f : Addr → BitVec 24 → Instr)
  | valNb (f : BitVec 32 → BitVec 5 → Instr)
  | nb (f : BitVec 5 → Instr)
  | imm (f : BitVec 32 → Instr)
  | idx (f : BitVec 8 → Instr)

/-- The rows of R88 and R89. -/
def asmTable : List (String × AsmShape) :=
  [("nop", .noOperand .nop), ("rd.state", .idx .rdState),
   ("we.init", .addrLen .weInit), ("we.write", .valNb .weWrite), ("we.flush", .noOperand .weFlush),
   ("we.close", .valNb .weClose), ("re.init", .addrLen .reInit), ("re.peek", .nb .rePeek),
   ("re.consume", .nb .reConsume), ("re.read", .nb .reRead), ("re.reload", .noOperand .reReload),
   ("re.close", .noOperand .reClose), ("fn.count", .addrLen .fnCount), ("fn.norm", .imm .fnNorm),
   ("fn.rdraw", .idx .fnRdRaw), ("fn.rdnorm", .idx .fnRdNorm)] ++
  [("rd.status", .noOperand .rdStatus), ("rd.id", .noOperand .rdId), ("we.cursor", .noOperand .weCursor),
   ("re.cursor", .noOperand .reCursor), ("re.status", .noOperand .reStatus), ("fn.status", .noOperand .fnStatus)]

/-- The shape of a mnemonic. -/
def asmShape (m : List Char) : Option AsmShape :=
  (asmTable.find? fun r => decide (r.1.toList = m)).map Prod.snd

/-- The value of a digit, hexadecimal letters in either case. -/
def digitValue (c : Char) : Option Nat :=
  if 48 ≤ c.toNat ∧ c.toNat ≤ 57 then some (c.toNat - 48)
  else if 97 ≤ c.toNat ∧ c.toNat ≤ 102 then some (c.toNat - 87)
  else if 65 ≤ c.toNat ∧ c.toNat ≤ 70 then some (c.toNat - 55)
  else none

/-- The digits of a numeral in a base, after the value read so far. -/
def readDigits (base : Nat) : Nat → List Char → Option Nat
  | acc, [] => some acc
  | acc, c :: cs =>
    match digitValue c with
    | some d => if d < base then readDigits base (acc * base + d) cs else none
    | none => none

/-- A numeral (R88): decimal, or hexadecimal after `0x`. -/
def readNumeral : List Char → Option Nat
  | [] => none
  | '0' :: 'x' :: c :: cs => readDigits 16 0 (c :: cs)
  | cs => readDigits 10 0 cs

/-- A blank of the syntax: a space or a tab. -/
def isBlank (c : Char) : Bool := decide (c = ' ') || decide (c = '\t')

/-- Text without the blanks at either end. -/
def trimBlanks (cs : List Char) : List Char := ((cs.dropWhile isBlank).reverse.dropWhile isBlank).reverse

/-- Text cut at a separator. -/
def splitAtChar (sep : Char) : List Char → List (List Char)
  | [] => [[]]
  | c :: cs =>
    if c = sep then [] :: splitAtChar sep cs
    else
      match splitAtChar sep cs with
      | [] => [[c]]
      | w :: ws => (c :: w) :: ws

/-- The operands of a line, none when one is no numeral. -/
def readOperands (cs : List Char) : Option (List Nat) :=
  if trimBlanks cs = [] then some []
  else (splitAtChar ',' cs).mapM fun w => readNumeral (trimBlanks w)

/-- An operand as a field of its width, never truncated (R88). -/
def fitField (w v : Nat) : Except AsmError (BitVec w) :=
  if v < 2 ^ w then .ok (BitVec.ofNat w v) else .error .doesNotFit

/-- The command of a shape and its operands. -/
def buildCommand : AsmShape → List Nat → Except AsmError Instr
  | .noOperand i, [] => .ok i
  | .addrLen f, [a, l] => do return f (← fitField 32 a) (← fitField 24 l)
  | .valNb f, [v, n] => do return f (← fitField 32 v) (← fitField 5 n)
  | .nb f, [n] => do return f (← fitField 5 n)
  | .imm f, [v] => do return f (← fitField 32 v)
  | .idx f, [i] => do return f (← fitField 8 i)
  | _, _ => .error .operandCount

/-- One line of a command list (R88): none when it holds no command. -/
def assembleLine (line : List Char) : Except AsmError (Option Instr) :=
  let text := trimBlanks (line.takeWhile fun c => decide (c ≠ ';'))
  if text = [] then .ok none
  else
    match asmShape (text.takeWhile fun c => !isBlank c) with
    | none => .error .unknownMnemonic
    | some shape =>
      match readOperands (text.dropWhile fun c => !isBlank c) with
      | none => .error .badNumeral
      | some ops => (buildCommand shape ops).map some

/-- A command list (R88): its command words, in order. -/
def assembleLines (ls : List (List Char)) : Except AsmError (List Word) :=
  match ls with
  | [] => .ok []
  | l :: rest =>
    match assembleLine l, assembleLines rest with
    | .ok none, .ok ws => .ok ws
    | .ok (some i), .ok ws => .ok (encode i :: ws)
    | .error e, _ => .error e
    | _, .error e => .error e

end Sys2Proof.Machine
end

