-- ==== Sys2Proof/Safety.lean ====
section
/-! DEFINITION. What a claim about the machine is said in: the opcode table as the spec prints it, the
outcomes of a command, the invariant of the reachable states, and the bit streams the two engines hold
(R53). -/

namespace Sys2Proof.Machine

/-! ### The opcode table and the outcomes of a command -/

/-- The mask and the match value of every row, as spec/opcode_table.json prints them (R80, R81). -/
def opcodeRows : List (Word × Word) :=
  [(0xFFFFFFFFFFFFFFFF, 0x0000000000000000), (0xFFFFFFFFFFFFFF00, 0x0100000000000000),
   (0xFF00000000000000, 0x1000000000000000), (0xFFFFFFE000000000, 0x1100000000000000),
   (0xFFFFFFFFFFFFFFFF, 0x1200000000000000), (0xFFFFFFE000000000, 0x1300000000000000),
   (0xFF00000000000000, 0x2000000000000000), (0xFFFFFFE0FFFFFFFF, 0x2100000000000000),
   (0xFFFFFFE0FFFFFFFF, 0x2200000000000000), (0xFFFFFFE0FFFFFFFF, 0x2300000000000000),
   (0xFFFFFFFFFFFFFFFF, 0x2400000000000000), (0xFFFFFFFFFFFFFFFF, 0x2500000000000000),
   (0xFF00000000000000, 0x3000000000000000), (0xFFFFFFFF00000000, 0x3100000000000000),
   (0xFFFFFFFFFFFFFF00, 0x3200000000000000), (0xFFFFFFFFFFFFFF00, 0x3300000000000000)]

/-- The state after a response (rcode, rdata) that changes nothing else (R82). -/
abbrev State.answered (s : State) (rcode : BitVec 8) (rdata : Word) : State :=
  { s with responses := { rcode := rcode, rdata := rdata } :: s.responses }

/-- The state after a fault (R203): HALTED and FCODE set, the response (code, 0), nothing else changed. -/
abbrev State.faulted (s : State) (code : BitVec 8) : State :=
  { s with blk := { halted := true, fcode := code }, responses := { rcode := code, rdata := 0 } :: s.responses }

/-- The six fault codes (R201). -/
abbrev faultCodes : List (BitVec 8) := [0x10, 0x11, 0x12, 0x13, 0x14, 0x15]

/-! ### The invariant -/

/-- A buffer's three addresses while its engine is initialised (R26, R29, R57): "bufferStart ≤ cursor ≤
bufferEnd", room for more than one word (R100), inside MEM (R59), and a capacity of 24 bits (R13). -/
abbrev bufferOk (w : WordWidth) (start cursor bufEnd : Addr) : Prop :=
  start.toNat ≤ cursor.toNat ∧ cursor.toNat ≤ bufEnd.toNat ∧ start.toNat < bufEnd.toNat ∧
  bufEnd.toNat + w.bytes ≤ memSize ∧ bufEnd.toNat + w.bytes - start.toNat < 2 ^ 24

/-- The write engine's registers (R24 to R26): WORD has W bits and its free bits are 0. -/
abbrev WriteEngine.ok (w : WordWidth) (e : WriteEngine) : Prop :=
  e.word.toNat < 2 ^ w.bits ∧ e.bitoff.toNat ≤ w.bits ∧ e.word.toNat % 2 ^ e.bitoff.toNat = 0 ∧
  (e.valid = true → bufferOk w e.start e.cursor e.bufEnd)

/-- The read engine's registers (R28, R29). -/
abbrev ReadEngine.ok (w : WordWidth) (e : ReadEngine) : Prop :=
  e.word.toNat < 2 ^ w.bits ∧ e.bitoff.toNat ≤ w.bits ∧
  (e.valid = true → bufferOk w e.start e.cursor e.bufEnd)

/-- BLK_STATUS (R32, R201): FCODE is a fault code while halted, and 0 otherwise. -/
abbrev BlockStatus.ok (b : BlockStatus) : Prop :=
  if b.halted then b.fcode ∈ faultCodes else b.fcode = 0

/-- The normalizer (R33 to R36, R162): counters below 2^24, never both status bits, MAXSYM at most 0x100,
and while NVALID is 1 the table describes FN.RAW: present symbols and only they have a nonzero count, and
MAXSYM names the largest entry of both tables (any entry, when both are all zero). -/
def Normalizer.ok (f : Normalizer) : Prop :=
  f.maxsym.toNat ≤ 0x100 ∧ ¬(f.nvalid = true ∧ f.nfail = true) ∧
  (∀ i : Symbol, (f.raw.entry i).toNat < 2 ^ 24) ∧
  (f.nvalid = true → ∀ i : Symbol,
    (0 < (f.raw.entry i).toNat ↔ 0 < (f.norm.entry i).toNat) ∧
    (f.raw.entry i).toNat ≤ (f.raw.entry (f.maxsym.setWidth 8)).toNat ∧
    (f.norm.entry i).toNat ≤ (f.norm.entry (f.maxsym.setWidth 8)).toNat)

/-- The invariant of every reachable state. -/
structure State.Inv (s : State) : Prop where
  blk : s.blk.ok
  we : s.we.ok s.width
  re : s.re.ok s.width
  fn : s.fn.ok
  mem : s.mem.wf = true

/-! ### The engines' bit streams (R53)

A stream is a number and its length in bits, the first bit the most significant. -/

/-- The bits the write engine has taken since its WE_INIT: the whole bytes below the cursor and the bits
pending in WORD. After a clamp (R101) the bits the clamp lost are not among them. -/
def State.writtenBits (s : State) : Nat :=
  8 * (s.we.cursor.toNat - s.we.start.toNat) + (s.width.bits - s.we.bitoff.toNat)

/-- Those bits as a number. -/
def State.writtenValue (s : State) : Nat :=
  memRead s.mem s.we.start.toNat (s.we.cursor.toNat - s.we.start.toNat) * 2 ^ (s.width.bits - s.we.bitoff.toNat) +
    s.we.word.toNat / 2 ^ s.we.bitoff.toNat

/-- The bits the read engine has not consumed: the available bits of WORD and the bytes beyond it. -/
def State.unreadBits (s : State) : Nat :=
  s.re.bitoff.toNat + 8 * (s.re.bufEnd.toNat - s.re.cursor.toNat)

/-- Those bits as a number. -/
def State.unreadValue (s : State) : Nat :=
  s.re.word.toNat % 2 ^ s.re.bitoff.toNat * 2 ^ (8 * (s.re.bufEnd.toNat - s.re.cursor.toNat)) +
    memRead s.mem (s.re.cursor.toNat + s.width.bytes) (s.re.bufEnd.toNat - s.re.cursor.toNat)

/-- The available bits of RE.WORD are the ones MEM holds at the cursor. It holds after an RE_INIT and after
every reload, and until MEM's bytes there are changed. -/
abbrev State.readerCoherent (s : State) : Prop :=
  s.re.cursor.toNat < s.re.bufEnd.toNat →
    s.re.word.toNat % 2 ^ s.re.bitoff.toNat =
      memRead s.mem s.re.cursor.toNat s.width.bytes % 2 ^ s.re.bitoff.toNat

/-! ### Command lists (R22) -/

/-- The commands of a host's list run in order, none when the model stops on the way. -/
def runCommands : List Instr → State → Option State
  | [], s => some s
  | i :: rest, s =>
    match exec i s with
    | .next t => runCommands rest t
    | _ => none

end Sys2Proof.Machine
end

