-- ==== Sys2Proof/Certificates/Slice0/Obligations.lean ====
section
/-! DEFINITION. The statements for the provers. A statement about a step reads the host's next move from
`State.moves`, and a statement about a response reads it from `State.responses`: that the two ports are these
lists is the model's choice (assumptions 2 and 3), and what the rules say is about the command and the response. -/

open Sys2Proof Sys2Proof.Machine

/-! ### Encoding -/

/-- Decoding an encoded command gives it back, whatever its operands (R81, R90). -/
def Obligations.DecodeInvertsEncode : Prop :=
  ∀ i : Instr, decode (encode i) = .ok i

/-- A legal word has one meaning, and encoding that meaning gives the word back: no bit of a legal word is
ignored by the decoder (R85, R90). -/
def Obligations.EncodeInvertsDecode : Prop :=
  ∀ (cw : Word) (i : Instr), decode cw = .ok i → encode i = cw

/-- A word decodes exactly when it matches a row of the printed opcode table (R80, R81). -/
def Obligations.LegalWordsMatchTheTable : Prop :=
  ∀ cw : Word, (∃ i, decode cw = .ok i) ↔ ∃ r ∈ opcodeRows, cw &&& r.1 = r.2

/-- Every field is read at the bits its format gives it, and the reserved bits of the format are 0
(R71 to R76). -/
def Obligations.FieldsAreReadAtTheirBits : Prop :=
  ∀ (cw : Word) (i : Instr), decode cw = .ok i →
    cw.toNat / 2 ^ 56 = i.opcode.toNat ∧
    (i = .nop ∨ i = .weFlush ∨ i = .reReload ∨ i = .reClose → cw.toNat % 2 ^ 56 = 0) ∧
    (∀ a l, i = .weInit a l ∨ i = .reInit a l ∨ i = .fnCount a l →
      l.toNat = cw.toNat / 2 ^ 32 % 2 ^ 24 ∧ a.toNat = cw.toNat % 2 ^ 32) ∧
    (∀ v n, i = .weWrite v n ∨ i = .weClose v n →
      cw.toNat / 2 ^ 37 % 2 ^ 19 = 0 ∧ n.toNat = cw.toNat / 2 ^ 32 % 2 ^ 5 ∧ v.toNat = cw.toNat % 2 ^ 32) ∧
    (∀ n, i = .rePeek n ∨ i = .reConsume n ∨ i = .reRead n →
      cw.toNat / 2 ^ 37 % 2 ^ 19 = 0 ∧ n.toNat = cw.toNat / 2 ^ 32 % 2 ^ 5 ∧ cw.toNat % 2 ^ 32 = 0) ∧
    (∀ m, i = .fnNorm m → cw.toNat / 2 ^ 32 % 2 ^ 24 = 0 ∧ m.toNat = cw.toNat % 2 ^ 32) ∧
    (∀ x, i = .rdState x ∨ i = .fnRdRaw x ∨ i = .fnRdNorm x →
      cw.toNat / 2 ^ 8 % 2 ^ 48 = 0 ∧ x.toNat = cw.toNat % 2 ^ 8)

/-- Words written out from the encodings of the spec decode to the commands they stand for (R90). -/
def Obligations.SpecWordsDecode : Prop :=
  decode 0x0000000000000000 = .ok .nop ∧
  decode 0x1000002000001000 = .ok (.weInit 0x1000 32) ∧
  decode 0x110000040000000C = .ok (.weWrite 12 4) ∧
  decode 0x2300001A00000000 = .ok (.reRead 26) ∧
  decode 0x3000000B00002000 = .ok (.fnCount 0x2000 11) ∧
  decode 0x3100000000001000 = .ok (.fnNorm 4096)

/-- Lines of the textual syntax assemble to the words the spec prints for them, and an operand that does not fit is
an error (R88 to R90). That an empty line is no command is the model's choice (assumption 12): the rules say nothing of
empty lines. -/
def Obligations.SpecLinesAssemble : Prop :=
  assembleLines ["we.init 0x1000, 32 ; a buffer".toList, "we.write 12, 4".toList, "".toList, "re.status".toList] =
    .ok [0x1000002000001000, 0x110000040000000C, 0x0100000000000026] ∧
  assembleLine "we.write 1, 32".toList = .error .doesNotFit

/-! ### The command cycle -/

/-- A command word that decodes is executed, and the command leaves the host's list (R180; the list is the model's
choice, assumption 2). -/
def Obligations.StepRunsTheDecodedCommand : Prop :=
  ∀ (s : State) (cw : Word) (rest : List HostMove) (i : Instr),
    s.moves = .command cw :: rest → decode cw = .ok i → step s = exec i { s with moves := rest }

/-- A word that is no command raises ILLEGAL: it matches no row of the table, or it is an RD_STATE of an
index outside the register map (R207). -/
def Obligations.WordThatIsNoCommandIsIllegal : Prop :=
  ∀ (s : State) (cw : Word) (rest : List HostMove),
    s.moves = .command cw :: rest → s.blk.halted = false →
    ((∀ r ∈ opcodeRows, cw &&& r.1 ≠ r.2) ∨
      (cw.toNat / 2 ^ 8 = 0x01000000000000 ∧ cw.toNat % 2 ^ 8 ∉
        [0x00, 0x01, 0x10, 0x11, 0x12, 0x13, 0x14, 0x15, 0x20, 0x21, 0x22, 0x23, 0x24, 0x25, 0x26, 0x30, 0x31])) →
    step s = .next ({ s with moves := rest }.faulted 0x10)

/-- From every state of the invariant, every command completes with exactly one response, whose rcode is one
the spec lists, and the model never stops (R82, R180, R200, R250). -/
def Obligations.EveryCommandGetsOneResponse : Prop :=
  ∀ (s : State) (cw : Word) (rest : List HostMove),
    s.Inv → s.moves = .command cw :: rest →
    ∃ t r, step s = .next t ∧ t.responses = r :: s.responses ∧ t.moves = rest ∧
      r.rcode ∈ ([0x00, 0x01, 0x02, 0x03, 0x10, 0x11, 0x12, 0x13, 0x14, 0x15, 0x1F] : List (BitVec 8))

/-- A response's data is 0 unless its rcode is OK or REPAIR_FAIL (R82, R200). -/
def Obligations.OnlyOkAndRepairFailCarryData : Prop :=
  ∀ (s t : State) (cw : Word) (rest : List HostMove) (r : Response),
    s.moves = .command cw :: rest → step s = .next t → t.responses = r :: s.responses →
    r.rcode ≠ 0x00 → r.rcode ≠ 0x03 → r.rdata = 0

/-- Every step keeps the invariant. -/
def Obligations.EveryStepKeepsTheInvariant : Prop :=
  ∀ s t : State, s.Inv → step s = .next t → t.Inv

/-- The machine right after reset satisfies the invariant, at either word width. -/
def Obligations.ResetSatisfiesTheInvariant : Prop :=
  ∀ w : WordWidth, (State.resetAt w).Inv

/-! ### Reset and the host's moves -/

/-- The reset input sets every register to its reset value, keeps MEM, and takes the block out of the halt
(R40, R241, R242). That it keeps the word width, the host's later moves and the recorded responses is the model's
choice (assumptions 1 to 3). -/
def Obligations.ResetInputResetsTheRegisters : Prop :=
  ∀ (s : State) (rest : List HostMove), s.moves = .reset :: rest →
    ∃ t, step s = .next t ∧
      t.blk = { halted := false, fcode := 0 } ∧
      t.we = { valid := false, word := 0, bitoff := 0, start := 0, cursor := 0, bufEnd := 0 } ∧
      t.re = { valid := false, word := 0, bitoff := 0, start := 0, cursor := 0, bufEnd := 0, rstat := .incomplete } ∧
      (∀ i : Symbol, t.fn.raw.entry i = 0 ∧ t.fn.norm.entry i = 0) ∧
      t.fn.nvalid = false ∧ t.fn.nfail = false ∧ t.fn.maxsym = 0x100 ∧
      t.mem = s.mem ∧ t.width = s.width ∧ t.moves = rest ∧ t.responses = s.responses

/-- The machine right after reset reads as the spec's reset values through the register map, at either word
width (R40, R41). -/
def Obligations.ResetStateReadsAsTheSpecSays : Prop :=
  ∀ w : WordWidth,
    (∀ idx ∈ ([0x00, 0x10, 0x11, 0x12, 0x13, 0x14, 0x15, 0x20, 0x21, 0x22, 0x23, 0x24, 0x25, 0x26, 0x30] :
        List (BitVec 8)),
      stateRegister (State.resetAt w) idx = some 0) ∧
    stateRegister (State.resetAt w) 0x31 = some 0x100 ∧
    (∀ i : Symbol, (State.resetAt w).fn.raw.entry i = 0 ∧ (State.resetAt w).fn.norm.entry i = 0)

/-- A host write between two commands changes the one byte it names and nothing else, and a step with no
move of the host to come changes nothing (R58, R61, R222). That the host's moves are a list the step reads is the
model's choice (assumption 2). -/
def Obligations.HostStoreChangesOneByte : Prop :=
  (∀ (s : State) (a : Addr) (b : Byte) (rest : List HostMove),
    s.mem.wf = true → s.moves = .store a b :: rest →
    ∃ m, step s = .next { s with mem := m, moves := rest } ∧
      ∀ x, readByte m x = if x = a.toNat then b else readByte s.mem x) ∧
  (∀ s : State, s.moves = [] → step s = .next s)

/-! ### Faults and the halt -/

/-- Whenever a command sets HALTED, the state is the state before it with HALTED and FCODE set and the
response (code, 0): every other effect of the command is discarded (R203, R214). -/
def Obligations.FaultsArePrecise : Prop :=
  ∀ (s t : State) (cw : Word) (rest : List HostMove),
    s.moves = .command cw :: rest → s.blk.halted = false → step s = .next t → t.blk.halted = true →
    t.blk.fcode ∈ faultCodes ∧ t = { s with moves := rest }.faulted t.blk.fcode

/-- While halted, the four readouts in legal form execute normally and change no state, and every other word
is answered (HALTED, 0) with no effect (R204). -/
def Obligations.HaltedBlockOnlyReadsOut : Prop :=
  ∀ (s : State) (cw : Word) (rest : List HostMove),
    s.moves = .command cw :: rest → s.blk.halted = true →
    (cw = 0 → step s = .next ({ s with moves := rest }.answered 0x00 0)) ∧
    (∀ (idx : BitVec 8) (v : Word), cw = 0x0100000000000000 ||| idx.setWidth 64 → stateRegister s idx = some v →
      step s = .next ({ s with moves := rest }.answered 0x00 v)) ∧
    (∀ idx : BitVec 8, cw = 0x3200000000000000 ||| idx.setWidth 64 →
      step s = .next ({ s with moves := rest }.answered 0x00 ((s.fn.raw.entry idx).setWidth 64))) ∧
    (∀ idx : BitVec 8, cw = 0x3300000000000000 ||| idx.setWidth 64 →
      step s = .next ({ s with moves := rest }.answered 0x00 ((s.fn.norm.entry idx).setWidth 64))) ∧
    (cw ≠ 0 →
      (∀ idx : BitVec 8, cw = 0x0100000000000000 ||| idx.setWidth 64 → stateRegister s idx = none) →
      (∀ idx : BitVec 8, cw ≠ 0x3200000000000000 ||| idx.setWidth 64 ∧
        cw ≠ 0x3300000000000000 ||| idx.setWidth 64) →
      step s = .next ({ s with moves := rest }.answered 0x1F 0))

/-- Only the reset input leaves the halt (R204, R215, R240). -/
def Obligations.OnlyResetLeavesTheHalt : Prop :=
  ∀ s t : State, s.blk.halted = true → step s = .next t →
    (∃ rest, s.moves = .reset :: rest) ∨ t.blk = s.blk

/-- NBITS: a bit count of 27 to 31 faults, whatever the engine's state (R205, R208). -/
def Obligations.BitCountAbove26Faults : Prop :=
  ∀ (s : State) (nb : BitVec 5) (v : BitVec 32), s.blk.halted = false → 26 < nb.toNat →
    ∀ i ∈ [Instr.weWrite v nb, .weClose v nb, .rePeek nb, .reConsume nb, .reRead nb],
      exec i s = .next (s.faulted 0x11)

/-- NOTINIT: an engine command other than its INIT, on an engine with VALID = 0 (R205, R206). -/
def Obligations.UninitialisedEngineFaults : Prop :=
  ∀ (s : State) (nb : BitVec 5) (v : BitVec 32), s.blk.halted = false → nb.toNat ≤ 26 →
    (s.we.valid = false →
      ∀ i ∈ [Instr.weWrite v nb, .weFlush, .weClose v nb], exec i s = .next (s.faulted 0x12)) ∧
    (s.re.valid = false →
      ∀ i ∈ [Instr.rePeek nb, .reConsume nb, .reRead nb, .reReload, .reClose], exec i s = .next (s.faulted 0x12))

/-- BADARG: a region that passes the top of memory, or a zero maxTotal (R209). -/
def Obligations.ArgumentOutsideTheDomainFaults : Prop :=
  ∀ s : State, s.blk.halted = false →
    (∀ (a : Addr) (l : BitVec 24), 2 ^ 32 < a.toNat + l.toNat →
      ∀ i ∈ [Instr.weInit a l, .reInit a l, .fnCount a l], exec i s = .next (s.faulted 0x15)) ∧
    exec (.fnNorm 0) s = .next (s.faulted 0x15)

/-- SPACE: raised by a write or a close exactly at W = 32 with n = 26 and 7 bits pending in the partial
byte (R210). -/
def Obligations.SpaceFaultsExactlyWhenSevenBitsPend : Prop :=
  ∀ (s : State) (v : BitVec 32) (nb : BitVec 5), s.Inv → s.blk.halted = false → s.we.valid = true → nb.toNat ≤ 26 →
    ∀ i ∈ [Instr.weWrite v nb, .weClose v nb],
      exec i s = .next (s.faulted 0x13) ↔
        s.width = .w32 ∧ nb.toNat = 26 ∧ (s.width.bits - s.we.bitoff.toNat) % 8 = 7

/-- EXHAUST on a peek or a consume: exactly when fewer bits are available than asked for (R211). -/
def Obligations.PeekAndConsumeExhaustExactly : Prop :=
  ∀ (s : State) (nb : BitVec 5), s.blk.halted = false → s.re.valid = true → nb.toNat ≤ 26 →
    ∀ i ∈ [Instr.rePeek nb, .reConsume nb],
      exec i s = .next (s.faulted 0x14) ↔ s.re.bitoff.toNat < nb.toNat

/-- EXHAUST on a read: exactly when the register has too few bits and either the whole rest of the stream has
too few, or a full reload, which keeps up to 7 partly consumed bits, cannot bring n bits in (R125, R211). -/
def Obligations.ReadExhaustsExactly : Prop :=
  ∀ (s : State) (nb : BitVec 5), s.Inv → s.blk.halted = false → s.re.valid = true → nb.toNat ≤ 26 →
    (exec (.reRead nb) s = .next (s.faulted 0x14) ↔
      s.re.bitoff.toNat < nb.toNat ∧
        (s.unreadBits < nb.toNat ∨
          (s.re.cursor ≠ s.re.bufEnd ∧
            s.re.cursor.toNat + (s.width.bits - s.re.bitoff.toNat) / 8 ≤ s.re.bufEnd.toNat ∧
            s.width.bits < nb.toNat + (s.width.bits - s.re.bitoff.toNat) % 8)))

/-! ### Block control -/

/-- NOP responds (OK, 0) and changes nothing, halted or not (R181). -/
def Obligations.NopAnswersOk : Prop :=
  ∀ s : State, exec .nop s = .next (s.answered 0x00 0)

/-- RD_STATE reads the register map, halted or not, and answers an index outside it with ILLEGAL, or with
HALTED while halted (R41, R87, R182). -/
def Obligations.ReadStateFollowsTheMap : Prop :=
  ∀ s : State,
    (∀ p ∈ ([(0x00, s.blk.fcode.toNat * 256 + (if s.blk.halted then 1 else 0)),
        (0x01, if s.width = .w32 then 0x1A20 else 0x1A40),
        (0x10, if s.we.valid then 1 else 0), (0x11, s.we.word.toNat), (0x12, s.we.bitoff.toNat),
        (0x13, s.we.start.toNat), (0x14, s.we.cursor.toNat), (0x15, s.we.bufEnd.toNat),
        (0x20, if s.re.valid then 1 else 0), (0x21, s.re.word.toNat), (0x22, s.re.bitoff.toNat),
        (0x23, s.re.start.toNat), (0x24, s.re.cursor.toNat), (0x25, s.re.bufEnd.toNat),
        (0x26, if s.re.rstat = .incomplete then 0 else if s.re.rstat = .endOfBuffer then 1 else 2),
        (0x30, (if s.fn.nvalid then 1 else 0) + (if s.fn.nfail then 2 else 0)),
        (0x31, s.fn.maxsym.toNat)] : List (BitVec 8 × Nat)),
      exec (.rdState p.1) s = .next (s.answered 0x00 (BitVec.ofNat 64 p.2))) ∧
    (∀ idx : BitVec 8,
      idx ∉ ([0x00, 0x01, 0x10, 0x11, 0x12, 0x13, 0x14, 0x15, 0x20, 0x21, 0x22, 0x23, 0x24, 0x25, 0x26, 0x30, 0x31] :
        List (BitVec 8)) →
      exec (.rdState idx) s = .next (if s.blk.halted then s.answered 0x1F 0 else s.faulted 0x10))

/-! ### The write engine -/

/-- WE_INIT, all three outcomes (R100). -/
def Obligations.WriteInitSetsUpTheBuffer : Prop :=
  ∀ (s : State) (a : Addr) (l : BitVec 24), s.blk.halted = false →
    (2 ^ 32 < a.toNat + l.toNat → exec (.weInit a l) s = .next (s.faulted 0x15)) ∧
    (a.toNat + l.toNat ≤ 2 ^ 32 → l.toNat ≤ s.width.bytes →
      exec (.weInit a l) s = .next ({ s with we := { s.we with valid := false } }.answered 0x01 0)) ∧
    (a.toNat + l.toNat ≤ 2 ^ 32 → s.width.bytes < l.toNat →
      ∃ e, exec (.weInit a l) s = .next ({ s with we := e }.answered 0x00 0) ∧
        e.valid = true ∧ e.word = 0 ∧ e.bitoff.toNat = s.width.bits ∧ e.start = a ∧ e.cursor = a ∧
        e.bufEnd.toNat = a.toNat + l.toNat - s.width.bytes)

/-- WE_WRITE of n bits that fit: the bits go below the bits already held, the free bits fall by n, and nothing
else changes (R79, R102). -/
def Obligations.WriteIntoRoom : Prop :=
  ∀ (s : State) (v : BitVec 32) (nb : BitVec 5),
    s.we.ok s.width → s.blk.halted = false → s.we.valid = true → nb.toNat ≤ 26 → nb.toNat ≤ s.we.bitoff.toNat →
    ∃ e, exec (.weWrite v nb) s = .next ({ s with we := e }.answered 0x00 0) ∧
      e = { s.we with word := e.word, bitoff := e.bitoff } ∧
      e.word.toNat = s.we.word.toNat + v.toNat % 2 ^ nb.toNat * 2 ^ (s.we.bitoff.toNat - nb.toNat) ∧
      e.bitoff.toNat = s.we.bitoff.toNat - nb.toNat

/-- WE_WRITE of n bits that need a flush: the whole register is stored big-endian at the cursor, the cursor
moves past the filled bytes, clamped at END, the partial byte moves to the top, and the n bits follow it
(R101, R102). -/
def Obligations.WriteAfterFlush : Prop :=
  ∀ (s : State) (v : BitVec 32) (nb : BitVec 5),
    s.Inv → s.blk.halted = false → s.we.valid = true → nb.toNat ≤ 26 → s.we.bitoff.toNat < nb.toNat →
    nb.toNat + (s.width.bits - s.we.bitoff.toNat) % 8 ≤ s.width.bits →
    ∃ e m, exec (.weWrite v nb) s = .next ({ s with we := e, mem := m }.answered 0x00 0) ∧
      e = { s.we with cursor := e.cursor, word := e.word, bitoff := e.bitoff } ∧
      e.cursor.toNat =
        min (s.we.cursor.toNat + (s.width.bits - s.we.bitoff.toNat) / 8) s.we.bufEnd.toNat ∧
      e.bitoff.toNat = s.width.bits - (s.width.bits - s.we.bitoff.toNat) % 8 - nb.toNat ∧
      e.word.toNat =
        s.we.word.toNat * 2 ^ (8 * ((s.width.bits - s.we.bitoff.toNat) / 8)) % 2 ^ s.width.bits +
          v.toNat % 2 ^ nb.toNat * 2 ^ e.bitoff.toNat ∧
      ∀ x, readByte m x =
        if s.we.cursor.toNat ≤ x ∧ x < s.we.cursor.toNat + s.width.bytes then
          BitVec.ofNat 8 (s.we.word.toNat / 2 ^ (8 * (s.we.cursor.toNat + s.width.bytes - 1 - x)))
        else readByte s.mem x

/-- WE_FLUSH: the register is stored big-endian at the cursor, the cursor moves past the filled bytes, clamped
at END, and the sub-byte remainder stays at the top of the register (R101, R103). -/
def Obligations.FlushStoresTheRegister : Prop :=
  ∀ s : State, s.Inv → s.blk.halted = false → s.we.valid = true →
    ∃ e m, exec .weFlush s = .next ({ s with we := e, mem := m }.answered 0x00 0) ∧
      e = { s.we with cursor := e.cursor, word := e.word, bitoff := e.bitoff } ∧
      e.cursor.toNat =
        min (s.we.cursor.toNat + (s.width.bits - s.we.bitoff.toNat) / 8) s.we.bufEnd.toNat ∧
      e.bitoff.toNat = s.width.bits - (s.width.bits - s.we.bitoff.toNat) % 8 ∧
      e.word.toNat =
        s.we.word.toNat * 2 ^ (8 * ((s.width.bits - s.we.bitoff.toNat) / 8)) % 2 ^ s.width.bits ∧
      ∀ x, readByte m x =
        if s.we.cursor.toNat ≤ x ∧ x < s.we.cursor.toNat + s.width.bytes then
          BitVec.ofNat 8 (s.we.word.toNat / 2 ^ (8 * (s.we.cursor.toNat + s.width.bytes - 1 - x)))
        else readByte s.mem x

/-- A second WE_FLUSH changes no register of the engine (R103). -/
def Obligations.SecondFlushChangesNoRegister : Prop :=
  ∀ s t : State, s.Inv → s.blk.halted = false → s.we.valid = true → exec .weFlush s = .next t →
    ∃ u, exec .weFlush t = .next u ∧ u.we = t.we

/-- WE_CLOSE reports the stream length, or OVERFLOW, from the number T of bits written with the marker and the
capacity alone; the cursor ends at START + floor(T / 8), clamped at END; WORD ends as the last T mod 8 bits of the held
bits and the marker, at its top; and the engine stays initialised. Whatever the answer, MEM takes the marker's own
flush where the marker needs one, then the final flush of `word` at `cursor`, the register and the cursor the marker
leaves, and no other byte (R101, R104, R105). -/
def Obligations.CloseReportsTheStreamLength : Prop :=
  ∀ (s : State) (v : BitVec 32) (nb : BitVec 5),
    s.Inv → s.blk.halted = false → s.we.valid = true → nb.toNat ≤ 26 →
    nb.toNat + (s.width.bits - s.we.bitoff.toNat) % 8 ≤ s.width.bits →
    ∃ e m r, ∃ cursor word : Nat,
      exec (.weClose v nb) s = .next { s with we := e, mem := m, responses := r :: s.responses } ∧
      e = { s.we with cursor := e.cursor, word := e.word, bitoff := e.bitoff } ∧
      e.cursor.toNat = min (s.we.start.toNat + (s.writtenBits + nb.toNat) / 8) s.we.bufEnd.toNat ∧
      e.bitoff.toNat = s.width.bits - (s.writtenBits + nb.toNat) % 8 ∧
      e.word.toNat =
        (s.we.word.toNat / 2 ^ s.we.bitoff.toNat * 2 ^ nb.toNat + v.toNat % 2 ^ nb.toNat) %
            2 ^ ((s.writtenBits + nb.toNat) % 8) *
          2 ^ (s.width.bits - (s.writtenBits + nb.toNat) % 8) ∧
      (s.we.bufEnd.toNat - s.we.start.toNat ≤ (s.writtenBits + nb.toNat) / 8 → r = { rcode := 0x02, rdata := 0 }) ∧
      ((s.writtenBits + nb.toNat) / 8 < s.we.bufEnd.toNat - s.we.start.toNat →
        r.rcode = 0x00 ∧ r.rdata.toNat = (s.writtenBits + nb.toNat + 7) / 8) ∧
      (nb.toNat ≤ s.we.bitoff.toNat → cursor = s.we.cursor.toNat ∧
        word = s.we.word.toNat + v.toNat % 2 ^ nb.toNat * 2 ^ (s.we.bitoff.toNat - nb.toNat)) ∧
      (s.we.bitoff.toNat < nb.toNat →
        cursor = min (s.we.cursor.toNat + (s.width.bits - s.we.bitoff.toNat) / 8) s.we.bufEnd.toNat ∧
        word = s.we.word.toNat * 2 ^ (8 * ((s.width.bits - s.we.bitoff.toNat) / 8)) % 2 ^ s.width.bits +
          v.toNat % 2 ^ nb.toNat *
            2 ^ (s.width.bits - (s.width.bits - s.we.bitoff.toNat) % 8 - nb.toNat)) ∧
      ∀ x, readByte m x =
        if cursor ≤ x ∧ x < cursor + s.width.bytes then
          BitVec.ofNat 8 (word / 2 ^ (8 * (cursor + s.width.bytes - 1 - x)))
        else if s.we.bitoff.toNat < nb.toNat ∧ s.we.cursor.toNat ≤ x ∧ x < s.we.cursor.toNat + s.width.bytes then
          BitVec.ofNat 8 (s.we.word.toNat / 2 ^ (8 * (s.we.cursor.toNat + s.width.bytes - 1 - x)))
        else readByte s.mem x

/-- A WE_WRITE appends its n bits to the stream, most significant first, and a WE_FLUSH leaves the stream as it
is, while no flush is clamped (R53, R101, R102). -/
def Obligations.WritesAppendToTheStream : Prop :=
  ∀ s : State, s.Inv → s.blk.halted = false → s.we.valid = true →
    s.we.cursor.toNat + (s.width.bits - s.we.bitoff.toNat) / 8 ≤ s.we.bufEnd.toNat →
    (∀ (v : BitVec 32) (nb : BitVec 5), nb.toNat ≤ 26 →
      nb.toNat + (s.width.bits - s.we.bitoff.toNat) % 8 ≤ s.width.bits →
      ∃ t, exec (.weWrite v nb) s = .next t ∧ t.writtenBits = s.writtenBits + nb.toNat ∧
        t.writtenValue = s.writtenValue * 2 ^ nb.toNat + v.toNat % 2 ^ nb.toNat) ∧
    (∃ t, exec .weFlush s = .next t ∧ t.writtenBits = s.writtenBits ∧ t.writtenValue = s.writtenValue)

/-- After a WE_CLOSE that answers (OK, L), the L bytes from START hold the stream and its marker, followed by 0
bits to the byte boundary (R53, R106). -/
def Obligations.ClosedStreamIsInMemory : Prop :=
  ∀ (s t : State) (v : BitVec 32) (nb : BitVec 5) (len : Word),
    s.Inv → s.blk.halted = false → s.we.valid = true →
    exec (.weClose v nb) s = .next t → t.responses = { rcode := 0x00, rdata := len } :: s.responses →
    memRead t.mem s.we.start.toNat len.toNat =
      (s.writtenValue * 2 ^ nb.toNat + v.toNat % 2 ^ nb.toNat) *
        2 ^ (8 * len.toNat - (s.writtenBits + nb.toNat))

/-- A write engine's command stores inside [START, START + capacity) and nowhere else (R57, R248). -/
def Obligations.FlushesStayInTheBuffer : Prop :=
  ∀ (s t : State) (v : BitVec 32) (nb : BitVec 5), s.Inv → s.we.valid = true →
    ∀ i ∈ [Instr.weWrite v nb, .weFlush, .weClose v nb], exec i s = .next t →
      ∀ x, (x < s.we.start.toNat ∨ s.we.bufEnd.toNat + s.width.bytes ≤ x) → readByte t.mem x = readByte s.mem x

/-! ### Memory -/

/-- Multi-byte accesses are big-endian: a read is the sum of its bytes with the lowest address the most
significant, and a write stores the bytes of its value in that order and no other byte (R52). -/
def Obligations.MemoryIsBigEndian : Prop :=
  (∀ (m : Memory) (a n : Nat),
    memRead m a n = ((List.range n).map fun i => (readByte m (a + i)).toNat * 2 ^ (8 * (n - 1 - i))).sum) ∧
  (∀ (m : Memory) (a n v : Nat), m.wf = true → a + n ≤ 2 ^ 32 →
    (∀ i < n, (readByte (memWrite m a n v) (a + i)).toNat = v / 2 ^ (8 * (n - 1 - i)) % 256) ∧
    (∀ x, x < a ∨ a + n ≤ x → readByte (memWrite m a n v) x = readByte m x))

/-- Only the write engine's commands store to MEM (R51, R55). -/
def Obligations.OnlyTheWriteEngineStores : Prop :=
  ∀ (i : Instr) (s t : State), exec i s = .next t → t.mem ≠ s.mem →
    i = .weFlush ∨ ∃ v nb, i = .weWrite v nb ∨ i = .weClose v nb

/-! ### The read engine -/

/-- RE_INIT, all three outcomes: the first word is loaded big-endian, and MEM is not changed (R120). -/
def Obligations.ReadInitLoadsTheFirstWord : Prop :=
  ∀ (s : State) (a : Addr) (l : BitVec 24), s.blk.halted = false →
    (2 ^ 32 < a.toNat + l.toNat → exec (.reInit a l) s = .next (s.faulted 0x15)) ∧
    (a.toNat + l.toNat ≤ 2 ^ 32 → l.toNat ≤ s.width.bytes →
      exec (.reInit a l) s = .next ({ s with re := { s.re with valid := false } }.answered 0x01 0)) ∧
    (a.toNat + l.toNat ≤ 2 ^ 32 → s.width.bytes < l.toNat →
      ∃ e, exec (.reInit a l) s = .next ({ s with re := e }.answered 0x00 0) ∧
        e.valid = true ∧ e.word.toNat = memRead s.mem a.toNat s.width.bytes ∧ e.bitoff.toNat = s.width.bits ∧
        e.start = a ∧ e.cursor = a ∧ e.bufEnd.toNat = a.toNat + l.toNat - s.width.bytes ∧ e.rstat = .incomplete)

/-- RE_INIT over a region opens its bytes as a bit stream: the unread bits are all the region's bits, in order, most
significant first (R53, R120). -/
def Obligations.ReadInitOpensTheStream : Prop :=
  ∀ (s : State) (a : Addr) (l : BitVec 24),
    s.blk.halted = false → a.toNat + l.toNat ≤ 2 ^ 32 → s.width.bytes < l.toNat →
    ∃ e, exec (.reInit a l) s = .next ({ s with re := e }.answered 0x00 0) ∧ e.valid = true ∧
      { s with re := e }.unreadBits = 8 * l.toNat ∧
      { s with re := e }.unreadValue = memRead s.mem a.toNat l.toNat ∧
      { s with re := e }.readerCoherent

/-- RE_PEEK of n available bits answers the top n of them and changes nothing (R122, R123). -/
def Obligations.PeekAnswersTheTopBits : Prop :=
  ∀ (s : State) (nb : BitVec 5),
    s.blk.halted = false → s.re.valid = true → nb.toNat ≤ 26 → nb.toNat ≤ s.re.bitoff.toNat →
    ∃ d : Word, exec (.rePeek nb) s = .next (s.answered 0x00 d) ∧
      d.toNat = s.re.word.toNat / 2 ^ (s.re.bitoff.toNat - nb.toNat) % 2 ^ nb.toNat

/-- RE_CONSUME of n available bits lowers BITOFF by n and changes nothing else (R124). -/
def Obligations.ConsumeLowersTheBitCount : Prop :=
  ∀ (s : State) (nb : BitVec 5),
    s.blk.halted = false → s.re.valid = true → nb.toNat ≤ 26 → nb.toNat ≤ s.re.bitoff.toNat →
    ∃ b, exec (.reConsume nb) s = .next ({ s with re := { s.re with bitoff := b } }.answered 0x00 0) ∧
      b.toNat = s.re.bitoff.toNat - nb.toNat

/-- RE_READ of n bits the register holds: a peek and a consume, with no reload (R125). -/
def Obligations.ReadWithoutReload : Prop :=
  ∀ (s : State) (nb : BitVec 5),
    s.blk.halted = false → s.re.valid = true → nb.toNat ≤ 26 → nb.toNat ≤ s.re.bitoff.toNat →
    ∃ b d, exec (.reRead nb) s = .next ({ s with re := { s.re with bitoff := b } }.answered 0x00 d) ∧
      b.toNat = s.re.bitoff.toNat - nb.toNat ∧
      d.toNat = s.re.word.toNat / 2 ^ (s.re.bitoff.toNat - nb.toNat) % 2 ^ nb.toNat

/-- RE_READ takes the next n bits of the stream, reloading where it must. Where the register has too few bits, it is
RE_RELOAD's registers, RE.RSTAT among them, that the n bits are taken from, whatever MEM holds under the bits held
before. While MEM there still holds the held bits, the bits answered followed by the bits left are the bits there were.
Only the read engine changes (R53, R121, R122, R125). -/
def Obligations.ReadTakesTheNextBits : Prop :=
  ∀ (s : State) (nb : BitVec 5),
    s.Inv → s.blk.halted = false → s.re.valid = true → nb.toNat ≤ 26 →
    nb.toNat ≤ s.unreadBits → nb.toNat + (s.width.bits - s.re.bitoff.toNat) % 8 ≤ s.width.bits →
    ∃ e d, exec (.reRead nb) s = .next ({ s with re := e }.answered 0x00 d) ∧
      d.toNat < 2 ^ nb.toNat ∧
      { s with re := e }.unreadBits = s.unreadBits - nb.toNat ∧
      e.valid = true ∧ e.start = s.re.start ∧ e.bufEnd = s.re.bufEnd ∧
      (nb.toNat ≤ s.re.bitoff.toNat →
        e = { s.re with bitoff := e.bitoff } ∧ e.bitoff.toNat = s.re.bitoff.toNat - nb.toNat ∧
        d.toNat = s.re.word.toNat / 2 ^ (s.re.bitoff.toNat - nb.toNat) % 2 ^ nb.toNat) ∧
      (s.re.bitoff.toNat < nb.toNat → ∃ f c, exec .reReload s = .next ({ s with re := f }.answered 0x00 c) ∧
        nb.toNat ≤ f.bitoff.toNat ∧
        e = { f with bitoff := e.bitoff } ∧ e.bitoff.toNat = f.bitoff.toNat - nb.toNat ∧
        d.toNat = f.word.toNat / 2 ^ (f.bitoff.toNat - nb.toNat) % 2 ^ nb.toNat) ∧
      (s.readerCoherent →
        s.unreadValue = d.toNat * 2 ^ (s.unreadBits - nb.toNat) + { s with re := e }.unreadValue ∧
        { s with re := e }.readerCoherent)

/-- RE_RELOAD, its three cases (R121, R126). -/
def Obligations.ReloadFollowsItsThreeCases : Prop :=
  ∀ s : State, s.Inv → s.blk.halted = false → s.re.valid = true →
    (s.re.cursor = s.re.bufEnd →
      exec .reReload s = .next (if 0 < s.re.bitoff.toNat then
        { s with re := { s.re with rstat := .endOfBuffer } }.answered 0x00 1
        else { s with re := { s.re with rstat := .complete } }.answered 0x00 2)) ∧
    (s.re.cursor ≠ s.re.bufEnd →
      s.re.cursor.toNat + (s.width.bits - s.re.bitoff.toNat) / 8 ≤ s.re.bufEnd.toNat →
      ∃ e, exec .reReload s = .next ({ s with re := e }.answered 0x00 0) ∧
        e = { s.re with cursor := e.cursor, word := e.word, bitoff := e.bitoff, rstat := .incomplete } ∧
        e.cursor.toNat = s.re.cursor.toNat + (s.width.bits - s.re.bitoff.toNat) / 8 ∧
        e.word.toNat = memRead s.mem e.cursor.toNat s.width.bytes ∧
        e.bitoff.toNat = s.width.bits - (s.width.bits - s.re.bitoff.toNat) % 8) ∧
    (s.re.cursor ≠ s.re.bufEnd →
      s.re.bufEnd.toNat < s.re.cursor.toNat + (s.width.bits - s.re.bitoff.toNat) / 8 →
      ∃ e rem, exec .reReload s = .next ({ s with re := e }.answered 0x00 1) ∧
        1 ≤ rem ∧ rem ≤ s.width.bytes - 1 ∧
        s.re.cursor.toNat + (s.width.bits - s.re.bitoff.toNat) / 8 + rem = s.re.bufEnd.toNat + s.width.bytes ∧
        e = { s.re with cursor := s.re.bufEnd, word := e.word, bitoff := e.bitoff, rstat := .endOfBuffer } ∧
        e.word.toNat = memRead s.mem (s.re.cursor.toNat + (s.width.bits - s.re.bitoff.toNat) / 8) rem ∧
        e.bitoff.toNat = 8 * rem - (s.width.bits - s.re.bitoff.toNat) % 8)

/-- RE_RELOAD keeps the unread stream: no bit is lost, repeated or reordered (R121, R126). -/
def Obligations.ReloadKeepsTheUnreadStream : Prop :=
  ∀ s : State, s.Inv → s.readerCoherent → s.blk.halted = false → s.re.valid = true →
    ∃ e d, exec .reReload s = .next ({ s with re := e }.answered 0x00 d) ∧
      { s with re := e }.unreadBits = s.unreadBits ∧ { s with re := e }.unreadValue = s.unreadValue ∧
      { s with re := e }.readerCoherent

/-- The reload progression, one reload at a time, with every available bit consumed: Incomplete while a full word
follows, EndOfBuffer once for the last r bytes, and Complete at the end (R129). -/
def Obligations.DrainedReloadProgression : Prop :=
  ∀ s : State, s.Inv → s.blk.halted = false → s.re.valid = true → s.re.bitoff = 0 →
    ∃ e : ReadEngine, ∃ d : Word, exec .reReload s = .next ({ s with re := e }.answered 0x00 d) ∧
      (s.re.cursor.toNat + s.width.bytes ≤ s.re.bufEnd.toNat → d = 0 ∧
        e.cursor.toNat = s.re.cursor.toNat + s.width.bytes ∧ e.bitoff.toNat = s.width.bits) ∧
      (s.re.cursor.toNat < s.re.bufEnd.toNat → s.re.bufEnd.toNat < s.re.cursor.toNat + s.width.bytes → d = 1 ∧
        e.cursor = s.re.bufEnd ∧ e.bitoff.toNat = 8 * (s.re.bufEnd.toNat - s.re.cursor.toNat)) ∧
      (s.re.cursor = s.re.bufEnd → d = 2 ∧ e.cursor = s.re.bufEnd ∧ e.bitoff = 0)

/-- RE_CLOSE answers 1 exactly when the cursor is at END and no bit is left, and changes nothing (R127). -/
def Obligations.ReadCloseReportsTheDrainedStream : Prop :=
  ∀ s : State, s.blk.halted = false → s.re.valid = true →
    exec .reClose s =
      .next (s.answered 0x00 (if s.re.cursor = s.re.bufEnd ∧ s.re.bitoff = 0 then 1 else 0))

/-! ### The normalizer -/

/-- FN_COUNT: every entry of FN.RAW is the number of bytes of the region with that value, the status bits are
cleared, and nothing else changes (R150). -/
def Obligations.CountBuildsTheHistogram : Prop :=
  ∀ (s : State) (a : Addr) (l : BitVec 24), s.blk.halted = false → a.toNat + l.toNat ≤ 2 ^ 32 →
    ∃ raw, exec (.fnCount a l) s =
        .next ({ s with fn := { s.fn with raw := raw, nvalid := false, nfail := false } }.answered 0x00 0) ∧
      ∀ i : Symbol, (raw.entry i).toNat =
        ((List.range l.toNat).filter fun k => decide (readByte s.mem (a.toNat + k) = i)).length

/-- The counts of FN_COUNT sum to its length (R150). -/
def Obligations.CountsSumToTheLength : Prop :=
  ∀ (s : State) (a : Addr) (l : BitVec 24), s.blk.halted = false → a.toNat + l.toNat ≤ 2 ^ 32 →
    ∃ t, exec (.fnCount a l) s = .next t ∧ (t.fn.raw.toList.map BitVec.toNat).sum = l.toNat

/-- FN_NORM of an all-zero histogram (R152). -/
def Obligations.NormOfTheEmptyHistogram : Prop :=
  ∀ (s : State) (m : BitVec 32), s.blk.halted = false → m ≠ 0 → (∀ i : Symbol, s.fn.raw.entry i = 0) →
    ∃ norm, exec (.fnNorm m) s =
        .next ({ s with fn := { s.fn with norm := norm, maxsym := 0x100, nvalid := true, nfail := false } }.answered
          0x00 0x100) ∧
      ∀ i : Symbol, norm.entry i = 0

/-- FN_NORM when scaling starves no symbol: the maximum symbol, the lowest with the largest count, gets maxTotal,
and every other symbol its scaled or, when no shrinking is needed, its own count (R153 to R155). -/
def Obligations.NormScalesProportionally : Prop :=
  ∀ (s : State) (m : BitVec 32) (ms : Symbol), s.blk.halted = false → m ≠ 0 → s.fn.raw.entry ms ≠ 0 →
    (∀ i : Symbol, (s.fn.raw.entry i).toNat ≤ (s.fn.raw.entry ms).toNat) →
    (∀ i : Symbol, i.toNat < ms.toNat → (s.fn.raw.entry i).toNat < (s.fn.raw.entry ms).toNat) →
    (m.toNat < (s.fn.raw.entry ms).toNat → ∀ i : Symbol, s.fn.raw.entry i ≠ 0 →
      (s.fn.raw.entry ms).toNat ≤ m.toNat * (s.fn.raw.entry i).toNat) →
    ∃ norm, exec (.fnNorm m) s =
        .next ({ s with fn := { s.fn with
          norm := norm, maxsym := ms.setWidth 9, nvalid := true, nfail := false } }.answered 0x00 (ms.setWidth 64)) ∧
      norm.entry ms = m ∧
      ∀ i : Symbol, i ≠ ms → (norm.entry i).toNat =
        if m.toNat < (s.fn.raw.entry ms).toNat then
          m.toNat * (s.fn.raw.entry i).toNat / (s.fn.raw.entry ms).toNat
        else (s.fn.raw.entry i).toNat

/-- FN_NORM when scaling starves a symbol and no symbol but the maximum keeps more than one unit: REPAIR_FAIL with
the lowest victim, the scaled table kept, NFAIL set, and no halt (R156, R157, R159). -/
def Obligations.NormFailsWithoutADonor : Prop :=
  ∀ (s : State) (m : BitVec 32) (ms v : Symbol), s.blk.halted = false → m ≠ 0 →
    (∀ i : Symbol, (s.fn.raw.entry i).toNat ≤ (s.fn.raw.entry ms).toNat) →
    (∀ i : Symbol, i.toNat < ms.toNat → (s.fn.raw.entry i).toNat < (s.fn.raw.entry ms).toNat) →
    m.toNat < (s.fn.raw.entry ms).toNat →
    s.fn.raw.entry v ≠ 0 → m.toNat * (s.fn.raw.entry v).toNat < (s.fn.raw.entry ms).toNat →
    (∀ i : Symbol, i.toNat < v.toNat → s.fn.raw.entry i ≠ 0 →
      (s.fn.raw.entry ms).toNat ≤ m.toNat * (s.fn.raw.entry i).toNat) →
    (∀ j : Symbol, j ≠ ms → m.toNat * (s.fn.raw.entry j).toNat / (s.fn.raw.entry ms).toNat ≤ 1) →
    ∃ norm, exec (.fnNorm m) s =
        .next ({ s with fn := { s.fn with
          norm := norm, maxsym := ms.setWidth 9, nvalid := false, nfail := true } }.answered 0x03 (v.setWidth 64)) ∧
      norm.entry ms = m ∧
      ∀ i : Symbol, i ≠ ms → (norm.entry i).toNat =
        m.toNat * (s.fn.raw.entry i).toNat / (s.fn.raw.entry ms).toNat

/-- FN_NORM always completes; and when it answers OK on a histogram that is not all zero, the maximum symbol has
exactly maxTotal, every present symbol and no other has a nonzero count, a symbol alone in the input is the only
nonzero entry, and every entry is at most maxTotal (R162). -/
def Obligations.NormalizationInvariants : Prop :=
  ∀ (s : State) (m : BitVec 32), s.blk.halted = false → m ≠ 0 →
    ∃ t r, exec (.fnNorm m) s = .next t ∧ t.responses = r :: s.responses ∧
      t = { s with
        fn := { s.fn with norm := t.fn.norm, maxsym := t.fn.maxsym, nvalid := t.fn.nvalid, nfail := t.fn.nfail }
        responses := r :: s.responses } ∧
      (r.rcode = 0x00 ∧ t.fn.nvalid = true ∧ t.fn.nfail = false ∨
        r.rcode = 0x03 ∧ t.fn.nvalid = false ∧ t.fn.nfail = true) ∧
      (r.rcode = 0x00 → (∃ i : Symbol, s.fn.raw.entry i ≠ 0) →
        ∃ ms : Symbol, t.fn.maxsym = ms.setWidth 9 ∧ r.rdata = ms.setWidth 64 ∧
          (∀ i : Symbol, (s.fn.raw.entry i).toNat ≤ (s.fn.raw.entry ms).toNat) ∧
          (∀ i : Symbol, i.toNat < ms.toNat → (s.fn.raw.entry i).toNat < (s.fn.raw.entry ms).toNat) ∧
          t.fn.norm.entry ms = m ∧
          (∀ i : Symbol, s.fn.raw.entry i ≠ 0 ↔ t.fn.norm.entry i ≠ 0) ∧
          (∀ x : Symbol, (∀ i : Symbol, s.fn.raw.entry i ≠ 0 ↔ i = x) →
            t.fn.norm.entry x = m ∧ ∀ i : Symbol, i ≠ x → t.fn.norm.entry i = 0) ∧
          (∀ i : Symbol, (t.fn.norm.entry i).toNat ≤ m.toNat))

/-- FN_NORM of a histogram that is not all zero, turn by turn: `table 0` is the scaled table, turn v makes
`table (v + 1)` from `table v`, and `turns` turns run. A victim, a present symbol with working count 0, ends its turn
at exactly 1 and takes the unit from its donor: the symbol with the least count above 1, the maximum symbol aside, the
lowest among equals. Every other entry stays, and a turn of a symbol that is no victim changes nothing. After all 256
turns the answer is (OK, ms) with the last table; a victim that meets no donor ends the run with (REPAIR_FAIL, victim)
and the table of the turns before. So the repair makes no unit: the table's sum is the scaled table's (R151, R153 to
R159). -/
def Obligations.RepairKeepsTheSum : Prop :=
  ∀ (s : State) (m : BitVec 32) (ms : Symbol), s.blk.halted = false → m ≠ 0 → s.fn.raw.entry ms ≠ 0 →
    (∀ i : Symbol, (s.fn.raw.entry i).toNat ≤ (s.fn.raw.entry ms).toNat) →
    (∀ i : Symbol, i.toNat < ms.toNat → (s.fn.raw.entry i).toNat < (s.fn.raw.entry ms).toNat) →
    ∃ (table : Nat → Table) (turns : Nat),
      (∀ i : Symbol, ((table 0).entry i).toNat =
        if i = ms then m.toNat
        else if m.toNat < (s.fn.raw.entry ms).toNat then
          m.toNat * (s.fn.raw.entry i).toNat / (s.fn.raw.entry ms).toNat
        else (s.fn.raw.entry i).toNat) ∧
      (∀ v : Symbol, v.toNat < turns →
        if s.fn.raw.entry v ≠ 0 ∧ (table v.toNat).entry v = 0 then
          ∃ d : Symbol, d ≠ ms ∧ 1 < ((table v.toNat).entry d).toNat ∧
            (∀ j : Symbol, j ≠ ms → 1 < ((table v.toNat).entry j).toNat →
              ((table v.toNat).entry d).toNat < ((table v.toNat).entry j).toNat ∨
                ((table v.toNat).entry d).toNat = ((table v.toNat).entry j).toNat ∧ d.toNat ≤ j.toNat) ∧
            ∀ i : Symbol, ((table (v.toNat + 1)).entry i).toNat =
              if i = v then 1 else if i = d then ((table v.toNat).entry d).toNat - 1
              else ((table v.toNat).entry i).toNat
        else table (v.toNat + 1) = table v.toNat) ∧
      (turns = 256 ∧
          exec (.fnNorm m) s = .next ({ s with fn := { s.fn with
            norm := table turns, maxsym := ms.setWidth 9, nvalid := true, nfail := false } }.answered
              0x00 (ms.setWidth 64)) ∨
        ∃ v : Symbol, turns = v.toNat ∧ s.fn.raw.entry v ≠ 0 ∧ (table turns).entry v = 0 ∧
          (∀ j : Symbol, j ≠ ms → ((table turns).entry j).toNat ≤ 1) ∧
          exec (.fnNorm m) s = .next ({ s with fn := { s.fn with
            norm := table turns, maxsym := ms.setWidth 9, nvalid := false, nfail := true } }.answered
              0x03 (v.setWidth 64))) ∧
      ((table turns).toList.map BitVec.toNat).sum = ((table 0).toList.map BitVec.toNat).sum

/-- The donor is the eligible symbol with the least count, the lowest among equals, and there is none exactly when
no symbol but the maximum has more than one unit (R157). -/
def Obligations.DonorIsTheSmallestEligible : Prop :=
  ∀ (t : Table) (ms : Symbol),
    (chooseDonor t ms = none ↔ ∀ j : Symbol, j ≠ ms → (t.entry j).toNat ≤ 1) ∧
    (∀ d : Symbol, chooseDonor t ms = some d ↔
      d ≠ ms ∧ 1 < (t.entry d).toNat ∧
      ∀ j : Symbol, j ≠ ms → 1 < (t.entry j).toNat →
        (t.entry d).toNat < (t.entry j).toNat ∨ ((t.entry d).toNat = (t.entry j).toNat ∧ d.toNat ≤ j.toNat))

/-- FN_RDRAW and FN_RDNORM answer the entry they name, halted or not, and change nothing (R160, R161). -/
def Obligations.TableReadoutsAnswerTheEntry : Prop :=
  ∀ (s : State) (idx : Symbol),
    (∃ d : Word, exec (.fnRdRaw idx) s = .next (s.answered 0x00 d) ∧ d.toNat = (s.fn.raw.entry idx).toNat) ∧
    (∃ d : Word, exec (.fnRdNorm idx) s = .next (s.answered 0x00 d) ∧ d.toNat = (s.fn.norm.entry idx).toNat)

/-- Round trip: after a WE_INIT, WE_WRITEs of groups and a WE_CLOSE that run without a fault and answer (OK, L) with
L > B, an RE_INIT over the same base with capacity L and RE_READs of the same bit counts answer the groups and the
marker, in order (R128). -/
def Obligations.RoundTrip : Prop :=
  ∀ (s t : State) (a : Addr) (c l : BitVec 24) (groups : List (BitVec 32 × BitVec 5)) (m : BitVec 32) (k : BitVec 5),
    s.Inv → (∀ g ∈ groups, 0 < g.2.toNat ∧ g.2.toNat ≤ 26 ∧ g.1.toNat < 2 ^ g.2.toNat) →
    k.toNat ≤ 26 → m.toNat < 2 ^ k.toNat →
    runCommands (.weInit a c :: groups.map (fun g => .weWrite g.1 g.2) ++ [.weClose m k]) s = some t →
    t.blk.halted = false → t.responses.head? = some { rcode := 0x00, rdata := l.setWidth 64 } →
    s.width.bytes < l.toNat →
    ∃ u, runCommands (.reInit a l :: groups.map (fun g => .reRead g.2) ++ [.reRead k]) t = some u ∧
      u.blk.halted = false ∧
      u.responses = { rcode := 0x00, rdata := m.setWidth 64 } ::
        (groups.map fun g => { rcode := 0x00, rdata := g.1.setWidth 64 }).reverse ++
        { rcode := 0x00, rdata := 0 } :: t.responses

/-! ### The whole machine -/

/-- The units are independent: a command of one unit changes no register of the others, no command changes the
word width or the host's list, and only a write engine's command changes MEM (R244). -/
def Obligations.UnitsAreIndependent : Prop :=
  ∀ (i : Instr) (s t : State), exec i s = .next t →
    t.width = s.width ∧ t.moves = s.moves ∧
    (i.opcode.toNat / 16 ≠ 1 → t.we = s.we ∧ t.mem = s.mem) ∧
    (i.opcode.toNat / 16 ≠ 2 → t.re = s.re) ∧
    (i.opcode.toNat / 16 ≠ 3 → t.fn = s.fn)

/-- What a unit's command does depends on that unit's registers, the word width, BLK_STATUS and MEM alone: two
states that agree on those go to states that agree on them, with the same response (R19, R244). -/
def Obligations.CommandsDependOnTheirUnitAlone : Prop :=
  ∀ (i : Instr) (s u t : State), s.width = u.width → s.blk = u.blk → s.mem = u.mem →
    (i.opcode.toNat / 16 = 1 → s.we = u.we) →
    (i.opcode.toNat / 16 = 2 → s.re = u.re) →
    (i.opcode.toNat / 16 = 3 → s.fn = u.fn) →
    i.opcode.toNat / 16 ≠ 0 → exec i s = .next t →
    ∃ t', exec i u = .next t' ∧ t'.blk = t.blk ∧ t'.mem = t.mem ∧
      (i.opcode.toNat / 16 = 1 → t'.we = t.we) ∧
      (i.opcode.toNat / 16 = 2 → t'.re = t.re) ∧
      (i.opcode.toNat / 16 = 3 → t'.fn = t.fn) ∧
      t'.responses.head? = t.responses.head?

/-- A status outcome never halts the block (R202, R212). -/
def Obligations.StatusOutcomesNeverHalt : Prop :=
  ∀ (i : Instr) (s t : State) (r : Response), exec i s = .next t → t.responses = r :: s.responses →
    r.rcode = 0x01 ∨ r.rcode = 0x02 ∨ r.rcode = 0x03 → t.blk = s.blk ∧ t.blk.halted = false
end

