-- ==== Sys2Proof/Laws/State.lean ====
section
/-! SUPPORT. One lemma per field of State and per update of it, each true by `rfl`, so that no later proof
unfolds an update. -/

namespace Sys2Proof.Machine

variable (s : State)

/-! ### `State.emit` -/

@[simp] theorem State.emit_width (c : BitVec 8) (d : Word) : (s.emit c d).width = s.width := rfl
@[simp] theorem State.emit_blk (c : BitVec 8) (d : Word) : (s.emit c d).blk = s.blk := rfl
@[simp] theorem State.emit_we (c : BitVec 8) (d : Word) : (s.emit c d).we = s.we := rfl
@[simp] theorem State.emit_re (c : BitVec 8) (d : Word) : (s.emit c d).re = s.re := rfl
@[simp] theorem State.emit_fn (c : BitVec 8) (d : Word) : (s.emit c d).fn = s.fn := rfl
@[simp] theorem State.emit_mem (c : BitVec 8) (d : Word) : (s.emit c d).mem = s.mem := rfl
@[simp] theorem State.emit_moves (c : BitVec 8) (d : Word) : (s.emit c d).moves = s.moves := rfl
@[simp] theorem State.emit_responses (c : BitVec 8) (d : Word) :
    (s.emit c d).responses = { rcode := c, rdata := d } :: s.responses := rfl

/-! ### `State.respond` -/

@[simp] theorem State.respond_width (rc : RCode) (d : Word) : (s.respond rc d).width = s.width := rfl
@[simp] theorem State.respond_blk (rc : RCode) (d : Word) : (s.respond rc d).blk = s.blk := rfl
@[simp] theorem State.respond_we (rc : RCode) (d : Word) : (s.respond rc d).we = s.we := rfl
@[simp] theorem State.respond_re (rc : RCode) (d : Word) : (s.respond rc d).re = s.re := rfl
@[simp] theorem State.respond_fn (rc : RCode) (d : Word) : (s.respond rc d).fn = s.fn := rfl
@[simp] theorem State.respond_mem (rc : RCode) (d : Word) : (s.respond rc d).mem = s.mem := rfl
@[simp] theorem State.respond_moves (rc : RCode) (d : Word) : (s.respond rc d).moves = s.moves := rfl
@[simp] theorem State.respond_responses (rc : RCode) (d : Word) :
    (s.respond rc d).responses = { rcode := rc.code, rdata := d } :: s.responses := rfl

/-! ### `State.takeFault` -/

@[simp] theorem State.takeFault_width (c : FaultCode) : (s.takeFault c).width = s.width := rfl
@[simp] theorem State.takeFault_blk (c : FaultCode) : (s.takeFault c).blk = { halted := true, fcode := c.code } := rfl
@[simp] theorem State.takeFault_we (c : FaultCode) : (s.takeFault c).we = s.we := rfl
@[simp] theorem State.takeFault_re (c : FaultCode) : (s.takeFault c).re = s.re := rfl
@[simp] theorem State.takeFault_fn (c : FaultCode) : (s.takeFault c).fn = s.fn := rfl
@[simp] theorem State.takeFault_mem (c : FaultCode) : (s.takeFault c).mem = s.mem := rfl
@[simp] theorem State.takeFault_moves (c : FaultCode) : (s.takeFault c).moves = s.moves := rfl
@[simp] theorem State.takeFault_responses (c : FaultCode) :
    (s.takeFault c).responses = { rcode := c.code, rdata := 0 } :: s.responses := rfl

/-! ### `State.refuseHalted` -/

@[simp] theorem State.refuseHalted_width : (s.refuseHalted).width = s.width := rfl
@[simp] theorem State.refuseHalted_blk : (s.refuseHalted).blk = s.blk := rfl
@[simp] theorem State.refuseHalted_we : (s.refuseHalted).we = s.we := rfl
@[simp] theorem State.refuseHalted_re : (s.refuseHalted).re = s.re := rfl
@[simp] theorem State.refuseHalted_fn : (s.refuseHalted).fn = s.fn := rfl
@[simp] theorem State.refuseHalted_mem : (s.refuseHalted).mem = s.mem := rfl
@[simp] theorem State.refuseHalted_moves : (s.refuseHalted).moves = s.moves := rfl
@[simp] theorem State.refuseHalted_responses :
    (s.refuseHalted).responses = { rcode := 0x1F, rdata := 0 } :: s.responses := rfl

/-! ### `State.applyReset` -/

@[simp] theorem State.applyReset_width : (s.applyReset).width = s.width := rfl
@[simp] theorem State.applyReset_blk : (s.applyReset).blk = .reset := rfl
@[simp] theorem State.applyReset_we : (s.applyReset).we = .reset := rfl
@[simp] theorem State.applyReset_re : (s.applyReset).re = .reset := rfl
@[simp] theorem State.applyReset_fn : (s.applyReset).fn = .reset := rfl
@[simp] theorem State.applyReset_mem : (s.applyReset).mem = s.mem := rfl
@[simp] theorem State.applyReset_moves : (s.applyReset).moves = s.moves := rfl
@[simp] theorem State.applyReset_responses : (s.applyReset).responses = s.responses := rfl

/-! ### `State.hostStore` -/

@[simp] theorem State.hostStore_width (a : Addr) (b : Byte) : (s.hostStore a b).width = s.width := rfl
@[simp] theorem State.hostStore_blk (a : Addr) (b : Byte) : (s.hostStore a b).blk = s.blk := rfl
@[simp] theorem State.hostStore_we (a : Addr) (b : Byte) : (s.hostStore a b).we = s.we := rfl
@[simp] theorem State.hostStore_re (a : Addr) (b : Byte) : (s.hostStore a b).re = s.re := rfl
@[simp] theorem State.hostStore_fn (a : Addr) (b : Byte) : (s.hostStore a b).fn = s.fn := rfl
@[simp] theorem State.hostStore_mem (a : Addr) (b : Byte) : (s.hostStore a b).mem = writeByte s.mem a.toNat b := rfl
@[simp] theorem State.hostStore_moves (a : Addr) (b : Byte) : (s.hostStore a b).moves = s.moves := rfl
@[simp] theorem State.hostStore_responses (a : Addr) (b : Byte) : (s.hostStore a b).responses = s.responses := rfl

/-! ### `State.withFetchWord` -/

@[simp] theorem State.withFetchWord_width (nbits w : Nat) : (s.withFetchWord nbits w).width = s.width := rfl
@[simp] theorem State.withFetchWord_blk (nbits w : Nat) : (s.withFetchWord nbits w).blk = s.blk := rfl
@[simp] theorem State.withFetchWord_we (nbits w : Nat) : (s.withFetchWord nbits w).we = s.we := rfl
@[simp] theorem State.withFetchWord_re (nbits w : Nat) : (s.withFetchWord nbits w).re = s.re := rfl
@[simp] theorem State.withFetchWord_fn (nbits w : Nat) : (s.withFetchWord nbits w).fn = s.fn := rfl
@[simp] theorem State.withFetchWord_mem (nbits w : Nat) : (s.withFetchWord nbits w).mem = s.mem := rfl
@[simp] theorem State.withFetchWord_moves (nbits w : Nat) :
    (s.withFetchWord nbits w).moves = .command (BitVec.ofNat 64 (w % 2 ^ nbits)) :: s.moves := rfl
@[simp] theorem State.withFetchWord_responses (nbits w : Nat) :
    (s.withFetchWord nbits w).responses = s.responses := rfl

/-! ### `appendBits` -/

@[simp] theorem appendBits_width (v n : Nat) : (appendBits s v n).width = s.width := rfl
@[simp] theorem appendBits_blk (v n : Nat) : (appendBits s v n).blk = s.blk := rfl
@[simp] theorem appendBits_re (v n : Nat) : (appendBits s v n).re = s.re := rfl
@[simp] theorem appendBits_fn (v n : Nat) : (appendBits s v n).fn = s.fn := rfl
@[simp] theorem appendBits_mem (v n : Nat) : (appendBits s v n).mem = s.mem := rfl
@[simp] theorem appendBits_moves (v n : Nat) : (appendBits s v n).moves = s.moves := rfl
@[simp] theorem appendBits_responses (v n : Nat) : (appendBits s v n).responses = s.responses := rfl
@[simp] theorem appendBits_we_valid (v n : Nat) : (appendBits s v n).we.valid = s.we.valid := rfl
@[simp] theorem appendBits_we_start (v n : Nat) : (appendBits s v n).we.start = s.we.start := rfl
@[simp] theorem appendBits_we_cursor (v n : Nat) : (appendBits s v n).we.cursor = s.we.cursor := rfl
@[simp] theorem appendBits_we_bufEnd (v n : Nat) : (appendBits s v n).we.bufEnd = s.we.bufEnd := rfl

/-! ### `consumeBits` -/

@[simp] theorem consumeBits_width (n : Nat) : (consumeBits s n).width = s.width := rfl
@[simp] theorem consumeBits_blk (n : Nat) : (consumeBits s n).blk = s.blk := rfl
@[simp] theorem consumeBits_we (n : Nat) : (consumeBits s n).we = s.we := rfl
@[simp] theorem consumeBits_fn (n : Nat) : (consumeBits s n).fn = s.fn := rfl
@[simp] theorem consumeBits_mem (n : Nat) : (consumeBits s n).mem = s.mem := rfl
@[simp] theorem consumeBits_moves (n : Nat) : (consumeBits s n).moves = s.moves := rfl
@[simp] theorem consumeBits_responses (n : Nat) : (consumeBits s n).responses = s.responses := rfl
@[simp] theorem consumeBits_re_valid (n : Nat) : (consumeBits s n).re.valid = s.re.valid := rfl
@[simp] theorem consumeBits_re_start (n : Nat) : (consumeBits s n).re.start = s.re.start := rfl
@[simp] theorem consumeBits_re_cursor (n : Nat) : (consumeBits s n).re.cursor = s.re.cursor := rfl
@[simp] theorem consumeBits_re_bufEnd (n : Nat) : (consumeBits s n).re.bufEnd = s.re.bufEnd := rfl
@[simp] theorem consumeBits_re_word (n : Nat) : (consumeBits s n).re.word = s.re.word := rfl
@[simp] theorem consumeBits_re_rstat (n : Nat) : (consumeBits s n).re.rstat = s.re.rstat := rfl

@[simp] theorem flushedEngine_valid : (flushedEngine s).valid = s.we.valid := rfl
@[simp] theorem flushedEngine_start : (flushedEngine s).start = s.we.start := rfl
@[simp] theorem flushedEngine_bufEnd : (flushedEngine s).bufEnd = s.we.bufEnd := rfl

/-! ### `State.resetAt` -/

variable (w : WordWidth)

@[simp] theorem State.resetAt_width : (State.resetAt w).width = w := rfl
@[simp] theorem State.resetAt_blk : (State.resetAt w).blk = .reset := rfl
@[simp] theorem State.resetAt_we : (State.resetAt w).we = .reset := rfl
@[simp] theorem State.resetAt_re : (State.resetAt w).re = .reset := rfl
@[simp] theorem State.resetAt_fn : (State.resetAt w).fn = .reset := rfl
@[simp] theorem State.resetAt_mem : (State.resetAt w).mem = [] := rfl
@[simp] theorem State.resetAt_moves : (State.resetAt w).moves = [] := rfl
@[simp] theorem State.resetAt_responses : (State.resetAt w).responses = [] := rfl

/-! ### The normalizer's status -/

variable (f : Normalizer)

@[simp] theorem Normalizer.clearStatus_raw : f.clearStatus.raw = f.raw := rfl
@[simp] theorem Normalizer.clearStatus_norm : f.clearStatus.norm = f.norm := rfl
@[simp] theorem Normalizer.clearStatus_nvalid : f.clearStatus.nvalid = false := rfl
@[simp] theorem Normalizer.clearStatus_nfail : f.clearStatus.nfail = false := rfl
@[simp] theorem Normalizer.clearStatus_maxsym : f.clearStatus.maxsym = f.maxsym := rfl
@[simp] theorem Normalizer.markValid_raw : f.markValid.raw = f.raw := rfl
@[simp] theorem Normalizer.markValid_norm : f.markValid.norm = f.norm := rfl
@[simp] theorem Normalizer.markValid_nvalid : f.markValid.nvalid = true := rfl
@[simp] theorem Normalizer.markValid_nfail : f.markValid.nfail = false := rfl
@[simp] theorem Normalizer.markValid_maxsym : f.markValid.maxsym = f.maxsym := rfl
@[simp] theorem Normalizer.markFailed_raw : f.markFailed.raw = f.raw := rfl
@[simp] theorem Normalizer.markFailed_norm : f.markFailed.norm = f.norm := rfl
@[simp] theorem Normalizer.markFailed_nvalid : f.markFailed.nvalid = false := rfl
@[simp] theorem Normalizer.markFailed_nfail : f.markFailed.nfail = true := rfl
@[simp] theorem Normalizer.markFailed_maxsym : f.markFailed.maxsym = f.maxsym := rfl

end Sys2Proof.Machine
end

