-- ==== Sys2Proof/Laws/Cycle.lean ====
section
/-! SUPPORT. What each check of the command cycle (R180, R205) and each ending of a command can do, said
once. -/

namespace Sys2Proof.Machine

variable {s t : State}

/-! ### The checks that pass -/

@[simp] theorem unlessHalted_of_running {k : StepOutcome} (h : s.blk.halted = false) :
    unlessHalted s k = k := by simp [unlessHalted, h]

@[simp] theorem unlessHalted_of_halted {k : StepOutcome} (h : s.blk.halted = true) :
    unlessHalted s k = .next s.refuseHalted := by simp [unlessHalted, h]

@[simp] theorem require_true {c : FaultCode} {k : StepOutcome} : require s c true k = k := rfl

@[simp] theorem require_false {c : FaultCode} {k : StepOutcome} : require s c false k = .next (s.takeFault c) := rfl

theorem requireBits_of_le {nb : BitVec 5} {k : StepOutcome} (h : nb.toNat ≤ 26) : requireBits s nb k = k := by
  simp [requireBits, bitsOf, maxBitCount, h]

theorem requireBits_of_gt {nb : BitVec 5} {k : StepOutcome} (h : 26 < nb.toNat) :
    requireBits s nb k = .next (s.takeFault .nbits) := by
  have : ¬ nb.toNat ≤ 26 := by omega
  simp [requireBits, bitsOf, maxBitCount, this]

theorem requireInit_of_valid {v : Bool} {k : StepOutcome} (h : v = true) : requireInit s v k = k := by
  simp [requireInit, h]

theorem requireInit_of_invalid {v : Bool} {k : StepOutcome} (h : v = false) :
    requireInit s v k = .next (s.takeFault .notInit) := by simp [requireInit, h]

theorem requireRegion_of_fits {a : Addr} {l : BitVec 24} {k : StepOutcome} (h : a.toNat + l.toNat ≤ 2 ^ 32) :
    requireRegion s a l k = k := by
  unfold requireRegion
  rw [show regionFits (baseOf a) (lengthOf l) = true from decide_eq_true h, require_true]

theorem requireRegion_of_passes {a : Addr} {l : BitVec 24} {k : StepOutcome} (h : 2 ^ 32 < a.toNat + l.toNat) :
    requireRegion s a l k = .next (s.takeFault .badArg) := by
  unfold requireRegion
  rw [show regionFits (baseOf a) (lengthOf l) = false from decide_eq_false (by
    show ¬ a.toNat + l.toNat ≤ 2 ^ 32
    omega), require_false]

/-! ### What an outcome tells of the check -/

/-- Past the halt check the state is a refusal while halted, or the rest's while running. -/
theorem unlessHalted_eq_next {k : StepOutcome} :
    unlessHalted s k = .next t ↔
      (s.blk.halted = true ∧ t = s.refuseHalted) ∨ (s.blk.halted = false ∧ k = .next t) := by
  cases h : s.blk.halted <;> simp [unlessHalted, h, eq_comm]

/-- Past a check the state is the fault's, or the rest's. -/
theorem require_eq_next {c : FaultCode} {b : Bool} {k : StepOutcome} :
    require s c b k = .next t ↔ (b = false ∧ t = s.takeFault c) ∨ (b = true ∧ k = .next t) := by
  cases b <;> simp [require, eq_comm]

/-- A committed command: the private copy with its response, or a fault from the state before (R16). -/
theorem commit_eq_next {e : Execution} :
    commit s e = .next t ↔
      (∃ u rc d, e = .ok (u, rc, d) ∧ t = u.respond rc d) ∨
      (∃ c, e = .error (.raise c) ∧ t = s.takeFault c) := by
  rcases e with (c | f) | ⟨u, rc, d⟩ <;> simp [commit, eq_comm]

@[simp] theorem commit_ok {u : State} {rc : RCode} {d : Word} :
    commit s (.ok (u, rc, d)) = .next (u.respond rc d) := rfl

@[simp] theorem commit_raise {c : FaultCode} : commit s (.error (.raise c)) = .next (s.takeFault c) := rfl

/-! ### One step -/

theorem step_of_idle (h : s.moves = []) : step s = .next s := by simp [step, nextMove, h]

theorem step_of_command {cw : Word} {rest : List HostMove} (h : s.moves = .command cw :: rest) :
    step s = runWord cw { s with moves := rest } := by simp [step, nextMove, h]

theorem step_of_store {a : Addr} {b : Byte} {rest : List HostMove} (h : s.moves = .store a b :: rest) :
    step s = .next ({ s with moves := rest }.hostStore a b) := by simp [step, nextMove, h]

theorem step_of_reset {rest : List HostMove} (h : s.moves = .reset :: rest) :
    step s = .next { s with moves := rest }.applyReset := by simp [step, nextMove, h]

theorem runWord_of_ok {cw : Word} {i : Instr} (h : decode cw = .ok i) : runWord cw s = exec i s := by
  simp [runWord, h]

theorem runWord_of_error {cw : Word} {r : Rejection} (h : decode cw = .error r) :
    runWord cw s = .next s.rejectWord := by simp [runWord, h]

/-- The step that `withFetchWord` sets up runs the word it was given, from the state it was given. -/
theorem step_withFetchWord (nbits w : Nat) :
    step (s.withFetchWord nbits w) = runWord (BitVec.ofNat 64 (w % 2 ^ nbits)) s :=
  step_of_command rfl

end Sys2Proof.Machine
end

