-- ==== Sys2Proof/Laws/Decode.lean ====
section
/-! SUPPORT. The laws of the encoding: every field and every encoded word as a number, and what it takes for a
word to decode (R70 to R76, R81, R90). -/

namespace Sys2Proof

/-- The match value of an opcode as a number. -/
theorem opcMatch_toNat (o : BitVec 8) : (opcMatch o).toNat = o.toNat * 2 ^ 56 := by
  have := o.isLt
  simp [opcMatch, BitVec.toNat_shiftLeft, Nat.shiftLeft_eq]
  omega

/-- Two words side by side: the upper one a multiple of 2^p, the lower one below it. -/
theorem toNat_or_of_lt {x y : Word} {p : Nat} {a b : Nat} (hx : x.toNat = a * 2 ^ p) (hy : y.toNat = b) (hb
    : b < 2 ^ p) :
   (x ||| y).toNat = a * 2 ^ p + b := by
  rw [BitVec.toNat_or, hx, hy, Nat.mul_comm, ← Nat.two_pow_add_eq_or_of_lt hb]

/-- LEN at bit 32. -/
theorem toNat_lenPlaced (n : BitVec 24) : (n.setWidth 64 <<< 32 : Word).toNat = n.toNat * 2 ^ 32 := by
  have := n.isLt
  simp [BitVec.toNat_shiftLeft, Nat.shiftLeft_eq]; omega

/-- NB at bit 32. -/
theorem toNat_nbPlaced (n : BitVec 5) : (n.setWidth 64 <<< 32 : Word).toNat = n.toNat * 2 ^ 32 := by
  have := n.isLt
  simp [BitVec.toNat_shiftLeft, Nat.shiftLeft_eq]; omega

/-- A format A word as a number (R90). -/
theorem encodeA_toNat (o : BitVec 8) (a : Addr) (l : BitVec 24) :
    (encodeA o a l).toNat = o.toNat * 2 ^ 56 + l.toNat * 2 ^ 32 + a.toNat := by
  have := l.isLt; have := a.isLt
  rw [encodeA, BitVec.or_assoc,
      toNat_or_of_lt (p := 56) (a := o.toNat) (opcMatch_toNat o) (toNat_or_of_lt (toNat_lenPlaced l) (b := a.toNat) (by simp; omega) a.isLt) (by omega)]
  omega

/-- A format B word as a number (R90). -/
theorem encodeB_toNat (o : BitVec 8) (a : BitVec 32) (l : BitVec 5) :
    (encodeB o a l).toNat = o.toNat * 2 ^ 56 + l.toNat * 2 ^ 32 + a.toNat := by
  have := l.isLt; have := a.isLt
  rw [encodeB, BitVec.or_assoc,
      toNat_or_of_lt (p := 56) (a := o.toNat) (opcMatch_toNat o) (toNat_or_of_lt (toNat_nbPlaced l) (b := a.toNat) (by simp; omega) a.isLt) (by omega)]
  omega

/-- A format P word as a number (R90). -/
theorem encodeP_toNat (o : BitVec 8) (l : BitVec 5) :
    (encodeP o l).toNat = o.toNat * 2 ^ 56 + l.toNat * 2 ^ 32 := by
  have := l.isLt
  rw [encodeP, toNat_or_of_lt (p := 56) (a := o.toNat) (opcMatch_toNat o) (toNat_nbPlaced l) (by omega)]

/-- A format I word as a number (R90). -/
theorem encodeI_toNat (o : BitVec 8) (a : BitVec 32) :
    (encodeI o a).toNat = o.toNat * 2 ^ 56 + a.toNat := by
  have := a.isLt
  rw [encodeI, toNat_or_of_lt (p := 56) (a := o.toNat) (opcMatch_toNat o) (b := a.toNat) (by simp; omega) (by omega)]

/-- A format X word as a number (R90). -/
theorem encodeX_toNat (o : BitVec 8) (a : BitVec 8) :
    (encodeX o a).toNat = o.toNat * 2 ^ 56 + a.toNat := by
  have := a.isLt
  rw [encodeX, toNat_or_of_lt (p := 56) (a := o.toNat) (opcMatch_toNat o) (b := a.toNat) (by simp; omega) (by omega)]

/-- OPC as a quotient (R70). -/
theorem opcField_toNat (cw : Word) : (opcField cw).toNat = cw.toNat / 2 ^ 56 := by
  have := cw.isLt
  simp [opcField, Nat.shiftRight_eq_div_pow]; omega

/-- LEN as a number (R72). -/
theorem lenField_toNat (cw : Word) : (lenField cw).toNat = cw.toNat / 2 ^ 32 % 2 ^ 24 := by
  simp [lenField, Nat.shiftRight_eq_div_pow]

/-- NB as a number (R73, R74). -/
theorem nbField_toNat (cw : Word) : (nbField cw).toNat = cw.toNat / 2 ^ 32 % 2 ^ 5 := by
  simp [nbField, Nat.shiftRight_eq_div_pow]

/-- ADDR, VAL or IMM as a number (R72, R73, R75). -/
theorem lowField_toNat (cw : Word) : (lowField cw).toNat = cw.toNat % 2 ^ 32 := by
  simp [lowField]

/-- IDX as a number (R76). -/
theorem idxField_toNat (cw : Word) : (idxField cw).toNat = cw.toNat % 2 ^ 8 := by
  simp [idxField]

/-- A word under a mask that keeps the opcode equals the opcode alone exactly when the masked bits below bit 56 are 0. -/
theorem masked_eq_iff (cw m : Word) (hm : ∀ k, 56 ≤ k → k < 64 → m.getLsbD k = true) :
    cw &&& m = opcMatch (opcField cw) ↔ ∀ k < 56, m.getLsbD k = true → cw.getLsbD k = false := by
  constructor
  · intro h k hk hmk
    have := congrArg (fun x => x.getLsbD k) h
    simp only [BitVec.getLsbD_and, hmk, Bool.and_true, opcMatch, BitVec.getLsbD_shiftLeft, hk, decide_true,
        Bool.not_true, Bool.and_false, Bool.false_and] at this
    exact this
  · intro h
    refine BitVec.eq_of_getLsbD_eq fun k hk => ?_
    by_cases h56 : k < 56
    · by_cases hmk : m.getLsbD k = true
      · simp [opcMatch, h56, h k h56 hmk, hmk]
      · simp [opcMatch, h56, hmk]
    · have h8 : k - 56 < 8 := by omega
      have hs : 56 + (k - 56) = k := by omega
      simp [opcMatch, opcField, h56, hm k (by omega) hk, hk, h8, hs]

/-- A field is 0 exactly when each of its bits is. -/
theorem bits_zero_iff (cw : Word) (p n : Nat) :
    cw.toNat / 2 ^ p % 2 ^ n = 0 ↔ ∀ k < n, cw.getLsbD (p + k) = false := by
  have : cw.toNat / 2 ^ p % 2 ^ n = (cw.extractLsb' p n).toNat := by simp [Nat.shiftRight_eq_div_pow]
  rw [this]
  constructor
  · intro h k hk
    have h0 : cw.extractLsb' p n = 0#n := BitVec.eq_of_toNat_eq (by simpa using h)
    have := congrArg (fun x => x.getLsbD k) h0
    simpa [hk] using this
  · intro h
    have : cw.extractLsb' p n = 0#n := BitVec.eq_of_getLsbD_eq fun k hk => by simp [hk, h k hk]
    rw [this]; rfl

/-- The reserved-must-be-zero bits of a format are 0 (R71 to R76). -/
def Format.reservedZero (f : Format) (cw : Word) : Prop := match f with
  | .n => cw.toNat % 2 ^ 56 = 0
  | .a => True
  | .b => cw.toNat / 2 ^ 37 % 2 ^ 19 = 0
  | .p => cw.toNat / 2 ^ 37 % 2 ^ 19 = 0 ∧ cw.toNat % 2 ^ 32 = 0
  | .i => cw.toNat / 2 ^ 32 % 2 ^ 24 = 0
  | .x => cw.toNat / 2 ^ 8 % 2 ^ 48 = 0

/-- The test of R81 on a word's own opcode is the test of its reserved bits (R85). -/
theorem masked_eq_iff_reservedZero (f : Format)
    (cw : Word) : cw &&& f.mask = opcMatch (opcField cw) ↔ Format.reservedZero f cw := by
  rw [masked_eq_iff cw f.mask (by cases f <;> decide)]
  have mb : ∀ k < 56, f.mask.getLsbD k = match f with
     | .n => true | .a => false | .b => decide (37 ≤ k) | .p => decide (37 ≤ k) || decide (k < 32) | .i => decide (32 ≤ k) | .x => decide (8 ≤ k) := by
    cases f <;> decide
  have e0 := bits_zero_iff cw 0 56
  have e1 := bits_zero_iff cw 37 19
  have e2 := bits_zero_iff cw 0 32
  have e3 := bits_zero_iff cw 32 24
  have e4 := bits_zero_iff cw 8 48
  simp only [Nat.pow_zero, Nat.div_one, Nat.zero_add] at e0 e2
  cases f <;> simp only [Format.reservedZero]
  · rw [e0]; exact ⟨fun h k hk => h k hk (by rw [mb k hk]), fun h k hk _ => h k hk⟩
  · simp only [iff_true]; intro k hk h; rw [mb k hk] at h; cases h
  · rw [e1]
    constructor
    · intro h k hk; exact h _ (by omega) (by rw [mb _ (by omega)]; simp)
    · intro h k hk hm; rw [mb k hk] at hm; simp at hm
      have := h (k - 37) (by omega); rwa [show 37 + (k-37) = k by omega] at this
  · rw [e1, e2]
    constructor
    · intro h; exact ⟨fun k hk => h _ (by omega) (by rw [mb _ (by omega)]; simp),
        fun k hk => h _ (by omega) (by rw [mb _ (by omega)]; simp [hk])⟩
    · rintro ⟨h, h'⟩ k hk hm; rw [mb k hk] at hm; simp at hm
      rcases hm with hm | hm
      · have := h (k - 37) (by omega); rwa [show 37 + (k-37) = k by omega] at this
      · exact h' k hm
  · rw [e3]
    constructor
    · intro h k hk; exact h _ (by omega) (by rw [mb _ (by omega)]; simp)
    · intro h k hk hm; rw [mb k hk] at hm; simp at hm
      have := h (k - 32) (by omega); rwa [show 32 + (k-32) = k by omega] at this
  · rw [e4]
    constructor
    · intro h k hk; exact h _ (by omega) (by rw [mb _ (by omega)]; simp)
    · intro h k hk hm; rw [mb k hk] at hm; simp at hm
      have := h (k - 8) (by omega); rwa [show 8 + (k-8) = k by omega] at this

/-- A word matches a row exactly when it has the row's opcode and its reserved bits are 0 (R81). -/
theorem matches_row_iff (f : Format) (o : BitVec 8) (cw : Word) :
    cw &&& f.mask = opcMatch o ↔ opcField cw = o ∧ Format.reservedZero f cw := by
  rw [← masked_eq_iff_reservedZero]
  constructor
  · intro h
    have : opcField cw = o := by
      have hh := congrArg (fun x => x.toNat / 2 ^ 56) h
      refine BitVec.eq_of_toNat_eq ?_
      have h1 : (cw &&& f.mask).toNat / 2 ^ 56 = cw.toNat / 2 ^ 56 := by
        rw [← opcField_toNat, ← opcField_toNat]
        congr 1
        unfold opcField
        refine BitVec.eq_of_getLsbD_eq fun k hk => ?_
        have : f.mask.getLsbD (56 + k) = true := by
          have : ∀ k < 8, f.mask.getLsbD (56 + k) = true := by cases f <;> decide
          exact this k hk
        simp [hk, this]
      simp only [opcMatch_toNat] at hh
      rw [h1] at hh
      rw [opcField_toNat, hh]; omega
    exact ⟨this, by rw [this]; exact h⟩
  · rintro ⟨rfl, h⟩; exact h

/-- Everything a decoding that succeeds says: the opcode's row, zero reserved bits, and the row's command. -/
theorem decode_ok_iff {cw : Word} {i : Instr} :
    decode cw = .ok i ↔ ∃ r, opcodeRow (opcField cw) = some r ∧ Format.reservedZero r.format cw ∧
        r.command cw = i := by
  unfold decode
  cases h : opcodeRow (opcField cw) with
  | none => simp
  | some r =>
    have ho : r.opc = opcField cw := by
      have := List.find?_some h
      simpa using this
    simp only [Option.some.injEq, exists_eq_left']
    by_cases hr : Format.reservedZero r.format cw
    · simp [if_pos ((matches_row_iff r.format r.opc cw).mpr ⟨ho.symm, hr⟩), hr]
    · simp [if_neg (mt (matches_row_iff r.format r.opc cw).mp (by simp [hr])), hr]

end Sys2Proof
end

