-- ==== Sys2Proof/Laws/Memory.lean ====
section
/-! SUPPORT. The laws of MEM: reading after writing, the canonical form, and big-endian words (R52). -/

namespace Sys2Proof.Machine

/-! ### One byte -/

@[simp] theorem readByte_nil (a : Nat) : readByte [] a = unlistedByte := rfl

theorem readByte_cons (k : Nat) (c : Byte) (m : Memory) (a : Nat) :
    readByte ((k, c) :: m) a = if k = a then c else readByte m a := rfl

/-- An address below every listed one reads as an unlisted byte. -/
theorem readByte_of_above {m : Memory} {k a : Nat} (h : Memory.above k m) (ha : a ≤ k) :
    readByte m a = unlistedByte := by
  induction m with
  | nil => rfl
  | cons c m ih =>
    have hc : k < c.1 := h c (by simp)
    rw [readByte_cons, if_neg (by omega)]
    exact ih fun d hd => h d (by simp [hd])

theorem Memory.wf_cons {k : Nat} {c : Byte} {m : Memory} :
    Memory.wf ((k, c) :: m) = true ↔
      k < memSize ∧ c ≠ unlistedByte ∧ Memory.above k m ∧ Memory.wf m = true := by
  simp only [Memory.wf, Bool.and_eq_true, decide_eq_true_eq]
  tauto

theorem Memory.wf_tail {x : Host.Cell} {m : Memory} (h : Memory.wf (x :: m) = true) :
    Memory.wf m = true := (Memory.wf_cons.mp h).2.2.2

/-- Every listed address is above the bound when the written address and every earlier one is. -/
theorem above_writeByte {m : Memory} {k a : Nat} {b : Byte} (h : Memory.above k m) (ha : k < a) :
    Memory.above k (writeByte m a b) := by
  induction m with
  | nil => simp only [writeByte, consByte]; split <;> simp [ha]
  | cons c m ih =>
    obtain ⟨j, d⟩ := c
    have hj : k < j := h (j, d) (by simp)
    have hm : Memory.above k m := fun e he => h e (by simp [he])
    simp only [writeByte, consByte]
    split
    · split
      · exact h
      · intro e he
        rcases List.mem_cons.mp he with rfl | he
        exacts [ha, h e he]
    · split
      · split
        · exact hm
        · intro e he
          rcases List.mem_cons.mp he with rfl | he
          exacts [ha, hm e he]
      · intro e he
        rcases List.mem_cons.mp he with rfl | he
        exacts [hj, ih hm e he]

theorem above_of_above {m : Memory} {j k : Nat} (h : Memory.above k m) (hj : j ≤ k) : Memory.above j m :=
  fun c hc => Nat.lt_of_le_of_lt hj (h c hc)

/-- Every write keeps the canonical form. -/
theorem wf_writeByte {m : Memory} {a : Nat} {b : Byte} (h : Memory.wf m = true) (ha : a < memSize) :
    Memory.wf (writeByte m a b) = true := by
  induction m with
  | nil =>
    simp only [writeByte, consByte]
    split
    · rfl
    · exact Memory.wf_cons.mpr ⟨ha, ‹_›, by simp, rfl⟩
  | cons c m ih =>
    obtain ⟨k, d⟩ := c
    obtain ⟨hk, hd, hab, hm⟩ := Memory.wf_cons.mp h
    simp only [writeByte, consByte]
    split
    · split
      · exact h
      · refine Memory.wf_cons.mpr ⟨ha, ‹_›, ?_, h⟩
        intro e he
        rcases List.mem_cons.mp he with rfl | he
        exacts [‹a < k›, Nat.lt_trans ‹a < k› (hab e he)]
    · split
      · split
        · exact hm
        · subst a
          exact Memory.wf_cons.mpr ⟨hk, ‹_›, hab, hm⟩
      · exact Memory.wf_cons.mpr ⟨hk, hd, above_writeByte hab (by omega), ih hm⟩

/-- A write changes the byte at its address and no other. -/
theorem readByte_writeByte {m : Memory} (h : Memory.wf m = true) (a x : Nat) (b : Byte) :
    readByte (writeByte m a b) x = if x = a then b else readByte m x := by
  induction m with
  | nil =>
    simp only [writeByte, consByte]
    split
    · split <;> simp_all
    · simp only [readByte_cons, readByte_nil]
      split <;> split <;> simp_all
  | cons c m ih =>
    obtain ⟨k, d⟩ := c
    obtain ⟨-, -, hab, hm⟩ := Memory.wf_cons.mp h
    simp only [writeByte, consByte]
    split
    · split
      · split
        · subst x
          rw [readByte_cons, if_neg (by omega), readByte_of_above hab (by omega)]
          exact (‹b = unlistedByte›).symm
        · rfl
      · simp only [readByte_cons (k := a)]
        split <;> split <;> first | rfl | omega
    · split
      · subst a
        split
        · split
          · subst x
            rw [readByte_of_above hab (by omega)]
            exact (‹b = unlistedByte›).symm
          · rw [readByte_cons, if_neg (by omega)]
        · simp only [readByte_cons]
          split <;> split <;> first | rfl | omega
      · simp only [readByte_cons, ih hm]
        split <;> split <;> first | rfl | omega

@[simp] theorem readByte_writeByte_same {m : Memory} (h : Memory.wf m = true) (a : Nat) (b : Byte) :
    readByte (writeByte m a b) a = b := by rw [readByte_writeByte h, if_pos rfl]

theorem readByte_writeByte_other {m : Memory} (h : Memory.wf m = true) {a x : Nat} (b : Byte) (hx : x ≠ a) :
    readByte (writeByte m a b) x = readByte m x := by rw [readByte_writeByte h, if_neg hx]

/-- The canonical form is canonical: equal bytes everywhere make equal memories. -/
theorem Memory.eq_of_readByte {m n : Memory} (hm : Memory.wf m = true) (hn : Memory.wf n = true)
    (h : ∀ a, readByte m a = readByte n a) : m = n := by
  induction m generalizing n with
  | nil =>
    cases n with
    | nil => rfl
    | cons c n =>
      obtain ⟨k, d⟩ := c
      have hd := (Memory.wf_cons.mp hn).2.1
      have := h k
      simp only [readByte_nil, readByte_cons, if_true] at this
      exact absurd this.symm hd
  | cons c m ih =>
    obtain ⟨k, d⟩ := c
    obtain ⟨-, hd, hab, hwm⟩ := Memory.wf_cons.mp hm
    cases n with
    | nil =>
      have := h k
      simp only [readByte_nil, readByte_cons, if_true] at this
      exact absurd this hd
    | cons e n =>
      obtain ⟨j, f⟩ := e
      obtain ⟨-, hf, habn, hwn⟩ := Memory.wf_cons.mp hn
      have hkj : k = j := by
        rcases Nat.lt_trichotomy k j with hlt | heq | hgt
        · have := h k
          rw [readByte_cons, if_pos rfl, readByte_cons, if_neg (by omega),
            readByte_of_above habn (by omega)] at this
          exact absurd this hd
        · exact heq
        · have := h j
          rw [readByte_cons, if_neg (by omega), readByte_cons, if_pos rfl,
            readByte_of_above hab (by omega)] at this
          exact absurd this.symm hf
      subst hkj
      have hdf : d = f := by simpa [readByte_cons] using h k
      subst hdf
      congr 1
      refine ih hwm hwn fun a => ?_
      by_cases ha : k = a
      · subst ha
        rw [readByte_of_above hab (le_refl _), readByte_of_above habn (le_refl _)]
      · simpa [readByte_cons, ha] using h a

/-! ### Big-endian words -/

@[simp] theorem memRead_zero (m : Memory) (a : Nat) : memRead m a 0 = 0 := rfl

theorem memRead_succ (m : Memory) (a n : Nat) :
    memRead m a (n + 1) = memRead m a n * 256 + (readByte m (a + n)).toNat := rfl

/-- n bytes read as a number below 2^(8n). -/
theorem memRead_lt (m : Memory) (a n : Nat) : memRead m a n < 2 ^ (8 * n) := by
  induction n with
  | zero => simp
  | succ n ih =>
    have hb := (readByte m (a + n)).isLt
    have hp : 2 ^ (8 * (n + 1)) = 2 ^ (8 * n) * 256 := by rw [Nat.mul_add, Nat.pow_add]
    rw [memRead_succ, hp]
    omega

/-- A read depends on its own bytes only. -/
theorem memRead_congr {m m' : Memory} {a n : Nat} (h : ∀ i < n, readByte m (a + i) = readByte m' (a + i)) :
    memRead m a n = memRead m' a n := by
  induction n with
  | zero => rfl
  | succ n ih => rw [memRead_succ, memRead_succ, ih fun i hi => h i (by omega), h n (by omega)]

/-- A read of two adjacent pieces, the first the more significant. -/
theorem memRead_add (m : Memory) (a p q : Nat) :
    memRead m a (p + q) = memRead m a p * 2 ^ (8 * q) + memRead m (a + p) q := by
  induction q with
  | zero => simp
  | succ q ih =>
    have hp : 2 ^ (8 * (q + 1)) = 2 ^ (8 * q) * 256 := by rw [Nat.mul_add, Nat.pow_add]
    rw [← Nat.add_assoc, memRead_succ, ih, memRead_succ, hp, Nat.add_assoc a p q]
    ring

theorem wf_memWrite {m : Memory} {a n v : Nat} (h : Memory.wf m = true) (ha : a + n ≤ memSize) :
    Memory.wf (memWrite m a n v) = true := by
  induction n generalizing v with
  | zero => exact h
  | succ n ih => exact wf_writeByte (ih (by omega)) (by omega)

/-- What a MemWrite leaves at each address: the bytes of the value inside the region, the old byte outside. -/
theorem readByte_memWrite {m : Memory} {a n : Nat} (h : Memory.wf m = true) (ha : a + n ≤ memSize) (v x : Nat) :
    readByte (memWrite m a n v) x =
      if a ≤ x ∧ x < a + n then BitVec.ofNat 8 (v / 2 ^ (8 * (a + n - 1 - x))) else readByte m x := by
  induction n generalizing v with
  | zero => rw [if_neg (by omega)]; rfl
  | succ n ih =>
    rw [memWrite, readByte_writeByte (wf_memWrite h (by omega)), ih (by omega)]
    by_cases hx : x = a + n
    · subst hx
      rw [if_pos rfl, if_pos (by omega)]
      simp
    · rw [if_neg hx]
      by_cases hin : a ≤ x ∧ x < a + n
      · rw [if_pos hin, if_pos (by omega), Nat.div_div_eq_div_mul]
        congr 2
        rw [show (256 : Nat) = 2 ^ 8 from rfl, ← Nat.pow_add]
        congr 1
        omega
      · rw [if_neg hin, if_neg (by omega)]

/-- A MemWrite leaves every byte outside its region. -/
theorem readByte_memWrite_outside {m : Memory} {a n v x : Nat} (h : Memory.wf m = true)
    (ha : a + n ≤ memSize) (hx : x < a ∨ a + n ≤ x) : readByte (memWrite m a n v) x = readByte m x := by
  rw [readByte_memWrite h ha, if_neg (by omega)]

/-- A read of what was just written, over the same region. -/
theorem memRead_memWrite {m : Memory} {a n : Nat} (h : Memory.wf m = true) (ha : a + n ≤ memSize) (v : Nat) :
    memRead (memWrite m a n v) a n = v % 2 ^ (8 * n) := by
  induction n generalizing v with
  | zero => simp [Nat.mod_one]
  | succ n ih =>
    have hw := wf_memWrite (v := v / 256) h (show a + n ≤ memSize by omega)
    rw [memRead_succ, memWrite, readByte_writeByte_same hw,
      memRead_congr (m' := memWrite m a n (v / 256))
        (fun i hi => readByte_writeByte_other hw _ (by omega)),
      ih (by omega), BitVec.toNat_ofNat, show 2 ^ (8 * (n + 1)) = 256 * 2 ^ (8 * n) by
        rw [Nat.mul_add, Nat.pow_add]; ring, Nat.mod_mul]
    omega

/-! ### The bounded accesses -/

/-- A bounded read answers exactly the read, and only inside MEM. -/
theorem boundedRead_eq_ok {m : Memory} {a n v : Nat} :
    boundedRead m a n = .ok v ↔ a + n ≤ memSize ∧ v = memRead m a n := by
  unfold boundedRead
  split <;> simp_all [eq_comm]

/-- A bounded write answers exactly the write, and only inside MEM. -/
theorem boundedWrite_eq_ok {m m' : Memory} {a n v : Nat} :
    boundedWrite m a n v = .ok m' ↔ a + n ≤ memSize ∧ m' = memWrite m a n v := by
  unfold boundedWrite
  split <;> simp_all [eq_comm]

theorem boundedRead_of_fits {m : Memory} {a n : Nat} (h : a + n ≤ memSize) :
    boundedRead m a n = .ok (memRead m a n) := if_pos h

theorem boundedWrite_of_fits {m : Memory} {a n v : Nat} (h : a + n ≤ memSize) :
    boundedWrite m a n v = .ok (memWrite m a n v) := if_pos h

end Sys2Proof.Machine
end

