-- ==== Sys2Proof/Laws/Engines.lean ====
section
/-! SUPPORT. What the procedures of the two engines can do, said once: Flush (R101), Put (R102), Reload
(R121), and the executions of the commands built from them. -/

namespace Sys2Proof.Machine

variable {s t : State}

/-! ### Widths -/

theorem wordBits_eq (w : WordWidth) : w.bits = 8 * w.bytes := by cases w <;> rfl

theorem wordBytes_range (w : WordWidth) : 4 ≤ w.bytes ∧ w.bytes ≤ 8 := by cases w <;> decide

theorem wordBits_range (w : WordWidth) : 32 ≤ w.bits ∧ w.bits ≤ 64 := by cases w <;> decide

@[simp] theorem toNat_narrowBitoff {v : Nat} (h : v < 128) : (narrowBitoff v).toNat = v := by
  simp [narrowBitoff]; omega

@[simp] theorem toNat_narrowAddr {v : Nat} (h : v < 2 ^ 32) : (narrowAddr v).toNat = v := by
  simp [narrowAddr]; omega

@[simp] theorem narrowAddr_toNat (a : Addr) : narrowAddr a.toNat = a := by simp [narrowAddr]

/-- A WORD register holds the value modulo 2^W (R14). -/
theorem toNat_narrowWord (w : WordWidth) (v : Nat) : (narrowWord w v).toNat = v % 2 ^ w.bits := by
  have h : v % 2 ^ w.bits < 2 ^ 64 :=
    Nat.lt_of_lt_of_le (Nat.mod_lt _ (by positivity)) (Nat.pow_le_pow_right (by omega) (wordBits_range w).2)
  rw [narrowWord, BitVec.toNat_ofNat, Nat.mod_eq_of_lt h]

theorem lowBits_eq_mod (v n : Nat) : lowBits v n = v % 2 ^ n := Nat.and_two_pow_sub_one_eq_mod v n

/-- `shl_W` is the shift modulo 2^W, a shift by W or more included (D10). -/
theorem shiftLeftW_eq (w : WordWidth) (v n : Nat) : shiftLeftW w v n = v * 2 ^ n % 2 ^ w.bits := by
  unfold shiftLeftW
  split
  · rfl
  · have hn : n = w.bits + (n - w.bits) := by omega
    rw [hn, Nat.pow_add, Nat.mul_left_comm, Nat.mul_mod_right]

/-! ### The write engine -/

/-- The number of filled bytes, as a quotient. -/
theorem filledBytes_eq (s : State) : filledBytes s = (s.width.bits - s.we.bitoff.toNat) / 8 := rfl

/-- A flush answers exactly one state: the register stored at the cursor, and the engine moved on. -/
theorem flush_eq_ok :
    flush s = .ok t ↔
      s.we.cursor.toNat + s.width.bytes ≤ memSize ∧
      t = { s with
        mem := memWrite s.mem s.we.cursor.toNat s.width.bytes s.we.word.toNat
        we := flushedEngine s } := by
  unfold flush
  cases h : boundedWrite s.mem s.we.cursor.toNat s.width.bytes s.we.word.toNat with
  | error e =>
    simp only [reduceCtorEq, false_iff, not_and]
    intro hc
    rw [boundedWrite_of_fits hc] at h
    cases h
  | ok m =>
    obtain ⟨hc, rfl⟩ := boundedWrite_eq_ok.mp h
    simp [hc, eq_comm]

theorem flush_of_fits (h : s.we.cursor.toNat + s.width.bytes ≤ memSize) :
    flush s = .ok { s with
      mem := memWrite s.mem s.we.cursor.toNat s.width.bytes s.we.word.toNat
      we := flushedEngine s } := flush_eq_ok.mpr ⟨h, rfl⟩

/-- A flush never raises a block fault. -/
theorem flush_ne_raise {c : FaultCode} : flush s ≠ .error (.raise c) := by
  unfold flush boundedWrite
  intro h
  split at h <;> rename_i hb <;> split at hb <;> cases hb <;> cases h

/-- The bits pending after a flush: those of the partial byte (R210). -/
theorem flushedEngine_bitoff (h : s.we.bitoff.toNat ≤ s.width.bits) :
    (flushedEngine s).bitoff.toNat = s.width.bits - (s.width.bits - s.we.bitoff.toNat) % 8 := by
  have hw := wordBits_range s.width
  show (narrowBitoff (s.we.bitoff.toNat + 8 * filledBytes s)).toNat = _
  rw [filledBytes_eq, toNat_narrowBitoff (by omega)]
  omega

/-- The cursor after a flush (R101). -/
theorem flushedEngine_cursor :
    (flushedEngine s).cursor.toNat =
      min (s.we.cursor.toNat + (s.width.bits - s.we.bitoff.toNat) / 8) s.we.bufEnd.toNat := by
  have := s.we.bufEnd.isLt
  show (narrowAddr (min (s.we.cursor.toNat + filledBytes s) s.we.bufEnd.toNat)).toNat = _
  rw [filledBytes_eq, toNat_narrowAddr (by omega)]

/-- The register after a flush (R101). -/
theorem flushedEngine_word :
    (flushedEngine s).word.toNat =
      s.we.word.toNat * 2 ^ (8 * ((s.width.bits - s.we.bitoff.toNat) / 8)) % 2 ^ s.width.bits := by
  show (narrowWord _ (shiftLeftW _ _ (8 * filledBytes s))).toNat = _
  rw [toNat_narrowWord, shiftLeftW_eq, Nat.mod_mod, filledBytes_eq]

/-- The free-bit count after appending (R102). -/
theorem appendBits_bitoff (v n : Nat) : (appendBits s v n).we.bitoff.toNat = s.we.bitoff.toNat - n := by
  have := s.we.bitoff.isLt
  exact toNat_narrowBitoff (by omega)

/-- Appending n bits that fit adds them just below the bits held, because the free bits are 0 (R24). -/
theorem appendBits_word {v n : Nat} (hok : s.we.ok s.width) (hn : n ≤ s.we.bitoff.toNat) :
    (appendBits s v n).we.word.toNat =
      s.we.word.toNat + v % 2 ^ n * 2 ^ (s.we.bitoff.toNat - n) := by
  obtain ⟨hw, hb, hz, -⟩ := hok
  generalize hbo : s.we.bitoff.toNat = b at *
  have hpn : (0 : Nat) < 2 ^ n := by positivity
  have hpb : (0 : Nat) < 2 ^ (b - n) := by positivity
  have hsplit : (2 : Nat) ^ b = 2 ^ n * 2 ^ (b - n) := by rw [← Nat.pow_add]; congr 1; omega
  have hsmall : v % 2 ^ n * 2 ^ (b - n) < 2 ^ b := by
    rw [hsplit]; exact Nat.mul_lt_mul_of_pos_right (Nat.mod_lt _ hpn) hpb
  have hle : (2 : Nat) ^ b ≤ 2 ^ s.width.bits := Nat.pow_le_pow_right (by omega) hb
  have hdvd : 2 ^ b * (s.we.word.toNat / 2 ^ b) = s.we.word.toNat := by
    have := Nat.div_add_mod s.we.word.toNat (2 ^ b); omega
  have hor : s.we.word.toNat ||| v % 2 ^ n * 2 ^ (b - n) = s.we.word.toNat + v % 2 ^ n * 2 ^ (b - n) := by
    rw [← hdvd]; exact (Nat.two_pow_add_eq_or_of_lt hsmall _).symm
  have hlt : s.we.word.toNat ||| v % 2 ^ n * 2 ^ (b - n) < 2 ^ s.width.bits :=
    Nat.or_lt_two_pow hw (Nat.lt_of_lt_of_le hsmall hle)
  show (narrowWord s.width (s.we.word.toNat ||| shiftLeftW s.width (lowBits v n) (s.we.bitoff.toNat - n))).toNat = _
  rw [toNat_narrowWord, shiftLeftW_eq, lowBits_eq_mod, hbo, Nat.mod_eq_of_lt (Nat.lt_of_lt_of_le hsmall hle),
    Nat.mod_eq_of_lt hlt, hor]

/-- Put appends at once when the bits fit. -/
theorem put_of_room {v n : Nat} (h : n ≤ s.we.bitoff.toNat) : put s v n = .ok (appendBits s v n) := by
  simp [put, makeRoom, Nat.not_lt.mpr h]

/-- Put after its flush: SPACE when the bits still do not fit, and the append otherwise. -/
theorem put_of_flush {v n : Nat} (h : s.we.bitoff.toNat < n) (hf : flush s = .ok t) :
    put s v n = if t.we.bitoff.toNat < n then .error (.raise .space) else .ok (appendBits t v n) := by
  simp [put, makeRoom, h, hf]

/-- Everything a Put that succeeds can do. -/
theorem put_eq_ok {v n : Nat} :
    put s v n = .ok t ↔
      (n ≤ s.we.bitoff.toNat ∧ t = appendBits s v n) ∨
      (s.we.bitoff.toNat < n ∧ ∃ u, flush s = .ok u ∧ n ≤ u.we.bitoff.toNat ∧ t = appendBits u v n) := by
  by_cases h : s.we.bitoff.toNat < n
  · have hr : makeRoom s n = flush s := if_pos h
    unfold put
    rw [hr]
    cases hf : flush s with
    | error e => simp; omega
    | ok u =>
      by_cases hu : u.we.bitoff.toNat < n
      · simp only [hu, if_true, reduceCtorEq, Except.ok.injEq, exists_eq_left', false_iff, not_or, not_and]
        exact ⟨fun _ => by omega, fun _ _ => by omega⟩
      · simp only [hu, if_false, Except.ok.injEq, exists_eq_left', h, true_and]
        constructor
        · rintro rfl; exact .inr ⟨Nat.not_lt.mp hu, rfl⟩
        · rintro (⟨hn, -⟩ | ⟨-, rfl⟩)
          exacts [absurd h (by omega), rfl]
  · simp only [put_of_room (Nat.not_lt.mp h), Except.ok.injEq, h, false_and, or_false]
    constructor
    · rintro rfl; exact ⟨Nat.not_lt.mp h, rfl⟩
    · rintro ⟨-, rfl⟩; rfl

/-- The one block fault a Put can raise. -/
theorem put_eq_raise {v n : Nat} {c : FaultCode} :
    put s v n = .error (.raise c) ↔
      c = .space ∧ s.we.bitoff.toNat < n ∧ ∃ u, flush s = .ok u ∧ u.we.bitoff.toNat < n := by
  by_cases h : s.we.bitoff.toNat < n
  · have hr : makeRoom s n = flush s := if_pos h
    unfold put
    rw [hr]
    cases hf : flush s with
    | error e =>
      have := fun c => hf ▸ flush_ne_raise (s := s) (c := c)
      cases e <;> simp_all
    | ok u => by_cases hu : u.we.bitoff.toNat < n <;> simp [h, hu, eq_comm]
  · simp [put_of_room (Nat.not_lt.mp h), h]

/-! ### The read engine -/

/-- Consuming lowers the count of available bits (R124). -/
theorem consumeBits_bitoff (n : Nat) : (consumeBits s n).re.bitoff.toNat = s.re.bitoff.toNat - n := by
  have := s.re.bitoff.isLt
  exact toNat_narrowBitoff (by omega)

/-- Peek as a quotient and a remainder (R122). -/
theorem peekBits_eq (n : Nat) :
    peekBits s n = s.re.word.toNat / 2 ^ (s.re.bitoff.toNat - n) % 2 ^ n := by
  rw [peekBits, lowBits_eq_mod, shiftRight]

theorem peekBits_lt {n : Nat} (h : n ≤ 26) : peekBits s n < 2 ^ 64 := by
  rw [peekBits_eq]
  exact Nat.lt_of_lt_of_le (Nat.mod_lt _ (by positivity)) (Nat.pow_le_pow_right (by omega) (by omega))

/-- The address of the next load, as a quotient. -/
theorem reloadAddr_eq (s : State) :
    reloadAddr s = s.re.cursor.toNat + (s.width.bits - s.re.bitoff.toNat) / 8 := rfl

/-- Case 2 of a reload: no state change. -/
theorem reload_at_end (h : s.re.cursor = s.re.bufEnd) :
    reload s = .ok (s, if 0 < s.re.bitoff.toNat then .endOfBuffer else .complete) := if_pos h

/-- Case 1 of a reload: a full word. -/
theorem reload_full (h : s.re.cursor ≠ s.re.bufEnd) (hc : reloadAddr s ≤ s.re.bufEnd.toNat)
    (hf : s.re.bufEnd.toNat + s.width.bytes ≤ memSize) :
    reload s = .ok ({ s with re := { s.re with
      cursor := narrowAddr (reloadAddr s)
      word := narrowWord s.width (memRead s.mem (reloadAddr s) s.width.bytes)
      bitoff := narrowBitoff (s.width.bits - consumedBits s % 8) } }, .incomplete) := by
  rw [reload, if_neg h, if_pos hc, reloadFull, boundedRead_of_fits (by omega)]

/-- Case 3 of a reload: the tail. -/
theorem reload_tail (h : s.re.cursor ≠ s.re.bufEnd) (hc : s.re.bufEnd.toNat < reloadAddr s)
    (hle : reloadAddr s ≤ s.re.bufEnd.toNat + s.width.bytes)
    (hf : s.re.bufEnd.toNat + s.width.bytes ≤ memSize) :
    reload s = .ok ({ s with re := { s.re with
      cursor := s.re.bufEnd
      word := narrowWord s.width
        (memRead s.mem (reloadAddr s) (s.re.bufEnd.toNat + s.width.bytes - reloadAddr s))
      bitoff := narrowBitoff
        (8 * (s.re.bufEnd.toNat + s.width.bytes - reloadAddr s) - consumedBits s % 8) } }, .endOfBuffer) := by
  rw [reload, if_neg h, if_neg (by omega), reloadTail]
  simp only [boundedRead_of_fits (show reloadAddr s + (s.re.bufEnd.toNat + s.width.bytes - reloadAddr s) ≤ memSize by omega)]

/-- A reload changes the cursor, the word and the bit count of the read engine, and nothing else. -/
theorem reload_frame {st : ReloadStatus} (h : reload s = .ok (t, st)) :
    t = { s with re := { s.re with cursor := t.re.cursor, word := t.re.word, bitoff := t.re.bitoff } } := by
  unfold reload reloadFull reloadTail at h
  split at h
  · cases h; rfl
  · split at h
    · split at h
      · cases h
      · cases h; rfl
    · simp only at h
      split at h
      · cases h
      · cases h; rfl

/-- A recorded reload is a reload that also writes RE.RSTAT. -/
theorem reloadRecorded_eq_ok {st : ReloadStatus} :
    reloadRecorded s = .ok (t, st) ↔
      ∃ u, reload s = .ok (u, st) ∧ t = { u with re := { u.re with rstat := st } } := by
  unfold reloadRecorded
  rcases reload s with e | ⟨u, st'⟩
  · simp
  · simp only [Except.ok.injEq, Prod.mk.injEq]
    constructor
    · rintro ⟨rfl, rfl⟩; exact ⟨u, ⟨rfl, rfl⟩, rfl⟩
    · rintro ⟨_, ⟨rfl, rfl⟩, rfl⟩; exact ⟨rfl, rfl⟩

/-- A recorded reload changes four registers of the read engine and nothing else. -/
theorem reloadRecorded_frame {st : ReloadStatus} (h : reloadRecorded s = .ok (t, st)) :
    t = { s with re := { s.re with
      cursor := t.re.cursor, word := t.re.word, bitoff := t.re.bitoff, rstat := t.re.rstat } } := by
  obtain ⟨u, hu, rfl⟩ := reloadRecorded_eq_ok.mp h
  have := reload_frame hu
  rw [this]

/-- A reload never raises a block fault. -/
theorem reload_ne_raise {c : FaultCode} : reload s ≠ .error (.raise c) := by
  unfold reload reloadFull reloadTail boundedRead
  intro h
  split at h
  · cases h
  · split at h
    · split at h <;> rename_i hb <;> split at hb <;> simp_all
    · simp only at h
      split at h <;> rename_i hb <;> split at hb <;> simp_all

theorem reloadRecorded_ne_raise {c : FaultCode} : reloadRecorded s ≠ .error (.raise c) := by
  unfold reloadRecorded
  have := reload_ne_raise (s := s) (c := c)
  split <;> simp_all

theorem refill_of_enough {n : Nat} (h : n ≤ s.re.bitoff.toNat) : refill s n = .ok s := if_neg (by omega)

/-- RE_READ's reload, when it happens. -/
theorem refill_eq_ok_of_short {n : Nat} (h : s.re.bitoff.toNat < n) :
    refill s n = .ok t ↔ ∃ st, reloadRecorded s = .ok (t, st) := by
  unfold refill
  rw [if_pos h]
  rcases reloadRecorded s with e | ⟨u, st⟩
  · simp
  · simp

theorem refill_ne_raise {n : Nat} {c : FaultCode} : refill s n ≠ .error (.raise c) := by
  unfold refill
  have := reloadRecorded_ne_raise (s := s) (c := c)
  split
  · split <;> simp_all
  · simp

/-- RE_READ's reload changes four registers of the read engine and nothing else. -/
theorem refill_frame {n : Nat} (h : refill s n = .ok t) :
    t = { s with re := { s.re with
      cursor := t.re.cursor, word := t.re.word, bitoff := t.re.bitoff, rstat := t.re.rstat } } := by
  by_cases hn : s.re.bitoff.toNat < n
  · obtain ⟨st, hst⟩ := (refill_eq_ok_of_short hn).mp h
    exact reloadRecorded_frame hst
  · rw [refill_of_enough (Nat.not_lt.mp hn)] at h
    cases h; rfl

/-! ### The executions -/

/-- A write that succeeds responds OK from the state its Put left. -/
theorem runWeWrite_eq_ok {v n : Nat} {rc : RCode} {d : Word} :
    runWeWrite s v n = .ok (t, rc, d) ↔ put s v n = .ok t ∧ rc = .ok ∧ d = 0 := by
  unfold runWeWrite
  rcases put s v n with e | u
  · simp
  · simp only [Except.ok.injEq, Prod.mk.injEq]
    constructor
    · rintro ⟨rfl, rfl, rfl⟩; exact ⟨rfl, rfl, rfl⟩
    · rintro ⟨rfl, rfl, rfl⟩; exact ⟨rfl, rfl, rfl⟩

theorem runWeFlush_eq_ok {rc : RCode} {d : Word} :
    runWeFlush s = .ok (t, rc, d) ↔ flush s = .ok t ∧ rc = .ok ∧ d = 0 := by
  unfold runWeFlush
  rcases flush s with e | u
  · simp
  · simp only [Except.ok.injEq, Prod.mk.injEq]
    constructor
    · rintro ⟨rfl, rfl, rfl⟩; exact ⟨rfl, rfl, rfl⟩
    · rintro ⟨rfl, rfl, rfl⟩; exact ⟨rfl, rfl, rfl⟩

/-- A close that succeeds is a Put, a Flush and the outcome read from the state they leave. -/
theorem runWeClose_eq_ok {v n : Nat} {rc : RCode} {d : Word} :
    runWeClose s v n = .ok (t, rc, d) ↔
      ∃ u, put s v n = .ok u ∧ flush u = .ok t ∧ (rc, d) = closeOutcome t := by
  unfold runWeClose
  rcases put s v n with e | u
  · simp
  · rcases hf : flush u with e | x
    · simp [hf]
    · simp only [Except.ok.injEq, Prod.mk.injEq, exists_eq_left', hf]
      constructor
      · rintro ⟨rfl, h⟩; exact ⟨rfl, h.symm⟩
      · rintro ⟨rfl, h⟩; exact ⟨rfl, h.symm⟩

/-- A read that succeeds peeks and consumes in the state its refill left. -/
theorem runReRead_eq_ok {n : Nat} {rc : RCode} {d : Word} :
    runReRead s n = .ok (t, rc, d) ↔
      ∃ u, refill s n = .ok u ∧ n ≤ u.re.bitoff.toNat ∧ t = consumeBits u n ∧ rc = .ok ∧
        d = BitVec.ofNat 64 (peekBits u n) := by
  unfold runReRead
  rcases refill s n with e | u
  · simp
  · by_cases h : u.re.bitoff.toNat < n
    · simp only [h, if_true, reduceCtorEq, Except.ok.injEq, exists_eq_left', false_iff, not_and]
      exact fun hn => absurd h (by omega)
    · simp only [h, if_false, Except.ok.injEq, Prod.mk.injEq, exists_eq_left']
      constructor
      · rintro ⟨rfl, rfl, rfl⟩; exact ⟨Nat.not_lt.mp h, rfl, rfl, rfl⟩
      · rintro ⟨-, rfl, rfl, rfl⟩; exact ⟨rfl, rfl, rfl⟩

theorem runReReload_eq_ok {rc : RCode} {d : Word} :
    runReReload s = .ok (t, rc, d) ↔
      ∃ st, reloadRecorded s = .ok (t, st) ∧ rc = .ok ∧ d = st.code.setWidth 64 := by
  unfold runReReload
  rcases reloadRecorded s with e | ⟨u, st⟩
  · simp
  · simp only [Except.ok.injEq, Prod.mk.injEq]
    constructor
    · rintro ⟨rfl, rfl, rfl⟩; exact ⟨st, ⟨rfl, rfl⟩, rfl, rfl⟩
    · rintro ⟨_, ⟨rfl, rfl⟩, rfl, rfl⟩; exact ⟨rfl, rfl, rfl⟩

end Sys2Proof.Machine
end

