-- ==== Sys2Proof/Laws/Exec.lean ====
section
/-! SUPPORT. What a command can do, said once: the frame every execution keeps, and the three endings of
`exec`. -/

namespace Sys2Proof.Machine

variable {s t u : State} {i : Instr}

/-- What every execution leaves alone: the width, BLK_STATUS, the host's side, and the units the command does
not belong to (R244); the command's unit is the upper half of its opcode (R80). -/
structure CommandFrame (i : Instr) (s u : State) : Prop where
  width : u.width = s.width
  blk : u.blk = s.blk
  moves : u.moves = s.moves
  responses : u.responses = s.responses
  we : i.opcode.toNat / 16 ≠ 1 → u.we = s.we ∧ u.mem = s.mem
  re : i.opcode.toNat / 16 ≠ 2 → u.re = s.re
  fn : i.opcode.toNat / 16 ≠ 3 → u.fn = s.fn

theorem CommandFrame.refl (i : Instr) (s : State) : CommandFrame i s s :=
  ⟨rfl, rfl, rfl, rfl, fun _ => ⟨rfl, rfl⟩, fun _ => rfl, fun _ => rfl⟩

/-- A state that differs in the write engine and MEM only, for a write engine's command. -/
theorem commandFrame_we (h : i.opcode.toNat / 16 = 1) (m : Memory) (e : WriteEngine) :
    CommandFrame i s { s with mem := m, we := e } :=
  ⟨rfl, rfl, rfl, rfl, fun hn => absurd h hn, fun _ => rfl, fun _ => rfl⟩

theorem commandFrame_re (h : i.opcode.toNat / 16 = 2) (e : ReadEngine) : CommandFrame i s { s with re := e } :=
  ⟨rfl, rfl, rfl, rfl, fun _ => ⟨rfl, rfl⟩, fun hn => absurd h hn, fun _ => rfl⟩

theorem commandFrame_fn (h : i.opcode.toNat / 16 = 3) (f : Normalizer) : CommandFrame i s { s with fn := f } :=
  ⟨rfl, rfl, rfl, rfl, fun _ => ⟨rfl, rfl⟩, fun _ => rfl, fun hn => absurd h hn⟩

/-- A flush changes MEM and the write engine only. -/
theorem flush_frame (h : flush s = .ok t) : t = { s with mem := t.mem, we := t.we } := by
  obtain ⟨-, rfl⟩ := flush_eq_ok.mp h; rfl

theorem put_frame {v n : Nat} (h : put s v n = .ok t) : t = { s with mem := t.mem, we := t.we } := by
  rcases put_eq_ok.mp h with ⟨-, rfl⟩ | ⟨-, u, hu, -, rfl⟩
  · rfl
  · have := flush_frame hu
    rw [this]; rfl

/-- The endings of an execution that the command cycle allows: it answers with one of the codes of R200 that
are no fault and no refusal, and with data only for OK and REPAIR_FAIL (R82). -/
structure Answers (rc : RCode) (d : Word) : Prop where
  notHalted : rc ≠ .halted
  data : rc ≠ .ok → rc ≠ .repairFail → d = 0

theorem Answers.ok (d : Word) : Answers .ok d := ⟨by decide, fun h => absurd rfl h⟩

theorem answers_closeOutcome (s : State) : Answers (closeOutcome s).1 (closeOutcome s).2 := by
  unfold closeOutcome
  split
  · exact ⟨by decide, fun _ _ => rfl⟩
  · exact .ok _

theorem runWeInit_spec {base cap : Nat} :
    ∃ u rc d, runWeInit s base cap = .ok (u, rc, d) ∧ Answers rc d ∧ ∃ e, u = { s with we := e } := by
  unfold runWeInit
  split
  · exact ⟨_, _, _, rfl, ⟨by decide, fun _ _ => rfl⟩, _, rfl⟩
  · exact ⟨_, _, _, rfl, .ok _, _, rfl⟩

theorem runReInit_spec {base cap : Nat} {rc : RCode} {d : Word} (h : runReInit s base cap = .ok (u, rc, d)) :
    Answers rc d ∧ ∃ e, u = { s with re := e } := by
  unfold runReInit at h
  split at h
  · cases h; exact ⟨⟨by decide, fun _ _ => rfl⟩, _, rfl⟩
  · split at h
    · cases h
    · cases h; exact ⟨.ok _, _, rfl⟩

theorem runFnNorm_spec {m : Nat} :
    ∃ u rc d, runFnNorm s m = .ok (u, rc, d) ∧ Answers rc d ∧ ∃ f, u = { s with fn := f } := by
  unfold runFnNorm normalizeCounts
  split
  rename_i f rc d h
  refine ⟨_, _, _, rfl, ?_, _, rfl⟩
  split at h
  · cases h; exact .ok _
  · simp only at h
    split at h
    · cases h; exact ⟨by decide, fun _ hr => absurd rfl hr⟩
    · cases h; exact .ok _

/-- The three endings of a command: a refusal while halted, a fault from the state before it, or an answer from
a state its frame describes. -/
theorem exec_eq_next (h : exec i s = .next t) :
    (s.blk.halted = true ∧ t = s.refuseHalted) ∨
    (s.blk.halted = false ∧ ∃ c, t = s.takeFault c) ∨
    (∃ u rc d, t = u.respond rc d ∧ CommandFrame i s u ∧ Answers rc d ∧
      (s.blk.halted = true → u = s ∧ rc = .ok)) := by
  cases i with
  | nop =>
    cases h
    exact .inr (.inr ⟨s, _, _, rfl, .refl _ _, .ok _, fun _ => ⟨rfl, rfl⟩⟩)
  | fnRdRaw idx =>
    cases h
    exact .inr (.inr ⟨s, _, _, rfl, .refl _ _, .ok _, fun _ => ⟨rfl, rfl⟩⟩)
  | fnRdNorm idx =>
    cases h
    exact .inr (.inr ⟨s, _, _, rfl, .refl _ _, .ok _, fun _ => ⟨rfl, rfl⟩⟩)
  | rdState idx =>
    simp only [exec, execRdState] at h
    split at h
    · cases h
      exact .inr (.inr ⟨s, _, _, rfl, .refl _ _, .ok _, fun _ => ⟨rfl, rfl⟩⟩)
    · cases h
      cases hb : s.blk.halted
      · exact .inr (.inl ⟨rfl, .illegal, by simp [State.rejectWord, hb]⟩)
      · exact .inl ⟨rfl, by simp [State.rejectWord, hb]⟩
  | weInit addr len =>
    simp only [exec, execWeInit, unlessHalted_eq_next, requireRegion, require_eq_next] at h
    rcases h with hh | ⟨hr, ⟨-, rfl⟩ | ⟨-, h⟩⟩
    · exact .inl hh
    · exact .inr (.inl ⟨hr, _, rfl⟩)
    · obtain ⟨u, rc, d, hu, ha, e, rfl⟩ := runWeInit_spec (s := s) (base := baseOf addr) (cap := lengthOf len)
      rw [hu] at h
      cases h
      exact .inr (.inr ⟨_, _, _, rfl, commandFrame_we (by simp [Instr.opcode]) _ _, ha, fun hh => by simp [hr] at hh⟩)
  | weWrite val nb =>
    simp only [exec, execWeWrite, unlessHalted_eq_next, requireBits, requireInit, require_eq_next,
      commit_eq_next] at h
    rcases h with hh | ⟨hr, ⟨-, rfl⟩ | ⟨-, ⟨-, rfl⟩ | ⟨-, ⟨u, rc, d, hu, rfl⟩ | ⟨c, -, rfl⟩⟩⟩⟩
    · exact .inl hh
    · exact .inr (.inl ⟨hr, _, rfl⟩)
    · exact .inr (.inl ⟨hr, _, rfl⟩)
    · obtain ⟨hp, rfl, rfl⟩ := runWeWrite_eq_ok.mp hu
      refine .inr (.inr ⟨u, _, _, rfl, ?_, .ok _, fun hh => by simp [hr] at hh⟩)
      rw [put_frame hp]; exact commandFrame_we (by simp [Instr.opcode]) _ _
    · exact .inr (.inl ⟨hr, _, rfl⟩)
  | weFlush =>
    simp only [exec, execWeFlush, unlessHalted_eq_next, requireInit, require_eq_next, commit_eq_next] at h
    rcases h with hh | ⟨hr, ⟨-, rfl⟩ | ⟨-, ⟨u, rc, d, hu, rfl⟩ | ⟨c, -, rfl⟩⟩⟩
    · exact .inl hh
    · exact .inr (.inl ⟨hr, _, rfl⟩)
    · obtain ⟨hp, rfl, rfl⟩ := runWeFlush_eq_ok.mp hu
      refine .inr (.inr ⟨u, _, _, rfl, ?_, .ok _, fun hh => by simp [hr] at hh⟩)
      rw [flush_frame hp]; exact commandFrame_we (by simp [Instr.opcode]) _ _
    · exact .inr (.inl ⟨hr, _, rfl⟩)
  | weClose val nb =>
    simp only [exec, execWeClose, unlessHalted_eq_next, requireBits, requireInit, require_eq_next,
      commit_eq_next] at h
    rcases h with hh | ⟨hr, ⟨-, rfl⟩ | ⟨-, ⟨-, rfl⟩ | ⟨-, ⟨u, rc, d, hu, rfl⟩ | ⟨c, -, rfl⟩⟩⟩⟩
    · exact .inl hh
    · exact .inr (.inl ⟨hr, _, rfl⟩)
    · exact .inr (.inl ⟨hr, _, rfl⟩)
    · obtain ⟨x, hp, hf, hc⟩ := runWeClose_eq_ok.mp hu
      have ha := answers_closeOutcome u
      rw [← hc] at ha
      refine .inr (.inr ⟨u, _, _, rfl, ?_, ha, fun hh => by simp [hr] at hh⟩)
      rw [flush_frame hf, put_frame hp]; exact commandFrame_we (by simp [Instr.opcode]) _ _
    · exact .inr (.inl ⟨hr, _, rfl⟩)
  | reInit addr len =>
    simp only [exec, execReInit, unlessHalted_eq_next, requireRegion, require_eq_next, commit_eq_next] at h
    rcases h with hh | ⟨hr, ⟨-, rfl⟩ | ⟨-, ⟨u, rc, d, hu, rfl⟩ | ⟨c, -, rfl⟩⟩⟩
    · exact .inl hh
    · exact .inr (.inl ⟨hr, _, rfl⟩)
    · obtain ⟨ha, e, rfl⟩ := runReInit_spec hu
      exact .inr (.inr ⟨_, _, _, rfl, commandFrame_re (by simp [Instr.opcode]) _, ha, fun hh => by simp [hr] at hh⟩)
    · exact .inr (.inl ⟨hr, _, rfl⟩)
  | rePeek nb =>
    simp only [exec, execRePeek, unlessHalted_eq_next, requireBits, requireInit, require_eq_next,
      runRePeek] at h
    rcases h with hh | ⟨hr, ⟨-, rfl⟩ | ⟨-, ⟨-, rfl⟩ | ⟨-, h⟩⟩⟩
    · exact .inl hh
    · exact .inr (.inl ⟨hr, _, rfl⟩)
    · exact .inr (.inl ⟨hr, _, rfl⟩)
    · split at h
      · cases h; exact .inr (.inl ⟨hr, _, rfl⟩)
      · cases h
        exact .inr (.inr ⟨s, _, _, rfl, .refl _ _, .ok _, fun _ => ⟨rfl, rfl⟩⟩)
  | reConsume nb =>
    simp only [exec, execReConsume, unlessHalted_eq_next, requireBits, requireInit, require_eq_next,
      runReConsume] at h
    rcases h with hh | ⟨hr, ⟨-, rfl⟩ | ⟨-, ⟨-, rfl⟩ | ⟨-, h⟩⟩⟩
    · exact .inl hh
    · exact .inr (.inl ⟨hr, _, rfl⟩)
    · exact .inr (.inl ⟨hr, _, rfl⟩)
    · split at h
      · cases h; exact .inr (.inl ⟨hr, _, rfl⟩)
      · cases h
        exact .inr (.inr ⟨_, _, _, rfl, commandFrame_re (by simp [Instr.opcode]) _, .ok _,
            fun hh => by simp [hr] at hh⟩)
  | reRead nb =>
    simp only [exec, execReRead, unlessHalted_eq_next, requireBits, requireInit, require_eq_next,
      commit_eq_next] at h
    rcases h with hh | ⟨hr, ⟨-, rfl⟩ | ⟨-, ⟨-, rfl⟩ | ⟨-, ⟨u, rc, d, hu, rfl⟩ | ⟨c, -, rfl⟩⟩⟩⟩
    · exact .inl hh
    · exact .inr (.inl ⟨hr, _, rfl⟩)
    · exact .inr (.inl ⟨hr, _, rfl⟩)
    · obtain ⟨x, hx, -, rfl, rfl, rfl⟩ := runReRead_eq_ok.mp hu
      refine .inr (.inr ⟨_, _, _, rfl, ?_, .ok _, fun hh => by simp [hr] at hh⟩)
      rw [refill_frame hx]; exact commandFrame_re (by simp [Instr.opcode]) _
    · exact .inr (.inl ⟨hr, _, rfl⟩)
  | reReload =>
    simp only [exec, execReReload, unlessHalted_eq_next, requireInit, require_eq_next, commit_eq_next] at h
    rcases h with hh | ⟨hr, ⟨-, rfl⟩ | ⟨-, ⟨u, rc, d, hu, rfl⟩ | ⟨c, -, rfl⟩⟩⟩
    · exact .inl hh
    · exact .inr (.inl ⟨hr, _, rfl⟩)
    · obtain ⟨st, hx, rfl, rfl⟩ := runReReload_eq_ok.mp hu
      refine .inr (.inr ⟨_, _, _, rfl, ?_, .ok _, fun hh => by simp [hr] at hh⟩)
      rw [reloadRecorded_frame hx]; exact commandFrame_re (by simp [Instr.opcode]) _
    · exact .inr (.inl ⟨hr, _, rfl⟩)
  | reClose =>
    simp only [exec, execReClose, unlessHalted_eq_next, requireInit, require_eq_next] at h
    rcases h with hh | ⟨hr, ⟨-, rfl⟩ | ⟨-, h⟩⟩
    · exact .inl hh
    · exact .inr (.inl ⟨hr, _, rfl⟩)
    · cases h
      exact .inr (.inr ⟨s, _, _, rfl, .refl _ _, .ok _, fun _ => ⟨rfl, rfl⟩⟩)
  | fnCount addr len =>
    simp only [exec, execFnCount, unlessHalted_eq_next, requireRegion, require_eq_next] at h
    rcases h with hh | ⟨hr, ⟨-, rfl⟩ | ⟨-, h⟩⟩
    · exact .inl hh
    · exact .inr (.inl ⟨hr, _, rfl⟩)
    · cases h
      exact .inr (.inr ⟨_, _, _, rfl, commandFrame_fn (by simp [Instr.opcode]) _, .ok _,
          fun hh => by simp [hr] at hh⟩)
  | fnNorm imm =>
    simp only [exec, execFnNorm, unlessHalted_eq_next, require_eq_next] at h
    rcases h with hh | ⟨hr, ⟨-, rfl⟩ | ⟨-, h⟩⟩
    · exact .inl hh
    · exact .inr (.inl ⟨hr, _, rfl⟩)
    · obtain ⟨u, rc, d, hu, ha, f, rfl⟩ := runFnNorm_spec (s := s) (m := maxTotalOf imm)
      rw [hu] at h
      cases h
      exact .inr (.inr ⟨_, _, _, rfl, commandFrame_fn (by simp [Instr.opcode]) _, ha, fun hh => by simp [hr] at hh⟩)

end Sys2Proof.Machine
end

