-- ==== Sys2Proof/Laws/Histogram.lean ====
section
/-! SUPPORT. The laws of the normalizer's tables and what its procedures can do (R150 to R159). -/

namespace Sys2Proof.Machine

variable {t raw : Table}

/-! ### Tables -/

theorem entry_put (t : Table) (i j : Symbol) (c : Counter) :
    (t.put i c).entry j = if j = i then c else t.entry j := by
  unfold Table.put Table.entry
  rw [Vector.getElem_set]
  by_cases h : j = i
  · subst h; simp
  · rw [if_neg (fun e => h (BitVec.eq_of_toNat_eq e.symm)), if_neg h]

@[simp] theorem entry_put_same (t : Table) (i : Symbol) (c : Counter) : (t.put i c).entry i = c := by
  simp [entry_put]

theorem entry_put_other (t : Table) {i j : Symbol} (c : Counter) (h : j ≠ i) :
    (t.put i c).entry j = t.entry j := by simp [entry_put, h]

@[simp] theorem entry_zero (i : Symbol) : Table.zero.entry i = 0 := by
  simp [Table.zero, Table.entry]

@[simp] theorem entry_mapEntries (f : Counter → Counter) (i : Symbol) :
    (t.mapEntries f).entry i = f (t.entry i) := by
  simp [Table.mapEntries, Table.entry]

@[simp] theorem entry_bump (i j : Symbol) :
    (t.bump i).entry j = if j = i then t.entry i + 1 else t.entry j := entry_put ..

/-- Tables with the same entries are equal. -/
theorem table_ext {u : Table} (h : ∀ i, t.entry i = u.entry i) : t = u := by
  refine Vector.ext fun k hk => ?_
  exact h (BitVec.ofFin ⟨k, hk⟩)

/-! ### The symbols in ascending order -/

theorem mem_symbols (i : Symbol) : i ∈ symbols := by
  refine List.mem_map.mpr ⟨i.toNat, List.mem_range.mpr i.isLt, ?_⟩
  simp

/-- The list of symbols is strictly ascending. -/
theorem symbols_ascending : symbols.Pairwise fun i j => i.toNat < j.toNat := by
  refine List.pairwise_map.mpr ?_
  refine (List.pairwise_lt_range (n := 256)).imp_of_mem fun {i j} hi hj hij => ?_
  have hi := List.mem_range.mp hi
  have hj := List.mem_range.mp hj
  simp only [BitVec.toNat_ofNat]
  omega

theorem symbols_nodup : symbols.Nodup :=
  symbols_ascending.imp fun h e => by subst e; exact Nat.lt_irrefl _ h

/-! ### The maximum -/

theorem le_foldl_max (f : Symbol → Nat) (l : List Symbol) (acc : Nat) :
    acc ≤ l.foldl (fun a i => max a (f i)) acc ∧ ∀ i ∈ l, f i ≤ l.foldl (fun a i => max a (f i)) acc := by
  induction l generalizing acc with
  | nil => simp
  | cons x l ih =>
    obtain ⟨h1, h2⟩ := ih (max acc (f x))
    refine ⟨by simp only [List.foldl_cons]; omega, fun i hi => ?_⟩
    rcases List.mem_cons.mp hi with rfl | hi
    · simp only [List.foldl_cons]; omega
    · exact h2 i hi

theorem foldl_max_mem (f : Symbol → Nat) (l : List Symbol) (acc : Nat) :
    l.foldl (fun a i => max a (f i)) acc = acc ∨ ∃ i ∈ l, l.foldl (fun a i => max a (f i)) acc = f i := by
  induction l generalizing acc with
  | nil => simp
  | cons x l ih =>
    simp only [List.foldl_cons]
    rcases ih (max acc (f x)) with h | ⟨i, hi, h⟩
    · rcases Nat.le_total acc (f x) with hle | hle
      · exact .inr ⟨x, by simp, by omega⟩
      · exact .inl (by omega)
    · exact .inr ⟨i, by simp [hi], h⟩

theorem toList_eq_map (t : Table) : t.toList = symbols.map t.entry := by
  apply List.ext_getElem
  · simp [symbols]
  · intro n h1 h2
    simp only [Vector.length_toList] at h1
    simp [symbols, Table.entry, Nat.mod_eq_of_lt h1]

theorem pairs_eq_map (t : Table) : t.pairs = symbols.map fun i => (i, t.entry i) := by
  unfold Table.pairs
  rw [toList_eq_map]
  induction symbols with
  | nil => rfl
  | cons i l ih => rw [List.map_cons, List.map_cons, List.zip_cons_cons, ih]

theorem mem_pairs {t : Table} {p : Symbol × Counter} : p ∈ t.pairs ↔ p.2 = t.entry p.1 := by
  rw [pairs_eq_map, List.mem_map]
  exact ⟨fun ⟨i, _, h⟩ => by subst h; rfl, fun h => ⟨p.1, mem_symbols _, by rw [← h]⟩⟩

/-- A table as the list of its entries. -/
theorem toList_eq_entries (t : Table) :
    t.toList.map BitVec.toNat = symbols.map fun i => (t.entry i).toNat := by
  rw [toList_eq_map, List.map_map]
  rfl

theorem mem_presentSymbols {i : Symbol} : i ∈ presentSymbols raw ↔ 0 < (raw.entry i).toNat := by
  simp only [presentSymbols, List.mem_map, List.mem_filter, mem_pairs, decide_eq_true_eq]
  exact ⟨fun ⟨p, ⟨h1, h2⟩, h3⟩ => by subst h3; rwa [← h1], fun h => ⟨(i, raw.entry i), ⟨rfl, h⟩, rfl⟩⟩

/-- The present symbols are listed in strictly ascending order. -/
theorem presentSymbols_ascending (raw : Table) : (presentSymbols raw).Pairwise fun i j => i.toNat < j.toNat := by
  have h : (presentSymbols raw).Sublist symbols := by
    have e : raw.pairs.map Prod.fst = symbols := by
      rw [pairs_eq_map, List.map_map]
      exact List.map_id _
    rw [← e]
    exact List.filter_sublist.map _
  exact symbols_ascending.sublist h

theorem maxEntry_eq_foldl (raw : Table) :
    maxEntry raw = symbols.foldl (fun acc i => max acc (raw.entry i).toNat) 0 := by
  have h := congrArg (List.foldl max 0) (toList_eq_entries raw)
  rwa [List.foldl_map, List.foldl_map] at h

/-- No entry is above the maximum. -/
theorem entry_le_maxEntry (raw : Table) (i : Symbol) : (raw.entry i).toNat ≤ maxEntry raw :=
  maxEntry_eq_foldl raw ▸ (le_foldl_max (fun i => (raw.entry i).toNat) symbols 0).2 i (mem_symbols i)

/-- Some entry is the maximum. -/
theorem exists_maxEntry (raw : Table) : ∃ i : Symbol, (raw.entry i).toNat = maxEntry raw := by
  rcases maxEntry_eq_foldl raw ▸ foldl_max_mem (fun i => (raw.entry i).toNat) symbols 0 with h | ⟨i, -, h⟩
  · have h0 := entry_le_maxEntry raw 0
    have hm : maxEntry raw = 0 := h
    exact ⟨0, by omega⟩
  · exact ⟨i, h.symm⟩

/-- The maximum symbol has the maximum entry, and every lower symbol has less (R153). -/
theorem maxSymbol_spec (raw : Table) :
    (raw.entry (maxSymbol raw)).toNat = maxEntry raw ∧
    ∀ i : Symbol, i.toNat < (maxSymbol raw).toNat → (raw.entry i).toNat < maxEntry raw := by
  have he : maxSymbol raw = (symbols.find? fun i => decide ((raw.entry i).toNat = maxEntry raw)).getD 0 := by
    unfold maxSymbol
    rw [pairs_eq_map, List.find?_map, Option.map_map]
    exact congrArg (Option.getD · 0) Option.map_id'
  rw [he]
  cases h : symbols.find? fun i => decide ((raw.entry i).toNat = maxEntry raw) with
  | none =>
    obtain ⟨i, hi⟩ := exists_maxEntry raw
    exact absurd hi (by simpa using List.find?_eq_none.mp h i (mem_symbols i))
  | some m =>
    obtain ⟨hm, as, bs, hl, has⟩ := List.find?_eq_some_iff_append.mp h
    refine ⟨by simpa using hm, fun i hi => ?_⟩
    have hpw := symbols_ascending
    rw [hl] at hpw
    have hmem := mem_symbols i
    rw [hl] at hmem
    have hne : (raw.entry i).toNat ≠ maxEntry raw := by
      rcases List.mem_append.mp hmem with hia | hib
      · simpa using has i hia
      · rcases List.mem_cons.mp hib with rfl | hib
        · exact absurd hi (Nat.lt_irrefl _)
        · have := (List.pairwise_cons.mp (List.pairwise_append.mp hpw).2.1).1 i hib
          simp only [Option.getD_some] at hi
          omega
    have := entry_le_maxEntry raw i
    omega

/-- A symbol with the properties of the maximum symbol is the maximum symbol. -/
theorem maxSymbol_unique {ms : Symbol} (h : ∀ i : Symbol, (raw.entry i).toNat ≤ (raw.entry ms).toNat)
    (hlow : ∀ i : Symbol, i.toNat < ms.toNat → (raw.entry i).toNat < (raw.entry ms).toNat) :
    maxSymbol raw = ms ∧ maxEntry raw = (raw.entry ms).toNat := by
  obtain ⟨h1, h2⟩ := maxSymbol_spec raw
  have hle := entry_le_maxEntry raw ms
  have hge := h (maxSymbol raw)
  have hm : maxEntry raw = (raw.entry ms).toNat := by omega
  refine ⟨BitVec.eq_of_toNat_eq ?_, hm⟩
  rcases Nat.lt_trichotomy (maxSymbol raw).toNat ms.toNat with hlt | heq | hgt
  · have := hlow _ hlt; omega
  · exact heq
  · have := h2 _ hgt; omega

/-! ### Scaling -/

/-- The scaled count is at most maxTotal (R154). -/
theorem scaleCount_le {maxTotal maxRaw c : Nat} (h : c ≤ maxRaw) : scaleCount maxTotal maxRaw c ≤ maxTotal := by
  unfold scaleCount
  split
  · rw [Nat.mul_comm]
    exact Nat.div_le_of_le_mul (Nat.mul_le_mul_right _ h)
  · omega

/-- Every entry of the scaled table (R154, R155). -/
theorem entry_scaleTable {m : Nat} (hm : m < 2 ^ 32) (raw : Table) (i : Symbol) :
    ((scaleTable raw m).entry i).toNat =
      if i = maxSymbol raw then m else scaleCount m (maxEntry raw) (raw.entry i).toNat := by
  have hs := scaleCount_le (maxTotal := m) (entry_le_maxEntry raw i)
  unfold scaleTable
  rw [entry_put]
  split
  · rw [BitVec.toNat_ofNat, Nat.mod_eq_of_lt hm]
  · rw [entry_mapEntries, BitVec.toNat_ofNat, Nat.mod_eq_of_lt (by omega)]

/-! ### Donors -/

theorem eligibleDonor_iff {ms : Symbol} {p : Symbol × Counter} :
    eligibleDonor ms p = true ↔ p.1 ≠ ms ∧ 1 < p.2.toNat := by
  simp [eligibleDonor]

/-- A chosen donor is eligible (R157). -/
theorem chooseDonor_eligible {ms d : Symbol} (h : chooseDonor t ms = some d) :
    d ≠ ms ∧ 1 < (t.entry d).toNat := by
  have key : ∀ (l : List (Symbol × Counter)) (best : Option (Symbol × Counter)),
      (∀ p ∈ l, p ∈ t.pairs) → (∀ p, best = some p → p ∈ t.pairs ∧ p.1 ≠ ms ∧ 1 < p.2.toNat) →
      ∀ p, l.foldl (betterDonor ms) best = some p → p ∈ t.pairs ∧ p.1 ≠ ms ∧ 1 < p.2.toNat := by
    intro l
    induction l with
    | nil => exact fun best _ hb p hp => hb p hp
    | cons x l ih =>
      intro best hl hb p hp
      refine ih _ (fun q hq => hl q (List.mem_cons_of_mem _ hq)) (fun q hq => ?_) p hp
      unfold betterDonor at hq
      split at hq
      · have hx := eligibleDonor_iff.mp ‹_›
        have hm := hl x (List.mem_cons_self ..)
        cases best with
        | none => cases hq; exact ⟨hm, hx⟩
        | some b =>
          simp only at hq
          split at hq <;> cases hq
          exacts [⟨hm, hx⟩, hb _ rfl]
      · exact hb q hq
  obtain ⟨p, hp, rfl⟩ := Option.map_eq_some_iff.mp h
  obtain ⟨h1, h2, h3⟩ := key t.pairs none (fun _ hp => hp) (by simp) p hp
  exact ⟨h2, by rwa [← mem_pairs.mp h1]⟩

theorem isVictim_iff {v : Symbol} :
    isVictim raw t v = true ↔ 0 < (raw.entry v).toNat ∧ (t.entry v).toNat = 0 := by simp [isVictim]

/-- A donation takes one unit from the donor and leaves the victim with one. -/
theorem entry_donate {d v : Symbol} (i : Symbol) :
    (donate t d v).entry i = if i = v then 1 else if i = d then t.entry d - 1 else t.entry i := by
  unfold donate
  rw [entry_put, entry_put]

/-- An induction over the repair loop (R156): a property of the working table that every donation keeps holds
at the loop's end, whatever the outcome. -/
theorem repair_induct {ms : Symbol} (P : Table → Prop)
    (hstep : ∀ t v d, P t → isVictim raw t v = true → chooseDonor t ms = some d → P (donate t d v))
    (l : List Symbol) (h : P t) : P (repair raw ms l t).1 := by
  induction l generalizing t with
  | nil => exact h
  | cons v vs ih =>
    unfold repair
    split
    · split
      · exact h
      · exact ih (hstep _ _ _ h ‹_› ‹_›)
    · exact ih h

/-! ### The three outcomes of FN_NORM -/

variable {f : Normalizer} {m : Nat}

/-- An all-zero histogram (R152). -/
theorem normalizeCounts_of_empty (h : maxEntry f.raw = 0) :
    normalizeCounts f m =
      ({ f with norm := Table.zero, maxsym := 0x100, nvalid := true, nfail := false }, .ok, 0x100) := if_pos h

/-- A repair that finds a donor for every victim (R159). -/
theorem normalizeCounts_of_repaired (h : maxEntry f.raw ≠ 0)
    (hr : repair f.raw (maxSymbol f.raw) (presentSymbols f.raw) (scaleTable f.raw m) = (t, none)) :
    normalizeCounts f m =
      ({ f with norm := t, maxsym := (maxSymbol f.raw).setWidth 9, nvalid := true, nfail := false }, .ok,
        (maxSymbol f.raw).setWidth 64) := by
  simp only [normalizeCounts, if_neg h, hr, Normalizer.markValid]

/-- A victim that meets an empty donor set (R159). -/
theorem normalizeCounts_of_starved {v : Symbol} (h : maxEntry f.raw ≠ 0)
    (hr : repair f.raw (maxSymbol f.raw) (presentSymbols f.raw) (scaleTable f.raw m) = (t, some v)) :
    normalizeCounts f m =
      ({ f with norm := t, maxsym := (maxSymbol f.raw).setWidth 9, nvalid := false, nfail := true }, .repairFail,
        v.setWidth 64) := by
  simp only [normalizeCounts, if_neg h, hr, Normalizer.markFailed]

/-! ### Whole loops -/

/-- The largest entry is 0 exactly when every entry is (R152). -/
theorem maxEntry_eq_zero : maxEntry t = 0 ↔ ∀ i : Symbol, t.entry i = 0 := by
  constructor
  · intro h i; have := entry_le_maxEntry t i; exact BitVec.eq_of_toNat_eq (by simp; omega)
  · intro h; obtain ⟨i, hi⟩ := exists_maxEntry t; rw [h i] at hi; exact hi.symm

/-- What the counting loop leaves in an entry: the occurrences of its symbol, at most all the bytes (R150). -/
theorem entry_countBytes (m : Memory) (a n : Nat) (hn : n < 2 ^ 32) (i : Symbol) :
    ((countBytes m a n).entry i).toNat =
        ((List.range n).filter fun k => decide (readByte m (a + k) = i)).length ∧
      ((countBytes m a n).entry i).toNat ≤ n := by
  induction n with
  | zero => simp [countBytes]
  | succ n ih =>
    obtain ⟨h1, h2⟩ := ih (by omega)
    rw [countBytes, entry_bump, List.range_succ, List.filter_append, List.length_append]
    by_cases h : i = readByte m (a + n)
    · subst h
      simp only [if_true, List.filter_cons, decide_true, List.filter_nil, List.length_singleton]
      rw [BitVec.toNat_add, ← h1]
      simp; omega
    · have h' : ¬ readByte m (a + n) = i := fun e => h e.symm
      simp only [h, if_false, List.filter_cons, h', decide_false]
      simp; omega

/-- What the repair loop keeps (R156): the maximum symbol keeps maxTotal, no entry passes it,
    and absent symbols keep 0. -/
theorem repair_entries {t0 : Table} {ms : Symbol} {m : Nat} (hm : 0 < m) (h1 : (t0.entry ms).toNat = m)
    (h2 : ∀ i, (t0.entry i).toNat ≤ m) (h3 : ∀ i, (raw.entry i).toNat = 0 → (t0.entry i).toNat = 0)
    (l : List Symbol) :
    (((repair raw ms l t0).1.entry ms).toNat = m) ∧ (∀ i, ((repair raw ms l t0).1.entry i).toNat ≤ m) ∧
      (∀ i, (raw.entry i).toNat = 0 → ((repair raw ms l t0).1.entry i).toNat = 0) := by
  refine repair_induct (raw := raw) (ms := ms) (t := t0) (fun t => (t.entry ms).toNat = m ∧ (∀ i,
      (t.entry i).toNat ≤ m) ∧ (∀ i, (raw.entry i).toNat = 0 → (t.entry i).toNat = 0)) ?_ l ⟨h1, h2, h3⟩
  rintro t v d ⟨p1, p2, p3⟩ hv hd
  obtain ⟨v1, v2⟩ := isVictim_iff.mp hv
  obtain ⟨d1, d2⟩ := chooseDonor_eligible hd
  have hsub : (t.entry d - 1).toNat = (t.entry d).toNat - 1 := by
    have := (t.entry d).isLt
    rw [BitVec.toNat_sub]; simp; omega
  have hmv : ms ≠ v := fun e => by subst e; omega
  refine ⟨by rw [entry_donate, if_neg hmv, if_neg (Ne.symm d1)]; exact p1, fun i => ?_, fun i hi => ?_⟩
  · rw [entry_donate]; split
    · show 1 % _ ≤ m; omega
    · split
      · rw [hsub]; have := p2 d; omega
      · exact p2 i
  · rw [entry_donate]; split
    · subst i; omega
    · split
      · subst i; rw [hsub, p3 d hi]
      · exact p3 i hi

/-- A repair that succeeds leaves every present symbol of its list with a nonzero entry (R156). -/
theorem repair_present {ms : Symbol} : ∀ (l : List Symbol) (t : Table), (repair raw ms l t).2 = none →
    (∀ i, 0 < (t.entry i).toNat → 0 < ((repair raw ms l t).1.entry i).toNat) ∧
      ∀ i ∈ l, 0 < (raw.entry i).toNat → 0 < ((repair raw ms l t).1.entry i).toNat := by
  intro l
  induction l with
  | nil => intro t _; exact ⟨fun i hi => hi, by simp⟩
  | cons v vs ih =>
    intro t h
    unfold repair at h ⊢
    by_cases hv : isVictim raw t v = true
    · rw [if_pos hv] at h ⊢
      cases hd : chooseDonor t ms with
      | none => rw [hd] at h; simp at h
      | some d =>
        rw [hd] at h
        simp only at h ⊢
        obtain ⟨k1, k2⟩ := ih _ h
        obtain ⟨d1, d2⟩ := chooseDonor_eligible hd
        have hsub : (t.entry d - 1).toNat = (t.entry d).toNat - 1 := by
          have := (t.entry d).isLt
          rw [BitVec.toNat_sub]; simp; omega
        have hdon : ∀ i, (0 < (t.entry i).toNat ∨ i = v) → 0 < ((donate t d v).entry i).toNat := by
          intro i hi
          rw [entry_donate]; split
          · simp
          · split
            · rw [hsub]; omega
            · rcases hi with hi | hi
              · exact hi
              · contradiction
        refine ⟨fun i hi => k1 i (hdon i (.inl hi)), fun i hi hr => ?_⟩
        rcases List.mem_cons.mp hi with rfl | hi
        · exact k1 _ (hdon _ (.inr rfl))
        · exact k2 i hi hr
    · rw [if_neg hv] at h ⊢
      obtain ⟨k1, k2⟩ := ih _ h
      refine ⟨k1, fun i hi hr => ?_⟩
      rcases List.mem_cons.mp hi with rfl | hi
      · refine k1 _ ?_
        by_contra hx
        exact hv (isVictim_iff.mpr ⟨hr, by omega⟩)
      · exact k2 i hi hr

/-- What scaling and repairing a histogram leave, whatever the outcome (R153 to R158). -/
theorem repair_scaleTable (f : Normalizer) {m : Nat} (h0 : 0 < m) (hm : m < 2 ^ 32) (hne : maxEntry f.raw ≠ 0) :
    let r := repair f.raw (maxSymbol f.raw) (presentSymbols f.raw) (scaleTable f.raw m)
    (r.1.entry (maxSymbol f.raw)).toNat = m ∧ (∀ i, (r.1.entry i).toNat ≤ m) ∧
      (∀ i, (f.raw.entry i).toNat = 0 → (r.1.entry i).toNat = 0) ∧
      (r.2 = none → ∀ i, 0 < (f.raw.entry i).toNat → 0 < (r.1.entry i).toNat) := by
  intro r
  have hmax := (maxSymbol_spec f.raw).1
  have hs := fun i => entry_scaleTable hm f.raw i
  obtain ⟨a, b,
      c⟩ := repair_entries (raw := f.raw) (t0 := scaleTable f.raw m) (ms := maxSymbol f.raw) h0 (by rw [hs,
          if_pos rfl])
    (fun i => by
      rw [hs]; split
      · exact Nat.le_refl _
      · exact scaleCount_le (entry_le_maxEntry _ _))
    (fun i hi => by
      rw [hs]
      have : i ≠ maxSymbol f.raw := fun e => hne (by rw [← hmax, ← e]; exact hi)
      rw [if_neg this, hi, scaleCount, Nat.mul_zero, Nat.zero_div, ite_self]) (presentSymbols f.raw)
  exact ⟨a, b, c, fun hn i hi => (repair_present _ _ hn).2 i (mem_presentSymbols.mpr hi) hi⟩

/-- Symbols absent from the input are never victims, so the repair of the present symbols is the repair of all (R158). -/
theorem repair_filter {ms : Symbol} (l : List Symbol) (t : Table) :
    repair raw ms (l.filter fun i => decide (0 < (raw.entry i).toNat)) t = repair raw ms l t := by
  induction l generalizing t with
  | nil => rfl
  | cons v vs ih =>
    by_cases hp : 0 < (raw.entry v).toNat
    · simp only [List.filter_cons_of_pos (p := fun i => decide (0 < (raw.entry i).toNat)) (decide_eq_true hp), repair, ih]
    · rw [List.filter_cons_of_neg (by simpa using hp), ih, repair.eq_2,
        if_neg fun hv => hp (isVictim_iff.mp hv).1]

theorem presentSymbols_eq_filter (raw : Table) :
    presentSymbols raw = symbols.filter fun i => decide (0 < (raw.entry i).toNat) := by
  rw [presentSymbols, pairs_eq_map, List.filter_map, List.map_map]
  exact List.map_id _

/-- With no victim the repair changes nothing (R158). -/
theorem repair_of_no_victim {ms : Symbol} (l : List Symbol) (t : Table)
    (h : ∀ v ∈ l, isVictim raw t v = false) : repair raw ms l t = (t, none) := by
  induction l with
  | nil => rfl
  | cons v vs ih => rw [repair, if_neg (by rw [h v (by simp)]; simp), ih fun x hx => h x (by simp [hx])]

/-- With no donor the repair stops at the lowest victim (R158, R159). -/
theorem repair_of_first_victim {ms : Symbol} (l : List Symbol) (t : Table) (v : Symbol)
    (hv : isVictim raw t v = true) (hd : chooseDonor t ms = none) (hmem : v ∈ l)
    (hasc : l.Pairwise fun i j => i.toNat < j.toNat) (hlow : ∀ i, i.toNat < v.toNat → isVictim raw t i = false) :
    repair raw ms l t = (t, some v) := by
  induction l with
  | nil => simp at hmem
  | cons x vs ih =>
    obtain ⟨p1, p2⟩ := List.pairwise_cons.mp hasc
    rcases List.mem_cons.mp hmem with rfl | hm
    · rw [repair, if_pos hv, hd]
    · rw [repair, if_neg (by rw [hlow x (p1 v hm)]; simp)]
      exact ih hm p2

/-- Two functions that differ at one member of a list have sums that differ as they do there. -/
theorem sum_map_of_one (l : List Symbol) (hn : l.Nodup) (f g : Symbol → Nat) (i : Symbol) (hi : i ∈ l)
    (h : ∀ j, j ≠ i → f j = g j) : (l.map f).sum + g i = (l.map g).sum + f i := by
  induction l with
  | nil => simp at hi
  | cons x l ih =>
    obtain ⟨h1, h2⟩ := List.nodup_cons.mp hn
    simp only [List.map_cons, List.sum_cons]
    by_cases hx : x = i
    · subst hx
      have : l.map f = l.map g := List.map_congr_left fun j hj => h j (fun e => h1 (e ▸ hj))
      rw [this]; omega
    · have := ih h2 (by rcases List.mem_cons.mp hi with e | e; exact absurd e.symm hx; exact e)
      rw [h x hx]; omega

end Sys2Proof.Machine
end

