-- ==== Sys2Proof/Laws/PerInstr.lean ====
section
/-! SUPPORT. One lemma per command: the encoder puts the command's opcode into bits 63:56 (R70, R90). -/

namespace Sys2Proof.Laws.OpcodeField

/-- The opcode field of the encoded command is the command's opcode. -/
def Statement (i : Instr) : Prop := opcField (encode i) = i.opcode

/-- A word whose lower part stays below bit 56 keeps its opcode. -/
theorem opcField_or {opc : BitVec 8} {low : Word} (h : ∀ k, 56 ≤ k → low.getLsbD k = false) :
    opcField (opcMatch opc ||| low) = opc := by
  ext k hk
  have h1 : 56 + k < 64 := by omega
  have h2 : low[56 + k] = false := by rw [← BitVec.getLsbD_eq_getElem h1]; exact h _ (by omega)
  simp [opcField, opcMatch, h1, h2, BitVec.getLsbD_eq_getElem hk]

/-- A field of width w placed at bit p, with p + w ≤ 56, stays below bit 56. -/
theorem field_below {w p : Nat} (x : BitVec w) (hp : p + w ≤ 56) (k : Nat) (hk : 56 ≤ k) :
    (x.setWidth 64 <<< p).getLsbD k = false := by
  simp only [BitVec.getLsbD_shiftLeft, BitVec.getLsbD_setWidth,
    BitVec.getLsbD_of_ge x (k - p) (by omega), Bool.and_false]

theorem low_below {w : Nat} (x : BitVec w) (hw : w ≤ 56) (k : Nat) (hk : 56 ≤ k) :
    (x.setWidth 64).getLsbD k = false := by
  simp only [BitVec.getLsbD_setWidth, BitVec.getLsbD_of_ge x k (by omega), Bool.and_false]

theorem opcField_encodeN (opc : BitVec 8) : opcField (encodeN opc) = opc := by
  have := opcField_or (opc := opc) (low := 0) (by simp)
  simpa [encodeN] using this

theorem opcField_encodeA (opc : BitVec 8) (a : Addr) (l : BitVec 24) : opcField (encodeA opc a l) = opc := by
  rw [encodeA, BitVec.or_assoc]
  exact opcField_or fun k hk => by
    rw [BitVec.getLsbD_or, field_below l (by omega) k hk, low_below a (by omega) k hk]; rfl

theorem opcField_encodeB (opc : BitVec 8) (v : BitVec 32) (n : BitVec 5) : opcField (encodeB opc v n) = opc := by
  rw [encodeB, BitVec.or_assoc]
  exact opcField_or fun k hk => by
    rw [BitVec.getLsbD_or, field_below n (by omega) k hk, low_below v (by omega) k hk]; rfl

theorem opcField_encodeP (opc : BitVec 8) (n : BitVec 5) : opcField (encodeP opc n) = opc :=
  opcField_or (field_below n (by omega))

theorem opcField_encodeI (opc : BitVec 8) (m : BitVec 32) : opcField (encodeI opc m) = opc :=
  opcField_or (low_below m (by omega))

theorem opcField_encodeX (opc : BitVec 8) (x : BitVec 8) : opcField (encodeX opc x) = opc :=
  opcField_or (low_below x (by omega))

theorem nop : Statement .nop := opcField_encodeN _
theorem rdState (idx : BitVec 8) : Statement (.rdState idx) := opcField_encodeX _ _
theorem weInit (addr : Addr) (len : BitVec 24) : Statement (.weInit addr len) := opcField_encodeA _ _ _
theorem weWrite (val : BitVec 32) (nb : BitVec 5) : Statement (.weWrite val nb) := opcField_encodeB _ _ _
theorem weFlush : Statement .weFlush := opcField_encodeN _
theorem weClose (val : BitVec 32) (nb : BitVec 5) : Statement (.weClose val nb) := opcField_encodeB _ _ _
theorem reInit (addr : Addr) (len : BitVec 24) : Statement (.reInit addr len) := opcField_encodeA _ _ _
theorem rePeek (nb : BitVec 5) : Statement (.rePeek nb) := opcField_encodeP _ _
theorem reConsume (nb : BitVec 5) : Statement (.reConsume nb) := opcField_encodeP _ _
theorem reRead (nb : BitVec 5) : Statement (.reRead nb) := opcField_encodeP _ _
theorem reReload : Statement .reReload := opcField_encodeN _
theorem reClose : Statement .reClose := opcField_encodeN _
theorem fnCount (addr : Addr) (len : BitVec 24) : Statement (.fnCount addr len) := opcField_encodeA _ _ _
theorem fnNorm (maxTotal : BitVec 32) : Statement (.fnNorm maxTotal) := opcField_encodeI _ _
theorem fnRdRaw (idx : Symbol) : Statement (.fnRdRaw idx) := opcField_encodeX _ _
theorem fnRdNorm (idx : Symbol) : Statement (.fnRdNorm idx) := opcField_encodeX _ _

end Sys2Proof.Laws.OpcodeField
end

