-- ==== Sys2Proof/Laws/Streams.lean ====
section
/-! SUPPORT. What the engines' procedures do to the bit streams of R53 and to the register invariants of
Safety.lean: appending, flushing, consuming and reloading. -/

namespace Sys2Proof.Machine

variable {s t : State}

/-! ### Arithmetic of bit groups -/

/-- Cutting a multiple of 2^b at a lower place. -/
theorem mul_two_pow_div {q b c : Nat} (h : c ≤ b) : q * 2 ^ b / 2 ^ c = q * 2 ^ (b - c) := by
  rw [show (2 : Nat) ^ b = 2 ^ (b - c) * 2 ^ c by rw [← Nat.pow_add]; congr 1; omega, ← Nat.mul_assoc,
    Nat.mul_div_cancel _ (by positivity)]

/-- Cutting a multiple of 2^b at a higher place. -/
theorem mul_two_pow_div' {q b c : Nat} (h : b ≤ c) : q * 2 ^ b / 2 ^ c = q / 2 ^ (c - b) := by
  rw [show (2 : Nat) ^ c = 2 ^ (c - b) * 2 ^ b by rw [← Nat.pow_add]; congr 1; omega,
    Nat.mul_div_mul_right _ _ (by positivity)]

/-- The low b bits are the top n of them followed by the rest. -/
theorem mod_two_pow_split (x : Nat) {b n : Nat} (h : n ≤ b) :
    x % 2 ^ b = x / 2 ^ (b - n) % 2 ^ n * 2 ^ (b - n) + x % 2 ^ (b - n) := by
  have hb : (2 : Nat) ^ b = 2 ^ (b - n) * 2 ^ n := by rw [← Nat.pow_add]; congr 1; omega
  rw [hb, Nat.mod_mul]
  ring

/-- Two groups in sequence, the first taken modulo a power of two. -/
theorem mod_mul_add (x y : Nat) {b e : Nat} (hy : y < 2 ^ e) :
    x % 2 ^ b * 2 ^ e + y = (x * 2 ^ e + y) % 2 ^ (b + e) := by
  have he : (2 : Nat) ^ (b + e) = 2 ^ e * 2 ^ b := by rw [Nat.add_comm, Nat.pow_add]
  rw [he, Nat.mod_mul, Nat.mul_comm x, Nat.mul_add_mod, Nat.mod_eq_of_lt hy,
    Nat.mul_add_div (by positivity), Nat.div_eq_of_lt hy, Nat.add_zero]
  ring

/-- The first k bytes of a value just written. -/
theorem memRead_memWrite_prefix {m : Memory} {a n k : Nat} (h : Memory.wf m = true) (ha : a + n ≤ memSize)
    (hk : k ≤ n) (v : Nat) : memRead (memWrite m a n v) a k = v % 2 ^ (8 * n) / 2 ^ (8 * (n - k)) := by
  have hr := memRead_memWrite h ha v
  rw [show n = k + (n - k) by omega, memRead_add, show k + (n - k) = n by omega] at hr
  rw [← hr, Nat.mul_comm, Nat.mul_add_div (by positivity), Nat.div_eq_of_lt (memRead_lt ..), Nat.add_zero]

/-- A write leaves a read of the bytes below it alone. -/
theorem memRead_memWrite_below {m : Memory} {a n x k : Nat} (h : Memory.wf m = true) (ha : a + n ≤ memSize)
    (hx : x + k ≤ a) (v : Nat) : memRead (memWrite m a n v) x k = memRead m x k :=
  memRead_congr fun _ _ => readByte_memWrite_outside h ha (.inl (by omega))

/-- A word just read is a WORD register's value as it is. -/
theorem toNat_narrowWord_memRead (w : WordWidth) (m : Memory) (a : Nat) {n : Nat} (hn : n ≤ w.bytes) :
    (narrowWord w (memRead m a n)).toNat = memRead m a n := by
  rw [toNat_narrowWord, Nat.mod_eq_of_lt]
  have hB := wordBits_eq w
  exact Nat.lt_of_lt_of_le (memRead_lt ..) (Nat.pow_le_pow_right (by omega) (by omega))

/-! ### The write engine -/

/-- The bits held in WE.WORD, as a multiple of 2^BITOFF (R24). -/
theorem heldBits (hok : s.we.ok s.width) :
    s.we.word.toNat = s.we.word.toNat / 2 ^ s.we.bitoff.toNat * 2 ^ s.we.bitoff.toNat := by
  have := Nat.div_add_mod s.we.word.toNat (2 ^ s.we.bitoff.toNat)
  rw [Nat.mul_comm]
  omega

/-- Appending keeps the write engine's invariant (R24 to R26). -/
theorem appendBits_ok {v n : Nat} (hok : s.we.ok s.width) (hn : n ≤ s.we.bitoff.toNat) :
    (appendBits s v n).we.ok s.width := by
  have hw := appendBits_word (v := v) hok hn
  have hb := appendBits_bitoff (s := s) v n
  have hh := heldBits hok
  obtain ⟨h1, h2, h3, h4⟩ := hok
  generalize hq : s.we.word.toNat / 2 ^ s.we.bitoff.toNat = q at hh
  have hsplit : (2 : Nat) ^ s.we.bitoff.toNat = 2 ^ n * 2 ^ (s.we.bitoff.toNat - n) := by
    rw [← Nat.pow_add]; congr 1; omega
  have hmul : (appendBits s v n).we.word.toNat =
      (q * 2 ^ n + v % 2 ^ n) * 2 ^ (s.we.bitoff.toNat - n) := by
    rw [hw, hh, hsplit]; ring
  refine ⟨?_, by rw [hb]; omega, by rw [hb, hmul, Nat.mul_mod_left], h4⟩
  have hlt : q < 2 ^ (s.width.bits - s.we.bitoff.toNat) := by
    rw [← hq, Nat.div_lt_iff_lt_mul (by positivity), ← Nat.pow_add]
    rwa [show s.width.bits - s.we.bitoff.toNat + s.we.bitoff.toNat = s.width.bits by omega]
  have hv : v % 2 ^ n < 2 ^ n := Nat.mod_lt _ (by positivity)
  have : q * 2 ^ n + v % 2 ^ n < 2 ^ (s.width.bits - s.we.bitoff.toNat) * 2 ^ n := by
    have := Nat.mul_le_mul_right (2 ^ n) hlt
    rw [Nat.succ_mul] at this
    omega
  rw [hmul]
  calc (q * 2 ^ n + v % 2 ^ n) * 2 ^ (s.we.bitoff.toNat - n)
      < 2 ^ (s.width.bits - s.we.bitoff.toNat) * 2 ^ n * 2 ^ (s.we.bitoff.toNat - n) :=
        Nat.mul_lt_mul_of_pos_right this (by positivity)
    _ = 2 ^ s.width.bits := by rw [← Nat.pow_add, ← Nat.pow_add]; congr 1; omega

/-- Appending n bits makes the stream n bits longer. -/
theorem appendBits_writtenBits {v n : Nat} (hb : s.we.bitoff.toNat ≤ s.width.bits) (hn : n ≤ s.we.bitoff.toNat) :
    (appendBits s v n).writtenBits = s.writtenBits + n := by
  simp only [State.writtenBits, appendBits_bitoff, appendBits_we_cursor, appendBits_we_start, appendBits_width]
  omega

/-- The held bits after appending: the bits held before, then the n bits (R102). -/
theorem appendBits_held {v n : Nat} (hok : s.we.ok s.width) (hn : n ≤ s.we.bitoff.toNat) :
    (appendBits s v n).we.word.toNat / 2 ^ (appendBits s v n).we.bitoff.toNat =
      s.we.word.toNat / 2 ^ s.we.bitoff.toNat * 2 ^ n + v % 2 ^ n := by
  rw [appendBits_word hok hn, appendBits_bitoff, Nat.add_mul_div_right _ _ (by positivity)]
  conv_lhs => rw [heldBits hok]
  rw [mul_two_pow_div (by omega)]
  congr 3
  omega

/-- Appending n bits puts them at the stream's end. -/
theorem appendBits_writtenValue {v n : Nat} (hok : s.we.ok s.width) (hn : n ≤ s.we.bitoff.toNat) :
    (appendBits s v n).writtenValue = s.writtenValue * 2 ^ n + v % 2 ^ n := by
  have hcut := appendBits_held (v := v) hok hn
  have h2 := hok.2.1
  simp only [State.writtenValue, appendBits_bitoff, appendBits_we_cursor, appendBits_we_start, appendBits_width,
    appendBits_mem] at hcut ⊢
  rw [hcut, show s.width.bits - (s.we.bitoff.toNat - n) = (s.width.bits - s.we.bitoff.toNat) + n by omega,
    Nat.pow_add]
  ring

/-- The register after a flush holds the partial byte alone (R101). -/
theorem flushedEngine_word_div (hok : s.we.ok s.width) :
    (flushedEngine s).word.toNat =
      s.we.word.toNat / 2 ^ s.we.bitoff.toNat % 2 ^ ((s.width.bits - s.we.bitoff.toNat) % 8) *
        2 ^ (s.width.bits - (s.width.bits - s.we.bitoff.toNat) % 8) := by
  have hh := heldBits hok
  have h2 := hok.2.1
  rw [flushedEngine_word]
  generalize hq : s.we.word.toNat / 2 ^ s.we.bitoff.toNat = q at *
  generalize hp : s.width.bits - s.we.bitoff.toNat = p at *
  rw [hh, Nat.mul_assoc, ← Nat.pow_add, show s.we.bitoff.toNat + 8 * (p / 8) = s.width.bits - p % 8 by omega]
  rw [show (2 : Nat) ^ s.width.bits = 2 ^ (p % 8) * 2 ^ (s.width.bits - p % 8) by
    rw [← Nat.pow_add]; congr 1; omega]
  rw [show s.width.bits - p % 8 = s.width.bits - p % 8 from rfl, Nat.mul_mod_mul_right]

/-- A flush keeps the write engine's invariant. -/
theorem flushedEngine_ok (hok : s.we.ok s.width) : (flushedEngine s).ok s.width := by
  have hw := flushedEngine_word_div hok
  have hb := flushedEngine_bitoff hok.2.1
  have hc := flushedEngine_cursor (s := s)
  obtain ⟨h1, h2, h3, h4⟩ := hok
  have hr := wordBits_range s.width
  refine ⟨?_, by rw [hb]; omega, by rw [hb, hw, Nat.mul_mod_left], fun hv => ?_⟩
  · rw [flushedEngine_word]; exact Nat.mod_lt _ (by positivity)
  · obtain ⟨g1, g2, g3, g4, g5⟩ := h4 hv
    simp only [bufferOk, flushedEngine_start, flushedEngine_bufEnd, hc]
    omega

/-- A flush that is not clamped leaves the stream's length as it is. -/
theorem flush_writtenBits (hok : s.we.ok s.width) (hv : s.we.valid = true)
    (hc : s.we.cursor.toNat + (s.width.bits - s.we.bitoff.toNat) / 8 ≤ s.we.bufEnd.toNat) (h : flush s = .ok t) :
    t.writtenBits = s.writtenBits := by
  obtain ⟨-, rfl⟩ := flush_eq_ok.mp h
  have hb := flushedEngine_bitoff hok.2.1
  have hcu := flushedEngine_cursor (s := s)
  have h2 := hok.2.1
  have hr := wordBits_range s.width
  obtain ⟨g1, -⟩ := hok.2.2.2 hv
  simp only [State.writtenBits, hb, hcu, flushedEngine_start]
  omega

/-- A flush that is not clamped leaves the stream as it is. -/
theorem flush_writtenValue (hok : s.we.ok s.width) (hv : s.we.valid = true) (hm : s.mem.wf = true)
    (hc : s.we.cursor.toNat + (s.width.bits - s.we.bitoff.toNat) / 8 ≤ s.we.bufEnd.toNat) (h : flush s = .ok t) :
    t.writtenValue = s.writtenValue := by
  obtain ⟨hfit, rfl⟩ := flush_eq_ok.mp h
  have hb := flushedEngine_bitoff hok.2.1
  have hcu := flushedEngine_cursor (s := s)
  have hwd := flushedEngine_word_div hok
  have hh := heldBits hok
  have h1 := hok.1
  have h2 := hok.2.1
  have hr := wordBits_range s.width
  have hB := wordBits_eq s.width
  obtain ⟨g1, -⟩ := hok.2.2.2 hv
  simp only [State.writtenValue, hb, hcu, hwd, flushedEngine_start, Nat.min_eq_left hc]
  generalize hq : s.we.word.toNat / 2 ^ s.we.bitoff.toNat = q at *
  generalize hp : s.width.bits - s.we.bitoff.toNat = p at *
  rw [Nat.mul_div_cancel _ (by positivity), show s.we.cursor.toNat + p / 8 - s.we.start.toNat =
    (s.we.cursor.toNat - s.we.start.toNat) + p / 8 by omega, memRead_add,
    memRead_memWrite_below hm hfit (by omega),
    show s.we.start.toNat + (s.we.cursor.toNat - s.we.start.toNat) = s.we.cursor.toNat by omega,
    memRead_memWrite_prefix hm hfit (by omega), ← hB, Nat.mod_eq_of_lt h1, hh,
    mul_two_pow_div' (by omega), show 8 * (s.width.bytes - p / 8) - s.we.bitoff.toNat = p % 8 by omega,
    show s.width.bits - (s.width.bits - p % 8) = p % 8 by omega]
  have hqq := Nat.div_add_mod q (2 ^ (p % 8))
  have hpp : (2 : Nat) ^ p = 2 ^ (8 * (p / 8)) * 2 ^ (p % 8) := by rw [← Nat.pow_add]; congr 1; omega
  rw [hpp, Nat.add_mul]
  conv_rhs => rw [← hqq]
  ring

/-! ### The read engine -/

/-- Consuming keeps the read engine's invariant (R28, R29). -/
theorem consumeBits_ok (n : Nat) (hok : s.re.ok s.width) : (consumeBits s n).re.ok s.width := by
  obtain ⟨h1, h2, h3⟩ := hok
  exact ⟨h1, by rw [consumeBits_bitoff]; omega, h3⟩

/-- Consuming n bits makes the unread stream n bits shorter. -/
theorem consumeBits_unreadBits {n : Nat} (hn : n ≤ s.re.bitoff.toNat) :
    (consumeBits s n).unreadBits = s.unreadBits - n := by
  simp only [State.unreadBits, consumeBits_bitoff, consumeBits_re_cursor, consumeBits_re_bufEnd]
  omega

/-- The bits a peek answers, followed by the bits that stay, are the unread stream. -/
theorem consumeBits_unreadValue {n : Nat} (hn : n ≤ s.re.bitoff.toNat) :
    s.unreadValue = peekBits s n * 2 ^ (s.unreadBits - n) + (consumeBits s n).unreadValue := by
  simp only [State.unreadValue, State.unreadBits, consumeBits_bitoff, consumeBits_re_cursor, consumeBits_re_bufEnd,
    consumeBits_re_word, consumeBits_mem, consumeBits_width, peekBits_eq]
  rw [mod_two_pow_split s.re.word.toNat hn, show s.re.bitoff.toNat + 8 * (s.re.bufEnd.toNat - s.re.cursor.toNat) - n =
    (s.re.bitoff.toNat - n) + 8 * (s.re.bufEnd.toNat - s.re.cursor.toNat) by omega, Nat.pow_add]
  ring

/-- Consuming keeps the available bits the ones MEM holds. -/
theorem consumeBits_coherent (n : Nat) (h : s.readerCoherent) : (consumeBits s n).readerCoherent := by
  intro hc
  have hd : 2 ^ (s.re.bitoff.toNat - n) ∣ 2 ^ s.re.bitoff.toNat := Nat.pow_dvd_pow _ (by omega)
  rw [consumeBits_bitoff]
  have := congrArg (· % 2 ^ (s.re.bitoff.toNat - n)) (h hc)
  simpa [Nat.mod_mod_of_dvd _ hd] using this

/-- The unread stream as one read of MEM, k consumed bytes past the cursor. -/
theorem unreadValue_eq {k : Nat} (h : s.readerCoherent) (hc : s.re.cursor.toNat < s.re.bufEnd.toNat)
    (hk : k ≤ s.width.bytes) (hb : s.re.bitoff.toNat ≤ 8 * (s.width.bytes - k)) :
    s.unreadValue =
      memRead s.mem (s.re.cursor.toNat + k) (s.width.bytes - k + (s.re.bufEnd.toNat - s.re.cursor.toNat)) %
        2 ^ s.unreadBits := by
  have hm := memRead_add s.mem s.re.cursor.toNat k (s.width.bytes - k)
  rw [show k + (s.width.bytes - k) = s.width.bytes by omega] at hm
  have hd : 2 ^ s.re.bitoff.toNat ∣ 2 ^ (8 * (s.width.bytes - k)) := Nat.pow_dvd_pow _ hb
  rw [State.unreadValue, h hc, hm, Nat.add_mod, Nat.mod_eq_zero_of_dvd (Dvd.dvd.mul_left hd _), Nat.zero_add,
    Nat.mod_mod, mod_mul_add _ _ (memRead_lt ..), memRead_add,
    show s.re.cursor.toNat + k + (s.width.bytes - k) = s.re.cursor.toNat + s.width.bytes by omega]
  rfl

/-- A reload keeps the read engine's invariant. -/
theorem reload_ok {st : ReloadStatus} (hok : s.re.ok s.width) (hv : s.re.valid = true)
    (h : reload s = .ok (t, st)) : t.re.ok s.width := by
  obtain ⟨h1, h2, h3⟩ := hok
  obtain ⟨g1, g2, g3, g4, g5⟩ := h3 hv
  have hr := wordBits_range s.width
  have hB := wordBits_eq s.width
  have hlt := s.re.bufEnd.isLt
  have ha := reloadAddr_eq s
  by_cases hce : s.re.cursor = s.re.bufEnd
  · rw [reload_at_end hce] at h; cases h; exact ⟨h1, h2, h3⟩
  · have hne : s.re.cursor.toNat ≠ s.re.bufEnd.toNat := fun e => hce (BitVec.eq_of_toNat_eq e)
    by_cases hc : reloadAddr s ≤ s.re.bufEnd.toNat
    · rw [reload_full hce hc g4] at h; cases h
      refine ⟨by rw [toNat_narrowWord]; exact Nat.mod_lt _ (by positivity), ?_, fun _ => ?_⟩
      · rw [toNat_narrowBitoff (by omega)]; omega
      · simp only [bufferOk]; rw [toNat_narrowAddr (by omega)]; omega
    · rw [reload_tail hce (by omega) (by omega) g4] at h; cases h
      refine ⟨by rw [toNat_narrowWord]; exact Nat.mod_lt _ (by positivity), ?_, fun _ => ?_⟩
      · rw [toNat_narrowBitoff (by omega)]; omega
      · simp only [bufferOk]; omega

/-- From an initialised engine a reload answers: it never leaves MEM (R57). -/
theorem exists_reload (hok : s.re.ok s.width) (hv : s.re.valid = true) : ∃ t st, reload s = .ok (t, st) := by
  obtain ⟨h1, h2, h3⟩ := hok
  obtain ⟨g1, g2, g3, g4, g5⟩ := h3 hv
  have hB := wordBits_eq s.width
  have ha := reloadAddr_eq s
  by_cases hce : s.re.cursor = s.re.bufEnd
  · exact ⟨_, _, reload_at_end hce⟩
  · by_cases hc : reloadAddr s ≤ s.re.bufEnd.toNat
    · exact ⟨_, _, reload_full hce hc g4⟩
    · exact ⟨_, _, reload_tail hce (by omega) (by omega) g4⟩

/-- A reload keeps the unread stream's length, whatever MEM holds (R121). -/
theorem reload_unreadBits {st : ReloadStatus} (hok : s.re.ok s.width) (hv : s.re.valid = true)
    (h : reload s = .ok (t, st)) : t.unreadBits = s.unreadBits := by
  obtain ⟨h1, h2, h3⟩ := hok
  obtain ⟨g1, g2, g3, g4, g5⟩ := h3 hv
  have hr := wordBits_range s.width
  have hB := wordBits_eq s.width
  have hlt := s.re.bufEnd.isLt
  have ha := reloadAddr_eq s
  have hcd : consumedBits s = s.width.bits - s.re.bitoff.toNat := rfl
  by_cases hce : s.re.cursor = s.re.bufEnd
  · rw [reload_at_end hce] at h; cases h; rfl
  · have hne : s.re.cursor.toNat ≠ s.re.bufEnd.toNat := fun e => hce (BitVec.eq_of_toNat_eq e)
    by_cases hc : reloadAddr s ≤ s.re.bufEnd.toNat
    · rw [reload_full hce hc g4] at h; cases h
      simp only [State.unreadBits]
      rw [toNat_narrowBitoff (by omega), toNat_narrowAddr (by omega)]
      omega
    · rw [reload_tail hce (by omega) (by omega) g4] at h; cases h
      simp only [State.unreadBits]
      rw [toNat_narrowBitoff (by omega)]
      omega

/-- A reload keeps the unread stream's length, its bits, and their agreement with MEM (R121). -/
theorem reload_unread {st : ReloadStatus} (hok : s.re.ok s.width) (hv : s.re.valid = true) (hco : s.readerCoherent)
    (h : reload s = .ok (t, st)) :
    t.unreadBits = s.unreadBits ∧ t.unreadValue = s.unreadValue ∧ t.readerCoherent := by
  have hbits := reload_unreadBits hok hv h
  obtain ⟨h1, h2, h3⟩ := hok
  obtain ⟨g1, g2, g3, g4, g5⟩ := h3 hv
  have hr := wordBits_range s.width
  have hB := wordBits_eq s.width
  have hlt := s.re.bufEnd.isLt
  have ha := reloadAddr_eq s
  by_cases hce : s.re.cursor = s.re.bufEnd
  · rw [reload_at_end hce] at h; cases h; exact ⟨rfl, rfl, hco⟩
  · have hne : s.re.cursor.toNat ≠ s.re.bufEnd.toNat := fun e => hce (BitVec.eq_of_toNat_eq e)
    have hcd : consumedBits s = s.width.bits - s.re.bitoff.toNat := rfl
    by_cases hc : reloadAddr s ≤ s.re.bufEnd.toNat
    · rw [reload_full hce hc g4] at h; cases h
      have hcoh : State.readerCoherent { s with re := { s.re with
          cursor := narrowAddr (reloadAddr s)
          word := narrowWord s.width (memRead s.mem (reloadAddr s) s.width.bytes)
          bitoff := narrowBitoff (s.width.bits - consumedBits s % 8) } } := by
        intro _
        simp only
        rw [toNat_narrowWord_memRead _ _ _ (Nat.le_refl _), toNat_narrowAddr (by omega)]
      refine ⟨hbits, ?_, hcoh⟩
      rw [unreadValue_eq (k := (s.width.bits - s.re.bitoff.toNat) / 8) hco (by omega) (by omega) (by omega), ← hbits]
      simp only [State.unreadValue, State.unreadBits]
      rw [toNat_narrowBitoff (by omega), toNat_narrowAddr (by omega),
        toNat_narrowWord_memRead _ _ _ (Nat.le_refl _), mod_mul_add _ _ (memRead_lt ..), ← memRead_add, ha]
      congr 2
      omega
    · rw [reload_tail hce (by omega) (by omega) g4] at h; cases h
      refine ⟨hbits, ?_, fun hc' => absurd hc' (Nat.lt_irrefl _)⟩
      · rw [unreadValue_eq (k := (s.width.bits - s.re.bitoff.toNat) / 8) hco (by omega) (by omega) (by omega)]
        simp only [State.unreadValue, State.unreadBits, Nat.sub_self, Nat.mul_zero, Nat.pow_zero, Nat.mul_one,
          memRead_zero, Nat.add_zero]
        rw [toNat_narrowBitoff (by omega), toNat_narrowWord_memRead _ _ _ (by omega), ← ha]
        congr 2 <;> omega

/-! ### Whole procedures -/

/-- A flush of a state of the invariant stays inside MEM (R59, R101). -/
theorem flush_of_inv (hI : s.Inv) (hv : s.we.valid = true) :
    flush s = .ok
      { s with mem := memWrite s.mem s.we.cursor.toNat s.width.bytes s.we.word.toNat, we := flushedEngine s } := by
  obtain ⟨g1, g2, g3, g4, g5⟩ := hI.we.2.2.2 hv
  exact flush_of_fits (by omega)

/-- A Put whose flush is not clamped appends its n bits to the stream (R53, R102). -/
theorem put_stream {v n : Nat} (hok : s.we.ok s.width) (hm : s.mem.wf = true) (hv : s.we.valid = true)
    (hc : s.we.cursor.toNat + (s.width.bits - s.we.bitoff.toNat) / 8 ≤ s.we.bufEnd.toNat)
    (hp : put s v n = .ok t) :
    t.writtenBits = s.writtenBits + n ∧ t.writtenValue = s.writtenValue * 2 ^ n + v % 2 ^ n := by
  rcases put_eq_ok.mp hp with ⟨hb, rfl⟩ | ⟨hb, u, hu, hroom, rfl⟩
  · exact ⟨appendBits_writtenBits hok.2.1 hb, appendBits_writtenValue hok hb⟩
  · have hb := flush_writtenBits hok hv hc hu
    have hval := flush_writtenValue hok hv hm hc hu
    obtain ⟨-, rfl⟩ := flush_eq_ok.mp hu
    have hok' := flushedEngine_ok hok
    exact ⟨by rw [appendBits_writtenBits hok'.2.1 hroom, hb], by rw [appendBits_writtenValue hok' hroom, hval]⟩

/-- The bits that survive a Put's own flush, cut to the bits pending after it: the flush drops whole bytes only
(R101, R102). -/
theorem pending_mod {q p n v : Nat} (hv : v < 2 ^ n) :
    (q % 2 ^ (p % 8) * 2 ^ n + v) % 2 ^ ((p + n) % 8) = (q * 2 ^ n + v) % 2 ^ ((p + n) % 8) := by
  rw [mod_mul_add _ _ hv, Nat.mod_mod_of_dvd _ (Nat.pow_dvd_pow 2 (by omega))]

/-- What a Put leaves: a good engine over the same buffer, and MEM as it was outside the buffer (R57, R102). -/
theorem put_effect {v n : Nat} (hok : s.we.ok s.width) (hm : s.mem.wf = true) (hv : s.we.valid = true)
    (hp : put s v n = .ok t) :
    t.we.ok t.width ∧ t.mem.wf = true ∧ t.width = s.width ∧ t.we.valid = true ∧ t.we.start = s.we.start ∧
    t.we.bufEnd = s.we.bufEnd ∧
    (∀ x, (x < s.we.start.toNat ∨ s.we.bufEnd.toNat + s.width.bytes ≤ x) → readByte t.mem x = readByte s.mem x) ∧
    s.we.cursor.toNat ≤ t.we.cursor.toNat := by
  have hok0 := hok
  obtain ⟨h1, h2, h3, h4⟩ := hok
  obtain ⟨g1, g2, g3, g4, g5⟩ := h4 hv
  rcases put_eq_ok.mp hp with ⟨hb, rfl⟩ | ⟨hb, u, hu, hroom, rfl⟩
  · exact ⟨appendBits_ok hok0 hb, hm, rfl, hv, rfl, rfl, fun _ _ => rfl, Nat.le_refl _⟩
  · obtain ⟨hfit, rfl⟩ := flush_eq_ok.mp hu
    refine ⟨appendBits_ok (flushedEngine_ok hok0) hroom, wf_memWrite hm hfit, rfl, hv, rfl, rfl,
        fun x hx => readByte_memWrite_outside hm hfit (by omega), ?_⟩
    rw [appendBits_we_cursor]; simp only [flushedEngine_cursor]; omega

/-- The top byte of a register shifted up by whole bytes. -/
theorem div_top_byte {X W f : Nat} (h : 8 * f + 8 ≤ W) :
    X * 2 ^ (8 * f) % 2 ^ W / 2 ^ (W - 8) = X / 2 ^ (W - 8 * f - 8) % 256 := by
  rw [show (2 : Nat) ^ W = 2 ^ (W - 8 * f) * 2 ^ (8 * f) by rw [← Nat.pow_add]; congr 1; omega, Nat.mul_mod_mul_right,
    mul_two_pow_div' (by omega), show (2 : Nat) ^ (W - 8 * f) = 2 ^ (W - 8 * f - 8) * 256 by
      rw [show W - 8 * f = (W - 8 * f - 8) + 8 by omega, Nat.pow_add]; norm_num,
    show W - 8 - 8 * f = W - 8 * f - 8 by omega, Nat.mod_mul_right_div_self]

/-- RE_READ reloads exactly when fewer than n bits are available, and the reload never stops the model (R125). -/
theorem refill_cases {n : Nat} (hok : s.re.ok s.width) (hv : s.re.valid = true) :
    (n ≤ s.re.bitoff.toNat ∧ refill s n = .ok s) ∨
      (s.re.bitoff.toNat < n ∧ ∃ t st, reload s = .ok (t, st) ∧
        refill s n = .ok { t with re := { t.re with rstat := st } }) := by
  by_cases h : s.re.bitoff.toNat < n
  · obtain ⟨t, st, ht⟩ := exists_reload hok hv
    exact .inr ⟨h, t, st, ht, (refill_eq_ok_of_short h).mpr ⟨st, reloadRecorded_eq_ok.mpr ⟨t, ht, rfl⟩⟩⟩
  · exact .inl ⟨by omega, refill_of_enough (by omega)⟩

/-- The available bits after each case of a reload (R121). -/
theorem reload_bitoff {st : ReloadStatus} (hok : s.re.ok s.width) (hv : s.re.valid = true)
    (h : reload s = .ok (t, st)) :
    (s.re.cursor = s.re.bufEnd ∧ t = s) ∨
    (s.re.cursor ≠ s.re.bufEnd ∧
      s.re.cursor.toNat + (s.width.bits - s.re.bitoff.toNat) / 8 ≤ s.re.bufEnd.toNat ∧
      t.re.bitoff.toNat = s.width.bits - (s.width.bits - s.re.bitoff.toNat) % 8) ∨
    (s.re.cursor ≠ s.re.bufEnd ∧
      s.re.bufEnd.toNat < s.re.cursor.toNat + (s.width.bits - s.re.bitoff.toNat) / 8 ∧
      t.re.bitoff.toNat = s.unreadBits) := by
  obtain ⟨h1, h2, h3⟩ := hok
  obtain ⟨g1, g2, g3, g4, g5⟩ := h3 hv
  have hr := wordBits_range s.width
  have hB := wordBits_eq s.width
  have ha := reloadAddr_eq s
  have hcd : consumedBits s = s.width.bits - s.re.bitoff.toNat := rfl
  by_cases hce : s.re.cursor = s.re.bufEnd
  · rw [reload_at_end hce] at h; cases h; exact .inl ⟨hce, rfl⟩
  · have hne : s.re.cursor.toNat ≠ s.re.bufEnd.toNat := fun e => hce (BitVec.eq_of_toNat_eq e)
    by_cases hc : reloadAddr s ≤ s.re.bufEnd.toNat
    · rw [reload_full hce hc g4] at h; cases h
      refine .inr (.inl ⟨hce, by omega, ?_⟩)
      rw [toNat_narrowBitoff (by omega)]; rfl
    · rw [reload_tail hce (by omega) (by omega) g4] at h; cases h
      refine .inr (.inr ⟨hce, by omega, ?_⟩)
      rw [toNat_narrowBitoff (by omega), State.unreadBits]; omega

end Sys2Proof.Machine
end

