-- ==== Sys2Proof/Tests/Slice0.lean ====
section
/-! SUPPORT. The model's own tests: the static checks, the decoding of every command's word, one or two single
steps per command, and a witness for the hypotheses of every statement. Expected results are the vectors of
spec/95_test_vectors.md, or hand calculations from the rule named in the docstring. -/

namespace Sys2Proof.Tests

set_option Elab.async false

open Sys2Proof Sys2Proof.Machine

/-! ### Helpers -/

/-- The next state of an outcome, none when the model stops. -/
def answer : StepOutcome → Option State
  | .next t => some t
  | _ => none

/-- The outcome is a next state that passes a check. -/
def leads (o : StepOutcome) (p : State → Bool) : Bool := (answer o).any p

theorem exists_next {o : StepOutcome} {p : State → Bool} (h : leads o p = true) : ∃ t, o = .next t ∧ p t = true := by
  cases o with
  | next t => exact ⟨t, rfl, by simpa [leads, answer] using h⟩
  | fault r => simp [leads, answer] at h
  | refused r => simp [leads, answer] at h

theorem exists_of_any {o : Option State} {p : State → Bool} (h : o.any p = true) : ∃ t, o = some t ∧ p t = true := by
  cases o with
  | none => simp at h
  | some t => exact ⟨t, rfl, by simpa using h⟩

/-- The latest response as two numbers. -/
def rsp (t : State) : Nat × Nat :=
  match t.responses with
  | r :: _ => (r.rcode.toNat, r.rdata.toNat)
  | [] => (0xFFFF, 0)

/-- WORD, BITOFF and CURSOR of the write engine. -/
def weRegs (t : State) : Nat × Nat × Nat := (t.we.word.toNat, t.we.bitoff.toNat, t.we.cursor.toNat)

/-- WORD, BITOFF, CURSOR and RSTAT of the read engine. -/
def reRegs (t : State) : Nat × Nat × Nat × Nat :=
  (t.re.word.toNat, t.re.bitoff.toNat, t.re.cursor.toNat, t.re.rstat.code.toNat)

/-- BLK_STATUS. -/
def blkStatus (t : State) : Nat := t.blk.toWord.toNat

/-- A state after reset with the write engine over the 24 + B bytes at 0x1000. -/
def writer (w : WordWidth) (word bitoff cursor : Nat) : State :=
  { State.resetAt w with we := {
      valid := true, word := BitVec.ofNat 64 word, bitoff := BitVec.ofNat 7 bitoff, start := 0x1000
      cursor := BitVec.ofNat 32 cursor, bufEnd := 0x1018 } }

/-- A state after reset with the read engine over a buffer of a memory. -/
def reader (w : WordWidth) (m : Memory) (word bitoff start cursor bufEnd : Nat) : State :=
  { State.resetAt w with mem := m, re := {
      valid := true, word := BitVec.ofNat 64 word, bitoff := BitVec.ofNat 7 bitoff, start := BitVec.ofNat 32 start
      cursor := BitVec.ofNat 32 cursor, bufEnd := BitVec.ofNat 32 bufEnd, rstat := .incomplete } }

/-- The stream of 95_test_vectors §1.1 at 0x100. -/
def streamMem : Memory := memWrite [] 0x100 16 0xB38F0B38F0B38F0B38F0B38F0B38F0FF

/-- The twelve bytes at 0x10 of §2.3. -/
def tailMem : Memory := memWrite [] 0x10 12 0x112233445566778899AABBCC

/-- A state after reset with some counts in FN.RAW. -/
def counted (l : List (Symbol × Counter)) : State :=
  { State.resetAt .w64 with fn := { Normalizer.reset with raw := l.foldl (fun t p => t.put p.1 p.2) Table.zero } }

theorem entry_counted (a b c i : Symbol) (x y z : Counter) :
    (counted [(a, x), (b, y), (c, z)]).fn.raw.entry i = if i = c then z else if i = b then y else if i = a then x else 0 := by
  simp [counted, entry_put, entry_zero]

theorem entry_counted_four (a b c d i : Symbol) (x y z w : Counter) :
    (counted [(a, x), (b, y), (c, z), (d, w)]).fn.raw.entry i =
      if i = d then w else if i = c then z else if i = b then y else if i = a then x else 0 := by
  simp [counted, entry_put, entry_zero]

theorem entry_counted_one (a i : Symbol) (x : Counter) :
    (counted [(a, x)]).fn.raw.entry i = if i = a then x else 0 := by
  simp [counted, entry_put, entry_zero]

/-- A halted state (NOTINIT). -/
def haltedState : State := (State.resetAt .w64).faulted 0x12

/-- A state with one host move to come. -/
def facing (m : HostMove) (s : State) : State := { s with moves := [m] }

theorem normalizer_reset_ok : Normalizer.reset.ok :=
  ⟨by decide, by decide, fun i => by rw [show Normalizer.reset.raw.entry i = 0 from entry_zero i]; decide, by decide⟩

theorem inv_of_units {s : State} (hb : s.blk.ok) (hw : s.we.ok s.width) (hr : s.re.ok s.width)
    (hf : s.fn = .reset) (hm : s.mem.wf = true) : s.Inv :=
  ⟨hb, hw, hr, hf ▸ normalizer_reset_ok, hm⟩

/-! ### The static checks (R78, R87) -/

theorem test_wellFormed_refuses_bitcount_27 :
    (Instr.weWrite 1 27).wellFormed = false ∧ (Instr.weClose 1 27).wellFormed = false ∧
    (Instr.rePeek 27).wellFormed = false ∧ (Instr.reConsume 31).wellFormed = false ∧
    (Instr.reRead 27).wellFormed = false := by decide

theorem test_wellFormed_refuses_unmapped_index :
    (Instr.rdState 0x02).wellFormed = false ∧ (Instr.rdState 0x27).wellFormed = false := by decide

theorem test_wellFormed_accepts :
    (Instr.weWrite 1 26).wellFormed = true ∧ (Instr.reRead 0).wellFormed = true ∧
    (Instr.rdState 0x31).wellFormed = true := by decide

/-! ### Decoding: every command's word as §2.5 prints it -/

theorem test_decode_nop : decode 0x0000000000000000 = .ok .nop := by decide
theorem test_decode_rdState : decode 0x0100000000000026 = .ok (.rdState 0x26) := by decide
theorem test_decode_weInit : decode 0x1000002000001000 = .ok (.weInit 0x1000 32) := by decide
theorem test_decode_weWrite : decode 0x110000040000000C = .ok (.weWrite 12 4) := by decide
theorem test_decode_weFlush : decode 0x1200000000000000 = .ok .weFlush := by decide
theorem test_decode_weClose : decode 0x13000008000000FF = .ok (.weClose 255 8) := by decide
theorem test_decode_reInit : decode 0x2000001000001000 = .ok (.reInit 0x1000 16) := by decide
theorem test_decode_rePeek : decode 0x2100000200000000 = .ok (.rePeek 2) := by decide
theorem test_decode_reConsume : decode 0x2200000200000000 = .ok (.reConsume 2) := by decide
theorem test_decode_reRead : decode 0x2300001A00000000 = .ok (.reRead 26) := by decide
theorem test_decode_reReload : decode 0x2400000000000000 = .ok .reReload := by decide
theorem test_decode_reClose : decode 0x2500000000000000 = .ok .reClose := by decide
theorem test_decode_fnCount : decode 0x3000000B00002000 = .ok (.fnCount 0x2000 11) := by decide
theorem test_decode_fnNorm : decode 0x3100000000001000 = .ok (.fnNorm 4096) := by decide
theorem test_decode_fnRdRaw : decode 0x3200000000000061 = .ok (.fnRdRaw 0x61) := by decide
theorem test_decode_fnRdNorm : decode 0x33000000000000FF = .ok (.fnRdNorm 0xFF) := by decide

/-- The reserved words of §2.5. -/
theorem test_decode_rejects :
    decode 0x0000000000000001 = .error (.reservedBits "NOP") ∧
    decode 0x0200000000000000 = .error (.reservedOpcode 0x02) ∧
    decode 0xFF00000000000000 = .error (.reservedOpcode 0xFF) ∧
    decode 0x1100002000000001 = .error (.reservedBits "WE_WRITE") ∧
    decode 0x2100000200000001 = .error (.reservedBits "RE_PEEK") ∧
    decode 0x3100000100000005 = .error (.reservedBits "FN_NORM") ∧
    decode 0x3200000000000161 = .error (.reservedBits "FN_RDRAW") := by decide

theorem test_decodeTableWord : decodeTableWord 64 0x110000040000000C = some (.weWrite 12 4) := by decide

/-- A word placed by `withFetchWord` is the next step's command (§2.5: `rd.state 0x31`). -/
theorem test_withFetchWord :
    leads (step (State.reset.withFetchWord 64 0x0100000000000031)) (fun t => decide (rsp t = (0, 0x100))) = true := by
  decide +kernel

/-! ### One step of each command (§2.1 to §2.5) -/

theorem test_nop : leads (exec .nop haltedState) (fun t => decide (rsp t = (0, 0))) = true := by decide +kernel

theorem test_rdState :
    leads (exec (.rdState 0x15) (writer .w64 0 64 0x1000)) (fun t => decide (rsp t = (0, 0x1018))) = true := by
  decide +kernel

theorem test_rdState_unmapped :
    leads (exec (.rdState 0x27) .reset) (fun t => decide (rsp t = (0x10, 0) ∧ blkStatus t = 0x1001)) = true := by
  decide +kernel

theorem test_weInit_smallest :
    leads (exec (.weInit 0x1000 9) .reset) (fun t =>
      decide (rsp t = (0, 0) ∧ weRegs t = (0, 64, 0x1000) ∧ t.we.bufEnd = 0x1001 ∧ t.we.valid = true)) = true := by
  decide +kernel

theorem test_weInit_capacity_keeps_registers :
    leads (exec (.weInit 0x1000 8) (writer .w64 0xC000000000000000 62 0x1000)) (fun t =>
      decide (rsp t = (1, 0) ∧ weRegs t = (0xC000000000000000, 62, 0x1000) ∧ t.we.valid = false)) = true := by
  decide +kernel

theorem test_weWrite :
    leads (exec (.weWrite 12 4) (writer .w64 0x8000000000000000 62 0x1000)) (fun t =>
      decide (rsp t = (0, 0) ∧ weRegs t = (0xB000000000000000, 58, 0x1000))) = true := by decide +kernel

theorem test_weWrite_flushes :
    leads (exec (.weWrite 0x3FFFFFF 26) (writer .w64 0xFFFFFFFFFFFFF000 12 0x1008)) (fun t =>
      decide (weRegs t = (0xFFFFFFFC00000000, 34, 0x100E) ∧ memRead t.mem 0x1008 8 = 0xFFFFFFFFFFFFF000)) = true := by
  decide +kernel

theorem test_weFlush :
    leads (exec .weFlush (writer .w64 0xB38F000000000000 44 0x1000)) (fun t =>
      decide (weRegs t = (0, 60, 0x1002) ∧ memRead t.mem 0x1000 8 = 0xB38F000000000000)) = true := by decide +kernel

/-- A full register: the shift by W gives 0 (D10). -/
theorem test_weFlush_full :
    leads (exec .weFlush (writer .w64 0xDEADBEEF01234567 0 0x1000)) (fun t =>
      decide (weRegs t = (0, 64, 0x1008) ∧ memRead t.mem 0x1000 8 = 0xDEADBEEF01234567)) = true := by decide +kernel

theorem test_weClose :
    leads (exec (.weClose 0xCD 8) (writer .w64 0xAB00000000000000 56 0x1000)) (fun t =>
      decide (rsp t = (0, 2) ∧ weRegs t = (0, 64, 0x1002) ∧ memRead t.mem 0x1000 3 = 0xABCD00)) = true := by
  decide +kernel

/-- The cursor reaches END: OVERFLOW (R104; END is 0x1018). -/
theorem test_weClose_overflow :
    leads (exec (.weClose 0 0) (writer .w64 0xFFFFFFFF00000000 32 0x1014)) (fun t =>
      decide (rsp t = (2, 0) ∧ weRegs t = (0, 64, 0x1018))) = true := by decide +kernel

theorem test_reInit :
    leads (exec (.reInit 0x100 16) { State.resetAt .w64 with mem := streamMem }) (fun t =>
      decide (rsp t = (0, 0) ∧ reRegs t = (0xB38F0B38F0B38F0B, 64, 0x100, 0) ∧ t.re.bufEnd = 0x108)) = true := by
  decide +kernel

theorem test_reInit_badarg :
    leads (exec (.reInit 0xFFFFFFFF 9) .reset) (fun t => decide (rsp t = (0x15, 0) ∧ blkStatus t = 0x1501)) = true := by
  decide +kernel

/-- The reader of §2.3 over the 16 bytes at 0x100, with `bitoff` bits available. -/
def streamReader (bitoff : Nat) : State := reader .w64 streamMem 0xB38F0B38F0B38F0B bitoff 0x100 0x100 0x108

/-- The reader of §2.3 over the 12 bytes at 0x10 after its tail reload. -/
def tailReader (bitoff : Nat) : State := reader .w64 tailMem 0x8899AABBCC bitoff 0x10 0x14 0x14

theorem test_rePeek :
    leads (exec (.rePeek 26) (streamReader 64)) (fun t => decide (rsp t = (0, 0x2CE3C2C))) = true := by decide +kernel

theorem test_rePeek_exhaust :
    leads (exec (.rePeek 13) (streamReader 12)) (fun t => decide (rsp t = (0x14, 0) ∧ t.re.bitoff = 12)) = true := by
  decide +kernel

theorem test_reConsume :
    leads (exec (.reConsume 2) (streamReader 64)) (fun t =>
      decide (rsp t = (0, 0) ∧ reRegs t = (0xB38F0B38F0B38F0B, 62, 0x100, 0))) = true := by decide +kernel

theorem test_reRead_reloads :
    leads (exec (.reRead 8) (streamReader 4)) (fun t =>
      decide (rsp t = (0, 0xB3) ∧ reRegs t = (0x0B38F0B38F0B38F0, 52, 0x107, 0))) = true := by decide +kernel

/-- W = 32: after the reload 7 bits are still partly consumed, so 26 do not fit. -/
theorem test_reRead_exhaust_w32 :
    leads (exec (.reRead 26) (reader .w32 (memWrite [] 0x80 16 (2 ^ 128 - 1)) 0xFFFFFFFF 1 0x80 0x80 0x8C)) (fun t =>
      decide (rsp t = (0x14, 0) ∧ reRegs t = (0xFFFFFFFF, 1, 0x80, 0))) = true := by decide +kernel

theorem test_reReload_full :
    leads (exec .reReload (streamReader 44)) (fun t =>
      decide (rsp t = (0, 0) ∧ reRegs t = (0x0B38F0B38F0B38F0, 60, 0x102, 0))) = true := by decide +kernel

theorem test_reReload_tail :
    leads (exec .reReload (reader .w64 tailMem 0x1122334455667788 4 0x10 0x10 0x14)) (fun t =>
      decide (rsp t = (0, 1) ∧ reRegs t = (0x8899AABBCC, 36, 0x14, 1))) = true := by decide +kernel

theorem test_reClose :
    leads (exec .reClose (tailReader 0)) (fun t => decide (rsp t = (0, 1))) = true ∧
    leads (exec .reClose (tailReader 4)) (fun t => decide (rsp t = (0, 0))) = true := by decide +kernel

/-- "abracadabra" at 0x2000. -/
theorem test_fnCount :
    leads (exec (.fnCount 0x2000 11)
        { State.resetAt .w64 with mem := memWrite [] 0x2000 11 0x6162726163616461627261 }) (fun t =>
      decide (rsp t = (0, 0) ∧ t.fn.raw.entry 0x61 = 5 ∧ t.fn.raw.entry 0x62 = 2 ∧ t.fn.raw.entry 0x72 = 2 ∧
        t.fn.raw.entry 0x7A = 0 ∧ t.fn.nvalid = false)) = true := by decide +kernel

/-- A state after reset whose FN.RAW begins with some counts. -/
def countedLow (l : List Counter) (h : l.length ≤ 256) : State :=
  { State.resetAt .w64 with fn := { Normalizer.reset with
      raw := ⟨⟨l ++ List.replicate (256 - l.length) 0⟩, by simp; omega⟩ } }

/-- The first entries of FN.NORM. -/
def normFirst (n : Nat) (t : State) : List Nat := (t.fn.norm.toList.take n).map BitVec.toNat

/-- "a×1000 b×30 c×25 d e" and 100, with the symbols 0 to 4 for a to e. -/
theorem test_fnNorm_repairs :
    leads (exec (.fnNorm 100) (countedLow [1000, 30, 25, 1, 1] (by decide))) (fun t =>
      decide (rsp t = (0, 0) ∧ normFirst 5 t = [100, 2, 1, 1, 1])) = true := by decide +kernel

/-- "a×1000 b×20 c d e" and 100, with the symbols 0 to 4 for a to e: the first victim without a donor is d. -/
theorem test_fnNorm_repair_fail :
    leads (exec (.fnNorm 100) (countedLow [1000, 20, 1, 1, 1] (by decide))) (fun t =>
      decide (rsp t = (3, 3) ∧ normFirst 5 t = [100, 1, 1, 0, 0] ∧ t.blk.halted = false)) = true := by decide +kernel

theorem test_fnRdRaw :
    leads (exec (.fnRdRaw 0x61) (counted [(0x61, 5)])) (fun t => decide (rsp t = (0, 5))) = true := by decide +kernel

/-- FN.NORM is what a readout of FN_RDNORM shows, not FN.RAW (R161). -/
theorem test_fnRdNorm :
    leads (exec (.fnRdNorm 0x61) (counted [(0x61, 5)])) (fun t => decide (rsp t = (0, 0))) = true := by decide +kernel

/-- While halted every other word is refused (§2.5). -/
theorem test_halted_refuses :
    leads (step (facing (.command 0x1100001B00000000) haltedState)) (fun t =>
      decide (rsp t = (0x1F, 0) ∧ blkStatus t = 0x1201)) = true := by decide +kernel

/-- A pseudo-instruction (R89), and lines with two operands and with a hexadecimal one (R88). -/
theorem test_assemble_pseudo : assembleLine "rd.id".toList = .ok (some (.rdState 1)) := by decide +kernel
theorem test_assemble_valNb : assembleLine "we.close 255, 8".toList = .ok (some (.weClose 255 8)) := by decide +kernel
theorem test_assemble_idx : assembleLine "rd.state 0x2F".toList = .ok (some (.rdState 0x2F)) := by decide +kernel

/-! ### Witnesses: for every statement with hypotheses, states and operands that meet all of them, clause by clause -/

/-- A writer with 6 bits pending. -/
abbrev writerA : State := writer .w64 0xB000000000000000 58 0x1000
/-- A full writer. -/
abbrev writerFull : State := writer .w64 0xDEADBEEF01234567 0 0x1000
/-- W = 32, 7 bits pending. -/
abbrev writer7 : State := writer .w32 0xAA000000 25 0x1000
/-- A writer whose flush is clamped: 4 whole bytes pending 2 bytes below END. -/
abbrev writerClamp : State := writer .w64 0xFFFFFFFF00000000 32 0x1016
/-- A writer one byte below END with no bit pending. -/
abbrev writerLast : State := writer .w64 0 64 0x1017

/-- A full writer 2 bytes below END: a flush of it is clamped. -/
abbrev writerFullClamp : State := writer .w64 0xDEADBEEF01234567 0 0x1016

theorem writerFullClamp_inv : writerFullClamp.Inv := inv_of_units (by decide) (by decide) (by decide) rfl (by decide)
theorem writerA_inv : writerA.Inv := inv_of_units (by decide) (by decide) (by decide) rfl (by decide)
theorem writerFull_inv : writerFull.Inv := inv_of_units (by decide) (by decide) (by decide) rfl (by decide)
theorem writer7_inv : writer7.Inv := inv_of_units (by decide) (by decide) (by decide) rfl (by decide)
theorem writerClamp_inv : writerClamp.Inv := inv_of_units (by decide) (by decide) (by decide) rfl (by decide)
theorem writerLast_inv : writerLast.Inv := inv_of_units (by decide) (by decide) (by decide) rfl (by decide)

/-- W = 32 over sixteen bytes FF at 0x80. -/
abbrev reader32 (bitoff : Nat) : State := reader .w32 (memWrite [] 0x80 16 (2 ^ 128 - 1)) 0xFFFFFFFF bitoff 0x80 0x80 0x8C
/-- W = 64 over the 12 bytes at 0x10, before its tail reload. -/
abbrev readerA (bitoff : Nat) : State := reader .w64 tailMem 0x1122334455667788 bitoff 0x10 0x10 0x14

/-- A reader whose partly consumed byte, at 0x107, was changed in MEM after its word was loaded. -/
abbrev changedReader : State := { streamReader 4 with mem := memWrite streamMem 0x107 1 0 }

theorem changedReader_inv : changedReader.Inv :=
  inv_of_units (by decide) (by decide) (by decide) rfl (by decide +kernel)
theorem streamReader_inv : (streamReader 64).Inv ∧ (streamReader 4).Inv ∧ (streamReader 0).Inv :=
  ⟨inv_of_units (by decide) (by decide) (by decide) rfl (by decide +kernel),
   inv_of_units (by decide) (by decide) (by decide) rfl (by decide +kernel),
   inv_of_units (by decide) (by decide) (by decide) rfl (by decide +kernel)⟩
theorem tailReader_inv : (tailReader 0).Inv ∧ (tailReader 4).Inv :=
  ⟨inv_of_units (by decide) (by decide) (by decide) rfl (by decide +kernel),
   inv_of_units (by decide) (by decide) (by decide) rfl (by decide +kernel)⟩
theorem readerA_inv : (readerA 0).Inv ∧ (readerA 4).Inv ∧ (readerA 32).Inv ∧ (readerA 24).Inv :=
  ⟨inv_of_units (by decide) (by decide) (by decide) rfl (by decide +kernel),
   inv_of_units (by decide) (by decide) (by decide) rfl (by decide +kernel),
   inv_of_units (by decide) (by decide) (by decide) rfl (by decide +kernel),
   inv_of_units (by decide) (by decide) (by decide) rfl (by decide +kernel)⟩
theorem reader32_inv : (reader32 1).Inv ∧ (reader32 0).Inv :=
  ⟨inv_of_units (by decide) (by decide) (by decide) rfl (by decide +kernel),
   inv_of_units (by decide) (by decide) (by decide) rfl (by decide +kernel)⟩

theorem facing_inv {s : State} {m : HostMove} (h : s.Inv) : (facing m s).Inv := ⟨h.blk, h.we, h.re, h.fn, h.mem⟩

theorem witness_EncodeInvertsDecode : decode 0x3200000000000061 = .ok (.fnRdRaw 0x61) := by decide

/-- One word of each format. -/
theorem witness_FieldsAreReadAtTheirBits :
    decode 0x1200000000000000 = .ok .weFlush ∧ decode 0x20FFFFFFFFFFFFFF = .ok (.reInit 0xFFFFFFFF 0xFFFFFF) ∧
    decode 0x1300001FFFFFFFFF = .ok (.weClose 0xFFFFFFFF 31) ∧ decode 0x2200001F00000000 = .ok (.reConsume 31) ∧
    decode 0x31000000FFFFFFFF = .ok (.fnNorm 0xFFFFFFFF) ∧ decode 0x01000000000000FF = .ok (.rdState 0xFF) := by
  decide

theorem witness_StepRunsTheDecodedCommand :
    (facing (.command 0x1200000000000000) writerA).moves = .command 0x1200000000000000 :: [] ∧
    decode 0x1200000000000000 = .ok .weFlush := ⟨rfl, by decide⟩

/-- A word of no row, and the RD_STATE of an unmapped index. -/
theorem witness_WordThatIsNoCommandIsIllegal :
    (facing (.command 1) State.reset).moves = .command 1 :: [] ∧ State.reset.blk.halted = false ∧
    (∀ r ∈ opcodeRows, (1 : Word) &&& r.1 ≠ r.2) ∧
    ((0x0100000000000027 : Word).toNat / 2 ^ 8 = 0x01000000000000 ∧ (0x0100000000000027 : Word).toNat % 2 ^ 8 ∉
      [0x00, 0x01, 0x10, 0x11, 0x12, 0x13, 0x14, 0x15, 0x20, 0x21, 0x22, 0x23, 0x24, 0x25, 0x26, 0x30, 0x31]) :=
  ⟨rfl, rfl, fun r hr => by
    have h : opcodeRows.all (fun r => decide ((1 : Word) &&& r.1 ≠ r.2)) = true := by decide
    simpa using List.all_eq_true.mp h r hr, by decide⟩

theorem witness_EveryCommandGetsOneResponse :
    (facing (.command 0x1200000000000000) writerA).Inv ∧
    (facing (.command 0x1200000000000000) writerA).moves = .command 0x1200000000000000 :: [] :=
  ⟨facing_inv writerA_inv, rfl⟩

/-- `we.init 0x1000, 8`: CAPACITY. -/
theorem witness_OnlyOkAndRepairFailCarryData : ∃ t,
    step (facing (.command 0x1000000800001000) State.reset) = .next t ∧ t.responses = { rcode := 1, rdata := 0 } :: [] := by
  obtain ⟨t, h, ht⟩ := exists_next (o := step (facing (.command 0x1000000800001000) State.reset))
    (p := fun t => decide (t.responses = [{ rcode := 1, rdata := 0 }])) (by decide +kernel)
  exact ⟨t, h, by simpa using ht⟩

theorem witness_EveryStepKeepsTheInvariant : ∃ t,
    (facing (.command 0x1200000000000000) writerA).Inv ∧
    step (facing (.command 0x1200000000000000) writerA) = .next t := by
  obtain ⟨t, h, -⟩ := exists_next (o := step (facing (.command 0x1200000000000000) writerA))
    (p := fun _ => true) (by decide +kernel)
  exact ⟨t, facing_inv writerA_inv, h⟩

theorem witness_ResetInputResetsTheRegisters : (facing .reset haltedState).moves = .reset :: [] := rfl

theorem witness_HostStoreChangesOneByte :
    (facing (.store 0xFFFFFFFF 7) (streamReader 64)).mem.wf = true ∧
    (facing (.store 0xFFFFFFFF 7) (streamReader 64)).moves = .store 0xFFFFFFFF 7 :: [] ∧ State.reset.moves = [] :=
  ⟨by decide +kernel, rfl, rfl⟩

/-- `re.read 1` on an engine that is not initialised. -/
theorem witness_FaultsArePrecise : ∃ t,
    (facing (.command 0x2300000100000000) State.reset).moves = .command 0x2300000100000000 :: [] ∧
    State.reset.blk.halted = false ∧
    step (facing (.command 0x2300000100000000) State.reset) = .next t ∧ t.blk.halted = true := by
  obtain ⟨t, h, ht⟩ := exists_next (o := step (facing (.command 0x2300000100000000) State.reset))
    (p := fun t => t.blk.halted) (by decide +kernel)
  exact ⟨t, rfl, rfl, h, ht⟩

/-- The five clauses: NOP, RD_STATE of a mapped index, the two table readouts, and two words that are refused,
an RD_STATE of an unmapped index among them. -/
theorem witness_HaltedBlockOnlyReadsOut :
    haltedState.blk.halted = true ∧
    (0x0100000000000031 : Word) = 0x0100000000000000 ||| (0x31 : BitVec 8).setWidth 64 ∧
    stateRegister haltedState 0x31 = some 0x100 ∧
    (0x3200000000000061 : Word) = 0x3200000000000000 ||| (0x61 : BitVec 8).setWidth 64 ∧
    (0x33000000000000FF : Word) = 0x3300000000000000 ||| (0xFF : BitVec 8).setWidth 64 ∧
    (∀ cw ∈ ([0x0100000000000099, 0x0000000000000001, 0x3200000000000161] : List Word), cw ≠ 0 ∧
      (∀ idx : BitVec 8, cw = 0x0100000000000000 ||| idx.setWidth 64 → stateRegister haltedState idx = none) ∧
      (∀ idx : BitVec 8, cw ≠ 0x3200000000000000 ||| idx.setWidth 64 ∧
        cw ≠ 0x3300000000000000 ||| idx.setWidth 64)) := by
  refine ⟨rfl, by decide, by decide +kernel, by decide, by decide, fun cw h => ?_⟩
  simp only [List.mem_cons, List.not_mem_nil, or_false] at h
  rcases h with rfl | rfl | rfl <;> exact ⟨by decide, by decide +kernel, by decide +kernel⟩

theorem witness_OnlyResetLeavesTheHalt : ∃ t, haltedState.blk.halted = true ∧ step haltedState = .next t :=
  ⟨_, rfl, rfl⟩

theorem witness_BitCountAbove26Faults :
    State.reset.blk.halted = false ∧ 26 < (27 : BitVec 5).toNat ∧ 26 < (31 : BitVec 5).toNat := by decide

theorem witness_UninitialisedEngineFaults :
    State.reset.blk.halted = false ∧ (26 : BitVec 5).toNat ≤ 26 ∧ State.reset.we.valid = false ∧
    State.reset.re.valid = false := by decide

/-- The first region that passes the top of MEM. -/
theorem witness_ArgumentOutsideTheDomainFaults :
    State.reset.blk.halted = false ∧ 2 ^ 32 < (0xFFFFFFFF : Addr).toNat + (2 : BitVec 24).toNat := by decide

/-- n = 26 with 7 bits pending at W = 32; n = 25 there and n = 26 at W = 64 do not fault. -/
theorem witness_SpaceFaultsExactlyWhenSevenBitsPend :
    (writer7.Inv ∧ writer7.blk.halted = false ∧ writer7.we.valid = true ∧ writer7.width = .w32 ∧
      (writer7.width.bits - writer7.we.bitoff.toNat) % 8 = 7) ∧
    (writerA.Inv ∧ writerA.blk.halted = false ∧ writerA.we.valid = true ∧ writerA.width ≠ .w32) :=
  ⟨⟨writer7_inv, by decide⟩, writerA_inv, by decide⟩

/-- n = 12 is available, n = 13 is not. -/
theorem witness_PeekAndConsumeExhaustExactly :
    (streamReader 12).blk.halted = false ∧ (streamReader 12).re.valid = true ∧
    ¬(streamReader 12).re.bitoff.toNat < (12 : BitVec 5).toNat ∧
    (streamReader 12).re.bitoff.toNat < (13 : BitVec 5).toNat := by decide +kernel

/-- Both reasons: the stream has 4 bits left, and at W = 32 a reload cannot bring 26 bits in. -/
theorem witness_ReadExhaustsExactly :
    ((tailReader 4).Inv ∧ (tailReader 4).blk.halted = false ∧ (tailReader 4).re.valid = true ∧
      (tailReader 4).re.bitoff.toNat < (5 : BitVec 5).toNat ∧ (tailReader 4).unreadBits < (5 : BitVec 5).toNat) ∧
    ((reader32 1).Inv ∧ (reader32 1).blk.halted = false ∧ (reader32 1).re.valid = true ∧
      (reader32 1).re.bitoff.toNat < (26 : BitVec 5).toNat ∧ (reader32 1).re.cursor ≠ (reader32 1).re.bufEnd ∧
      (reader32 1).re.cursor.toNat + ((reader32 1).width.bits - (reader32 1).re.bitoff.toNat) / 8 ≤
        (reader32 1).re.bufEnd.toNat ∧
      (reader32 1).width.bits < (26 : BitVec 5).toNat + ((reader32 1).width.bits - (reader32 1).re.bitoff.toNat) % 8) :=
  ⟨⟨tailReader_inv.2, by decide +kernel⟩, reader32_inv.1, by decide +kernel⟩

theorem witness_ReadStateFollowsTheMap : (0x02 : BitVec 8) ∉
    ([0x00, 0x01, 0x10, 0x11, 0x12, 0x13, 0x14, 0x15, 0x20, 0x21, 0x22, 0x23, 0x24, 0x25, 0x26, 0x30, 0x31] :
      List (BitVec 8)) := by decide

/-- The three clauses of both INITs at their boundaries: a region one byte too long, len = B, len = B + 1, and a
region that ends at 2^32. -/
theorem witness_WriteInitSetsUpTheBuffer :
    State.reset.blk.halted = false ∧
    2 ^ 32 < (0xFFFFFFF0 : Addr).toNat + (17 : BitVec 24).toNat ∧
    ((0x1000 : Addr).toNat + (8 : BitVec 24).toNat ≤ 2 ^ 32 ∧ (8 : BitVec 24).toNat ≤ State.reset.width.bytes) ∧
    ((0x1000 : Addr).toNat + (9 : BitVec 24).toNat ≤ 2 ^ 32 ∧ State.reset.width.bytes < (9 : BitVec 24).toNat) ∧
    ((0xFFFFFFF0 : Addr).toNat + (16 : BitVec 24).toNat ≤ 2 ^ 32 ∧ State.reset.width.bytes < (16 : BitVec 24).toNat) := by
  decide

theorem witness_ReadInitLoadsTheFirstWord :
    (State.resetAt .w32).blk.halted = false ∧
    2 ^ 32 < (0xFFFFFFF0 : Addr).toNat + (17 : BitVec 24).toNat ∧
    ((0x1000 : Addr).toNat + (4 : BitVec 24).toNat ≤ 2 ^ 32 ∧ (4 : BitVec 24).toNat ≤ (State.resetAt .w32).width.bytes) ∧
    ((0xFFFFFFFB : Addr).toNat + (5 : BitVec 24).toNat ≤ 2 ^ 32 ∧
      (State.resetAt .w32).width.bytes < (5 : BitVec 24).toNat) := by
  decide

theorem witness_ReadInitOpensTheStream :
    State.reset.blk.halted = false ∧ (0x100 : Addr).toNat + (16 : BitVec 24).toNat ≤ 2 ^ 32 ∧
    State.reset.width.bytes < (16 : BitVec 24).toNat := by decide

/-- n = 26 bits into 58, and n = BITOFF = 25 at W = 32. -/
theorem witness_WriteIntoRoom :
    (writerA.we.ok writerA.width ∧ writerA.blk.halted = false ∧ writerA.we.valid = true ∧
      (26 : BitVec 5).toNat ≤ 26 ∧ (26 : BitVec 5).toNat ≤ writerA.we.bitoff.toNat) ∧
    (writer7.we.ok writer7.width ∧ writer7.we.valid = true ∧ (25 : BitVec 5).toNat ≤ writer7.we.bitoff.toNat) := by
  decide

/-- A full register and one bit; and a clamped flush. -/
theorem witness_WriteAfterFlush :
    (writerFull.Inv ∧ writerFull.blk.halted = false ∧ writerFull.we.valid = true ∧ (1 : BitVec 5).toNat ≤ 26 ∧
      writerFull.we.bitoff.toNat < (1 : BitVec 5).toNat ∧
      (1 : BitVec 5).toNat + (writerFull.width.bits - writerFull.we.bitoff.toNat) % 8 ≤ writerFull.width.bits) ∧
    (let s := writer .w32 0xFFFFFFF0 4 0x1017
     s.we.ok s.width ∧ s.we.bitoff.toNat < (26 : BitVec 5).toNat ∧
      (26 : BitVec 5).toNat + (s.width.bits - s.we.bitoff.toNat) % 8 ≤ s.width.bits ∧
      s.we.bufEnd.toNat < s.we.cursor.toNat + (s.width.bits - s.we.bitoff.toNat) / 8) :=
  ⟨⟨writerFull_inv, by decide⟩, by decide⟩

/-- A flush that is clamped and one that is not. -/
theorem witness_FlushStoresTheRegister :
    (writerClamp.Inv ∧ writerClamp.blk.halted = false ∧ writerClamp.we.valid = true) ∧
    (writerA.Inv ∧ writerA.blk.halted = false ∧ writerA.we.valid = true) :=
  ⟨⟨writerClamp_inv, rfl, rfl⟩, writerA_inv, rfl, rfl⟩

theorem witness_SecondFlushChangesNoRegister : ∃ t,
    writerA.Inv ∧ writerA.blk.halted = false ∧ writerA.we.valid = true ∧ exec .weFlush writerA = .next t := by
  obtain ⟨t, h, -⟩ := exists_next (o := exec .weFlush writerA) (p := fun _ => true) (by decide +kernel)
  exact ⟨t, writerA_inv, rfl, rfl, h⟩

/-- Both outcomes at their boundary: 7 marker bits after the last byte but one keep floor(T/8) below END - START,
and 8 reach it. Then the two-store form, n above BITOFF, with its own flush clamped and not. The answer, the registers
and the bytes of the last are those §2.2 gives a full register with a 1-bit marker. -/
theorem witness_CloseReportsTheStreamLength :
    (writerLast.Inv ∧ writerLast.blk.halted = false ∧ writerLast.we.valid = true ∧
      (8 : BitVec 5).toNat + (writerLast.width.bits - writerLast.we.bitoff.toNat) % 8 ≤ writerLast.width.bits ∧
      (writerLast.writtenBits + (7 : BitVec 5).toNat) / 8 <
        writerLast.we.bufEnd.toNat - writerLast.we.start.toNat ∧
      writerLast.we.bufEnd.toNat - writerLast.we.start.toNat ≤
        (writerLast.writtenBits + (8 : BitVec 5).toNat) / 8 ∧
      (8 : BitVec 5).toNat ≤ writerLast.we.bitoff.toNat) ∧
    (writerFullClamp.Inv ∧ writerFull.Inv) ∧
    (∀ s ∈ [writerFullClamp, writerFull], s.blk.halted = false ∧ s.we.valid = true ∧
      (1 : BitVec 5).toNat + (s.width.bits - s.we.bitoff.toNat) % 8 ≤ s.width.bits ∧
      s.we.bitoff.toNat < (1 : BitVec 5).toNat) ∧
    writerFullClamp.we.bufEnd.toNat < writerFullClamp.we.cursor.toNat +
      (writerFullClamp.width.bits - writerFullClamp.we.bitoff.toNat) / 8 ∧
    leads (exec (.weClose 1 1) writerFull) (fun t => decide (rsp t = (0, 9) ∧ weRegs t = (2 ^ 63, 63, 0x1008) ∧
      memRead t.mem 0x1000 9 = 0xDEADBEEF0123456780)) = true :=
  ⟨⟨writerLast_inv, by decide⟩, ⟨writerFullClamp_inv, writerFull_inv⟩, by decide, by decide, by decide +kernel⟩

theorem witness_WritesAppendToTheStream :
    writerFull.Inv ∧ writerFull.blk.halted = false ∧ writerFull.we.valid = true ∧
    writerFull.we.cursor.toNat + (writerFull.width.bits - writerFull.we.bitoff.toNat) / 8 ≤
      writerFull.we.bufEnd.toNat ∧ (26 : BitVec 5).toNat ≤ 26 ∧
    (26 : BitVec 5).toNat + (writerFull.width.bits - writerFull.we.bitoff.toNat) % 8 ≤ writerFull.width.bits :=
  ⟨writerFull_inv, by decide⟩

theorem witness_ClosedStreamIsInMemory : ∃ t,
    writerA.Inv ∧ writerA.blk.halted = false ∧ writerA.we.valid = true ∧
    exec (.weClose 5 3) writerA = .next t ∧ t.responses = { rcode := 0x00, rdata := 2 } :: writerA.responses := by
  obtain ⟨t, h, ht⟩ := exists_next (o := exec (.weClose 5 3) writerA)
    (p := fun t => decide (t.responses = [{ rcode := 0x00, rdata := 2 }])) (by decide +kernel)
  exact ⟨t, writerA_inv, rfl, rfl, h, of_decide_eq_true ht⟩

/-- Each of the three commands, on an engine whose cursor is 2 bytes below END. -/
theorem witness_FlushesStayInTheBuffer : writerClamp.Inv ∧ writerClamp.we.valid = true ∧
    ∀ i ∈ [Instr.weWrite 1 26, .weFlush, .weClose 1 26], ∃ t, exec i writerClamp = .next t := by
  refine ⟨writerClamp_inv, rfl, fun i hi => ?_⟩
  obtain ⟨t, h, -⟩ := exists_next (o := exec i writerClamp) (p := fun _ => true)
    (by revert i; decide +kernel)
  exact ⟨t, h⟩

/-- A write that ends at the top of MEM. -/
theorem witness_MemoryIsBigEndian : Memory.wf streamMem = true ∧ 0xFFFFFFF8 + 8 ≤ 2 ^ 32 := by decide +kernel

theorem witness_OnlyTheWriteEngineStores : ∃ t, exec .weFlush writerA = .next t ∧ t.mem ≠ writerA.mem := by
  obtain ⟨t, h, ht⟩ := exists_next (o := exec .weFlush writerA) (p := fun t => decide (t.mem ≠ writerA.mem))
    (by decide +kernel)
  exact ⟨t, h, by simpa using ht⟩

/-- n = 12 bits of 12, for PEEK, CONSUME and a READ that does not reload. -/
theorem witness_PeekAnswersTheTopBits :
    (streamReader 12).blk.halted = false ∧ (streamReader 12).re.valid = true ∧ (12 : BitVec 5).toNat ≤ 26 ∧
    (12 : BitVec 5).toNat ≤ (streamReader 12).re.bitoff.toNat := by decide +kernel

theorem witness_ConsumeLowersTheBitCount :
    (streamReader 64).blk.halted = false ∧ (streamReader 64).re.valid = true ∧ (26 : BitVec 5).toNat ≤ 26 ∧
    (26 : BitVec 5).toNat ≤ (streamReader 64).re.bitoff.toNat := by decide +kernel

theorem witness_ReadWithoutReload :
    (streamReader 64).blk.halted = false ∧ (streamReader 64).re.valid = true ∧ (26 : BitVec 5).toNat ≤ 26 ∧
    (26 : BitVec 5).toNat ≤ (streamReader 64).re.bitoff.toNat := by decide +kernel

/-- A full and a tail reload; n = 4 bits the register holds; and a reload after MEM was changed under the held bits,
whose answer is taken from the word reloaded: the low 4 bits of the 00 at 0x107, then 38 F0 and the top 6 bits of B3. -/
theorem witness_ReadTakesTheNextBits :
    ((streamReader 4).Inv ∧ (readerA 4).Inv ∧ (tailReader 4).Inv ∧ changedReader.Inv) ∧
    (∀ s ∈ [streamReader 4, readerA 4, changedReader], s.blk.halted = false ∧ s.re.valid = true ∧
      s.re.bitoff.toNat < (26 : BitVec 5).toNat ∧ (26 : BitVec 5).toNat ≤ s.unreadBits ∧
      (26 : BitVec 5).toNat + (s.width.bits - s.re.bitoff.toNat) % 8 ≤ s.width.bits) ∧
    ((streamReader 4).readerCoherent ∧ (readerA 4).readerCoherent ∧ ¬changedReader.readerCoherent) ∧
    ((tailReader 4).readerCoherent ∧ (tailReader 4).blk.halted = false ∧ (tailReader 4).re.valid = true ∧
      (4 : BitVec 5).toNat ≤ (tailReader 4).re.bitoff.toNat ∧ (4 : BitVec 5).toNat ≤ (tailReader 4).unreadBits ∧
      (4 : BitVec 5).toNat + ((tailReader 4).width.bits - (tailReader 4).re.bitoff.toNat) % 8 ≤
        (tailReader 4).width.bits) ∧
    leads (exec (.reRead 26) changedReader) (fun t => decide (rsp t = (0, 0xE3C2C))) = true :=
  ⟨⟨streamReader_inv.2.1, readerA_inv.2.1, tailReader_inv.2, changedReader_inv⟩, by decide +kernel, by decide +kernel,
    by decide +kernel, by decide +kernel⟩

/-- The three cases: at END with bits left and with none; a full reload at the last address that takes one
(4 bytes consumed, END reached exactly); and a tail reload one byte further. -/
theorem witness_ReloadFollowsItsThreeCases :
    ((tailReader 4).Inv ∧ (tailReader 0).Inv ∧ (readerA 32).Inv ∧ (readerA 24).Inv) ∧
    (∀ s ∈ [tailReader 4, tailReader 0, readerA 32, readerA 24], s.blk.halted = false ∧ s.re.valid = true) ∧
    ((tailReader 4).re.cursor = (tailReader 4).re.bufEnd ∧ 0 < (tailReader 4).re.bitoff.toNat) ∧
    ((tailReader 0).re.cursor = (tailReader 0).re.bufEnd ∧ ¬0 < (tailReader 0).re.bitoff.toNat) ∧
    ((readerA 32).re.cursor ≠ (readerA 32).re.bufEnd ∧
      (readerA 32).re.cursor.toNat + ((readerA 32).width.bits - (readerA 32).re.bitoff.toNat) / 8 =
        (readerA 32).re.bufEnd.toNat) ∧
    ((readerA 24).re.cursor ≠ (readerA 24).re.bufEnd ∧
      (readerA 24).re.bufEnd.toNat <
        (readerA 24).re.cursor.toNat + ((readerA 24).width.bits - (readerA 24).re.bitoff.toNat) / 8) :=
  ⟨⟨tailReader_inv.2, tailReader_inv.1, readerA_inv.2.2.1, readerA_inv.2.2.2⟩, by decide +kernel, by decide +kernel⟩

theorem witness_ReloadKeepsTheUnreadStream :
    (readerA 4).Inv ∧ (readerA 4).readerCoherent ∧ (readerA 4).blk.halted = false ∧ (readerA 4).re.valid = true :=
  ⟨readerA_inv.2.1, by decide +kernel⟩

/-- The three clauses: W = 64 over 16 bytes (k = 2, r = 0), over 12 (k = 1, r = 4), and drained. -/
theorem witness_DrainedReloadProgression :
    ((streamReader 0).Inv ∧ (readerA 0).Inv ∧ (tailReader 0).Inv) ∧
    (∀ s ∈ [streamReader 0, readerA 0, tailReader 0],
      s.blk.halted = false ∧ s.re.valid = true ∧ s.re.bitoff = 0) ∧
    (streamReader 0).re.cursor.toNat + (streamReader 0).width.bytes ≤ (streamReader 0).re.bufEnd.toNat ∧
    ((readerA 0).re.cursor.toNat < (readerA 0).re.bufEnd.toNat ∧
      (readerA 0).re.bufEnd.toNat < (readerA 0).re.cursor.toNat + (readerA 0).width.bytes) ∧
    (tailReader 0).re.cursor = (tailReader 0).re.bufEnd :=
  ⟨⟨streamReader_inv.2.2, readerA_inv.1, tailReader_inv.1⟩, by decide +kernel, by decide +kernel⟩

theorem witness_ReadCloseReportsTheDrainedStream :
    (tailReader 0).blk.halted = false ∧ (tailReader 0).re.valid = true := ⟨rfl, rfl⟩

/-- A region that ends at the top of MEM, and the empty one. -/
theorem witness_CountBuildsTheHistogram :
    State.reset.blk.halted = false ∧ (0xFFFFFFFF : Addr).toNat + (1 : BitVec 24).toNat ≤ 2 ^ 32 ∧
    (0 : Addr).toNat + (0 : BitVec 24).toNat ≤ 2 ^ 32 := by decide

theorem witness_CountsSumToTheLength :
    State.reset.blk.halted = false ∧ (0x2000 : Addr).toNat + (11 : BitVec 24).toNat ≤ 2 ^ 32 := by decide

theorem witness_NormOfTheEmptyHistogram :
    State.reset.blk.halted = false ∧ (7 : BitVec 32) ≠ 0 ∧ ∀ i : Symbol, State.reset.fn.raw.entry i = 0 :=
  ⟨rfl, by decide, fun i => entry_zero i⟩

/-- "a×1000 b×500 c×10": scaled at 100, where c keeps one unit, and passed through at 1000. -/
theorem witness_NormScalesProportionally :
    let s := counted [(0x61, 1000), (0x62, 500), (0x63, 10)]
    s.blk.halted = false ∧ s.fn.raw.entry 0x61 ≠ 0 ∧
    (∀ i : Symbol, (s.fn.raw.entry i).toNat ≤ (s.fn.raw.entry 0x61).toNat) ∧
    (∀ i : Symbol, i.toNat < (0x61 : Symbol).toNat → (s.fn.raw.entry i).toNat < (s.fn.raw.entry 0x61).toNat) ∧
    ((100 : BitVec 32).toNat < (s.fn.raw.entry 0x61).toNat ∧ ∀ i : Symbol, s.fn.raw.entry i ≠ 0 →
      (s.fn.raw.entry 0x61).toNat ≤ (100 : BitVec 32).toNat * (s.fn.raw.entry i).toNat) ∧
    ¬(1000 : BitVec 32).toNat < (s.fn.raw.entry 0x61).toNat := by
  simp only [entry_counted]
  decide +kernel

/-- "a×1000 b×10 c×1" at 100: c is starved and b has one unit only. -/
theorem witness_NormFailsWithoutADonor :
    let s := counted [(0x61, 1000), (0x62, 10), (0x63, 1)]
    s.blk.halted = false ∧ (100 : BitVec 32) ≠ 0 ∧
    (∀ i : Symbol, (s.fn.raw.entry i).toNat ≤ (s.fn.raw.entry 0x61).toNat) ∧
    (∀ i : Symbol, i.toNat < (0x61 : Symbol).toNat → (s.fn.raw.entry i).toNat < (s.fn.raw.entry 0x61).toNat) ∧
    (100 : BitVec 32).toNat < (s.fn.raw.entry 0x61).toNat ∧ s.fn.raw.entry 0x63 ≠ 0 ∧
    (100 : BitVec 32).toNat * (s.fn.raw.entry 0x63).toNat < (s.fn.raw.entry 0x61).toNat ∧
    (∀ i : Symbol, i.toNat < (0x63 : Symbol).toNat → s.fn.raw.entry i ≠ 0 →
      (s.fn.raw.entry 0x61).toNat ≤ (100 : BitVec 32).toNat * (s.fn.raw.entry i).toNat) ∧
    (∀ j : Symbol, j ≠ 0x61 →
      (100 : BitVec 32).toNat * (s.fn.raw.entry j).toNat / (s.fn.raw.entry 0x61).toNat ≤ 1) := by
  simp only [entry_counted]
  decide +kernel

/-- A histogram whose only symbol is `a`: the run answers OK, and both inner premises hold. -/
theorem witness_NormalizationInvariants :
    (counted [(0x61, 3)]).blk.halted = false ∧ (100 : BitVec 32) ≠ 0 ∧
    leads (exec (.fnNorm 100) (counted [(0x61, 3)])) (fun t => decide (rsp t = (0, 0x61))) = true ∧
    (∀ i : Symbol, (counted [(0x61, 3)]).fn.raw.entry i ≠ 0 ↔ i = 0x61) := by
  refine ⟨rfl, by decide, by decide +kernel, fun i => ?_⟩
  rw [entry_counted_one]
  by_cases h : i = 0x61 <;> simp [h]

/-- "a×1000 b×20 c d": c and d are starved. At 200 b has units for both, and the answer is OK; at 100 it has one for c,
and d fails after that repair. -/
theorem witness_RepairKeepsTheSum :
    let s := counted [(0x61, 1000), (0x62, 20), (0x63, 1), (0x64, 1)]
    s.blk.halted = false ∧ (200 : BitVec 32) ≠ 0 ∧ (100 : BitVec 32) ≠ 0 ∧ s.fn.raw.entry 0x61 ≠ 0 ∧
    (∀ i : Symbol, (s.fn.raw.entry i).toNat ≤ (s.fn.raw.entry 0x61).toNat) ∧
    (∀ i : Symbol, i.toNat < (0x61 : Symbol).toNat → (s.fn.raw.entry i).toNat < (s.fn.raw.entry 0x61).toNat) ∧
    leads (exec (.fnNorm 200) s) (fun t => decide (rsp t = (0, 0x61) ∧
      [0x61, 0x62, 0x63, 0x64].map t.fn.norm.entry = [200, 2, 1, 1])) = true ∧
    leads (exec (.fnNorm 100) s) (fun t => decide (rsp t = (3, 0x64) ∧
      [0x61, 0x62, 0x63, 0x64].map t.fn.norm.entry = [100, 1, 1, 0])) = true := by
  simp only [entry_counted_four]
  decide +kernel

/-- The groups of §1.1 with a zero marker, 9 bytes long: the stream, its run, and its length. -/
theorem witness_RoundTrip : ∃ t,
    State.reset.Inv ∧
    (∀ g ∈ ([(0x2CE3C2C, 26), (0x3FFFFFF, 26), (0x15, 16)] : List (BitVec 32 × BitVec 5)),
      0 < g.2.toNat ∧ g.2.toNat ≤ 26 ∧ g.1.toNat < 2 ^ g.2.toNat) ∧
    (1 : BitVec 5).toNat ≤ 26 ∧ (1 : BitVec 32).toNat < 2 ^ (1 : BitVec 5).toNat ∧
    runCommands (.weInit 0x1000 32 :: ([(0x2CE3C2C, 26), (0x3FFFFFF, 26), (0x15, 16)] : List (BitVec 32 × BitVec 5)).map
      (fun g => .weWrite g.1 g.2) ++ [.weClose 1 1]) State.reset = some t ∧
    t.blk.halted = false ∧ t.responses.head? = some { rcode := 0x00, rdata := (9 : BitVec 24).setWidth 64 } ∧
    State.reset.width.bytes < (9 : BitVec 24).toNat := by
  obtain ⟨t, h, ht⟩ := exists_of_any (o := runCommands (.weInit 0x1000 32 ::
      ([(0x2CE3C2C, 26), (0x3FFFFFF, 26), (0x15, 16)] : List (BitVec 32 × BitVec 5)).map
        (fun g => .weWrite g.1 g.2) ++ [.weClose 1 1]) State.reset)
    (p := fun t => decide (t.blk.halted = false ∧
      t.responses.head? = some { rcode := 0x00, rdata := (9 : BitVec 24).setWidth 64 })) (by decide +kernel)
  have ht := of_decide_eq_true ht
  refine ⟨t, inv_of_units (by decide) (by decide) (by decide) rfl (by decide), fun g hg => ?_, by decide, by decide,
    h, ht.1, ht.2, by decide⟩
  simp only [List.mem_cons, List.not_mem_nil, or_false] at hg
  rcases hg with rfl | rfl | rfl <;> decide

theorem witness_UnitsAreIndependent : ∃ t, exec (.reConsume 2) (streamReader 64) = .next t := by
  obtain ⟨t, h, -⟩ := exists_next (o := exec (.reConsume 2) (streamReader 64)) (p := fun _ => true) (by decide +kernel)
  exact ⟨t, h⟩

/-- One command of each unit, on states that differ outside it. -/
theorem witness_CommandsDependOnTheirUnitAlone :
    (∃ t, writerA.mem = (counted [(0x61, 1)]).mem ∧ writerA.blk = (counted [(0x61, 1)]).blk ∧
      writerA.fn.raw.entry 0x61 ≠ (counted [(0x61, 1)]).fn.raw.entry 0x61 ∧
      writerA.re = (counted [(0x61, 1)]).re ∧ Instr.opcode (.reInit 0 16) / 16 = 2 ∧
      exec (.reInit 0 16) writerA = .next t) ∧
    (∃ t, writerA.we ≠ writer7.we ∧ writerA.fn = State.reset.fn ∧ (Instr.fnCount 0 1).opcode.toNat / 16 = 3 ∧
      exec (.fnCount 0 1) writerA = .next t) ∧
    (∃ t, Instr.weFlush.opcode.toNat / 16 = 1 ∧ exec .weFlush writerA = .next t) := by
  obtain ⟨t, h, -⟩ := exists_next (o := exec (.reInit 0 16) writerA) (p := fun _ => true) (by decide +kernel)
  obtain ⟨t', h', -⟩ := exists_next (o := exec (.fnCount 0 1) writerA) (p := fun _ => true) (by decide +kernel)
  obtain ⟨t'', h'', -⟩ := exists_next (o := exec .weFlush writerA) (p := fun _ => true) (by decide +kernel)
  exact ⟨⟨t, rfl, rfl, by decide +kernel, rfl, by decide, h⟩, ⟨t', by decide, rfl, by decide, h'⟩, t'', by decide, h''⟩

/-- CAPACITY, OVERFLOW and REPAIR_FAIL. -/
theorem witness_StatusOutcomesNeverHalt :
    (∃ t, exec (.weInit 0 8) State.reset = .next t ∧ t.responses = { rcode := 0x01, rdata := 0 } :: []) ∧
    (∃ t, exec (.weClose 0 8) writerLast = .next t ∧ t.responses = { rcode := 0x02, rdata := 0 } :: []) ∧
    (∃ t, exec (.fnNorm 1) (counted [(0x61, 5), (0x62, 2)]) = .next t ∧
      t.responses = { rcode := 0x03, rdata := 0x62 } :: []) := by
  obtain ⟨t, h, ht⟩ := exists_next (o := exec (.weInit 0 8) State.reset)
    (p := fun t => decide (t.responses = [{ rcode := 0x01, rdata := 0 }])) (by decide +kernel)
  obtain ⟨t', h', ht'⟩ := exists_next (o := exec (.weClose 0 8) writerLast)
    (p := fun t => decide (t.responses = [{ rcode := 0x02, rdata := 0 }])) (by decide +kernel)
  obtain ⟨t'', h'', ht''⟩ := exists_next (o := exec (.fnNorm 1) (counted [(0x61, 5), (0x62, 2)]))
    (p := fun t => decide (t.responses = [{ rcode := 0x03, rdata := 0x62 }])) (by decide +kernel)
  exact ⟨⟨t, h, by simpa using ht⟩, ⟨t', h', by simpa using ht'⟩, t'', h'', by simpa using ht''⟩

end Sys2Proof.Tests
end

namespace Sys2Proof.Machine

/-! ### O59: what a unit's command can see (R19, R244)

A command of the unit whose opcodes have the upper half `k` (R80) works on the word width, BLK_STATUS, MEM and that
unit's registers. `State.onto k s u` puts those parts of `s` over the rest of `u`. Every procedure of the unit
commutes with `onto`, and the checks of the command cycle keep this, so the answer cannot depend on the rest. -/

/-- The parts of `s` that a command of unit `k` works on, over the other parts of `u`. -/
def State.onto (k : Nat) (s u : State) : State :=
  { u with
    width := s.width
    blk := s.blk
    mem := s.mem
    we := if k = 1 then s.we else u.we
    re := if k = 2 then s.re else u.re
    fn := if k = 3 then s.fn else u.fn }

/-- Putting `s` over `u` changes nothing exactly when the two agree on what unit `k` works on. -/
theorem onto_eq_self_iff {k : Nat} {s u : State} :
    s.onto k u = u ↔
      s.width = u.width ∧ s.blk = u.blk ∧ s.mem = u.mem ∧
      (k = 1 → s.we = u.we) ∧ (k = 2 → s.re = u.re) ∧ (k = 3 → s.fn = u.fn) := by
  obtain ⟨w, b, we, re, fn, m, mv, r⟩ := u
  simp only [State.onto, State.mk.injEq, ite_eq_right_iff]
  tauto

/-- Putting the parts of `s` over once more changes nothing. -/
theorem onto_onto (k : Nat) (s u : State) : s.onto k (s.onto k u) = s.onto k u :=
  onto_eq_self_iff.mpr ⟨rfl, rfl, rfl, fun hk => (if_pos hk).symm, fun hk => (if_pos hk).symm,
    fun hk => (if_pos hk).symm⟩

/-- When `o` is a next state, so is `o'`, with the same parts of unit `k` and the same latest response. -/
def SameAnswer (k : Nat) (o o' : StepOutcome) : Prop :=
  ∀ t, o = .next t → ∃ t', o' = .next t' ∧ t.onto k t' = t' ∧ t'.responses.head? = t.responses.head?

section Cycle

variable {k : Nat} {s u : State} {o o' : StepOutcome}

/-! #### The command cycle -/

theorem sameAnswer_emit (c : BitVec 8) (d : Word) :
    SameAnswer k (.next (s.emit c d)) (.next ((s.onto k u).emit c d)) := by
  rintro t ⟨⟩
  exact ⟨_, rfl, congrArg (State.emit · c d) (onto_onto k s u), rfl⟩

/-- A fault is an answer from the state before the command, with BLK_STATUS set (R203). -/
theorem sameAnswer_takeFault (c : FaultCode) :
    SameAnswer k (.next (s.takeFault c)) (.next ((s.onto k u).takeFault c)) :=
  sameAnswer_emit (s := { s with blk := { halted := true, fcode := c.code } }) c.code 0

theorem sameAnswer_unlessHalted (h : SameAnswer k o o') :
    SameAnswer k (unlessHalted s o) (unlessHalted (s.onto k u) o') := by
  cases hb : s.blk.halted with
  | true =>
    rw [unlessHalted_of_halted hb, unlessHalted_of_halted (s := s.onto k u) hb]
    exact sameAnswer_emit _ _
  | false => rwa [unlessHalted_of_running hb, unlessHalted_of_running (s := s.onto k u) hb]

theorem sameAnswer_require {c : FaultCode} {b : Bool} (h : SameAnswer k o o') :
    SameAnswer k (require s c b o) (require (s.onto k u) c b o') := by
  cases b with
  | true => exact h
  | false => exact sameAnswer_takeFault c

/-- An execution that commutes with `onto` answers alike from both states. -/
theorem sameAnswer_commit {e e' : Execution} (h : e' = e.map (Prod.map (·.onto k u) id)) :
    SameAnswer k (commit s e) (commit (s.onto k u) e') := by
  subst h
  match e with
  | .ok (t, rc, d) => exact sameAnswer_emit (s := t) rc.code d
  | .error (.raise c) => exact sameAnswer_takeFault c
  | .error (.outside f) => rintro t ⟨⟩

end Cycle

section Procedures

variable (s u : State)

/-! #### What the unit reads -/

@[simp] theorem onto_width (k : Nat) : (s.onto k u).width = s.width := rfl
@[simp] theorem onto_mem (k : Nat) : (s.onto k u).mem = s.mem := rfl
@[simp] theorem onto_we : (s.onto 1 u).we = s.we := rfl
@[simp] theorem onto_re : (s.onto 2 u).re = s.re := rfl

/-! #### The write engine -/

theorem flush_onto : flush (s.onto 1 u) = (flush s).map (·.onto 1 u) := by
  simp only [flush, onto_width, onto_mem, onto_we]
  cases boundedWrite s.mem s.we.cursor.toNat s.width.bytes s.we.word.toNat <;> rfl

theorem makeRoom_onto (n : Nat) : makeRoom (s.onto 1 u) n = (makeRoom s n).map (·.onto 1 u) := by
  simp only [makeRoom, onto_we, flush_onto]
  split <;> rfl

theorem put_onto (v n : Nat) : put (s.onto 1 u) v n = (put s v n).map (·.onto 1 u) := by
  simp only [put, makeRoom_onto]
  cases makeRoom s n with
  | error e => rfl
  | ok t =>
    simp only [Except.map]
    rw [onto_we]
    split <;> rfl

theorem runWeInit_onto (base cap : Nat) :
    runWeInit (s.onto 1 u) base cap = (runWeInit s base cap).map (Prod.map (·.onto 1 u) id) := by
  rw [runWeInit, onto_width, runWeInit]
  split <;> rfl

theorem runWeWrite_onto (v n : Nat) :
    runWeWrite (s.onto 1 u) v n = (runWeWrite s v n).map (Prod.map (·.onto 1 u) id) := by
  simp only [runWeWrite, put_onto]
  cases put s v n <;> rfl

theorem runWeFlush_onto : runWeFlush (s.onto 1 u) = (runWeFlush s).map (Prod.map (·.onto 1 u) id) := by
  simp only [runWeFlush, flush_onto]
  cases flush s <;> rfl

theorem runWeClose_onto (v n : Nat) :
    runWeClose (s.onto 1 u) v n = (runWeClose s v n).map (Prod.map (·.onto 1 u) id) := by
  simp only [runWeClose, put_onto]
  cases put s v n with
  | error e => rfl
  | ok t =>
    simp only [Except.map, flush_onto]
    cases flush t <;> rfl

/-! #### The read engine -/

@[simp] theorem consumedBits_onto : consumedBits (s.onto 2 u) = consumedBits s := rfl
@[simp] theorem reloadAddr_onto : reloadAddr (s.onto 2 u) = reloadAddr s := rfl

theorem reloadFull_onto : reloadFull (s.onto 2 u) = (reloadFull s).map (Prod.map (·.onto 2 u) id) := by
  simp only [reloadFull, reloadAddr_onto, onto_width, onto_mem]
  cases boundedRead s.mem (reloadAddr s) s.width.bytes <;> rfl

theorem reloadTail_onto : reloadTail (s.onto 2 u) = (reloadTail s).map (Prod.map (·.onto 2 u) id) := by
  simp only [reloadTail, reloadAddr_onto, onto_width, onto_mem, onto_re]
  cases boundedRead s.mem (reloadAddr s) (s.re.bufEnd.toNat + s.width.bytes - reloadAddr s) <;> rfl

/-- The three cases of R121 are told apart by what the read engine holds. -/
theorem reload_onto : reload (s.onto 2 u) = (reload s).map (Prod.map (·.onto 2 u) id) := by
  simp only [reload, reloadAddr_onto, onto_re, reloadFull_onto, reloadTail_onto]
  split
  · rfl
  · split <;> rfl

theorem reloadRecorded_onto :
    reloadRecorded (s.onto 2 u) = (reloadRecorded s).map (Prod.map (·.onto 2 u) id) := by
  simp only [reloadRecorded, reload_onto]
  cases reload s <;> rfl

theorem refill_onto (n : Nat) : refill (s.onto 2 u) n = (refill s n).map (·.onto 2 u) := by
  simp only [refill, onto_re, reloadRecorded_onto]
  split
  · cases reloadRecorded s <;> rfl
  · rfl

theorem runReInit_onto (base cap : Nat) :
    runReInit (s.onto 2 u) base cap = (runReInit s base cap).map (Prod.map (·.onto 2 u) id) := by
  rw [runReInit, onto_width, onto_mem, runReInit]
  split
  · rfl
  · cases boundedRead s.mem base s.width.bytes <;> rfl

theorem runRePeek_onto (n : Nat) :
    runRePeek (s.onto 2 u) n = (runRePeek s n).map (Prod.map (·.onto 2 u) id) := by
  rw [runRePeek, onto_re, runRePeek]
  split <;> rfl

theorem runReConsume_onto (n : Nat) :
    runReConsume (s.onto 2 u) n = (runReConsume s n).map (Prod.map (·.onto 2 u) id) := by
  rw [runReConsume, onto_re, runReConsume]
  split <;> rfl

theorem runReRead_onto (n : Nat) :
    runReRead (s.onto 2 u) n = (runReRead s n).map (Prod.map (·.onto 2 u) id) := by
  simp only [runReRead, refill_onto]
  cases refill s n with
  | error e => rfl
  | ok t =>
    simp only [Except.map]
    rw [onto_re]
    split <;> rfl

theorem runReReload_onto : runReReload (s.onto 2 u) = (runReReload s).map (Prod.map (·.onto 2 u) id) := by
  simp only [runReReload, reloadRecorded_onto]
  cases reloadRecorded s <;> rfl

/-! #### The normalizer -/

theorem runFnNorm_onto (m : Nat) :
    runFnNorm (s.onto 3 u) m = (runFnNorm s m).map (Prod.map (·.onto 3 u) id) := rfl

/-! #### The commands -/

/-- The unit commands run alike from `s` put over `u`: each is the checks of R205 and the commitment of
an execution that commutes with `onto`. -/
theorem exec_onto (i : Instr) (hi : i.opcode.toNat / 16 ≠ 0) :
    SameAnswer (i.opcode.toNat / 16) (exec i s) (exec i (s.onto (i.opcode.toNat / 16) u)) := by
  cases i with dsimp only [Instr.opcode] at hi ⊢
  | nop => exact absurd rfl hi
  | rdState => exact absurd rfl hi
  | weInit => exact sameAnswer_unlessHalted (sameAnswer_require (sameAnswer_commit (runWeInit_onto s u _ _)))
  | weWrite => exact sameAnswer_unlessHalted (sameAnswer_require (sameAnswer_require
      (sameAnswer_commit (runWeWrite_onto s u _ _))))
  | weFlush => exact sameAnswer_unlessHalted (sameAnswer_require (sameAnswer_commit (runWeFlush_onto s u)))
  | weClose => exact sameAnswer_unlessHalted (sameAnswer_require (sameAnswer_require
      (sameAnswer_commit (runWeClose_onto s u _ _))))
  | reInit => exact sameAnswer_unlessHalted (sameAnswer_require (sameAnswer_commit (runReInit_onto s u _ _)))
  | rePeek => exact sameAnswer_unlessHalted (sameAnswer_require (sameAnswer_require
      (sameAnswer_commit (runRePeek_onto s u _))))
  | reConsume => exact sameAnswer_unlessHalted (sameAnswer_require (sameAnswer_require
      (sameAnswer_commit (runReConsume_onto s u _))))
  | reRead => exact sameAnswer_unlessHalted (sameAnswer_require (sameAnswer_require
      (sameAnswer_commit (runReRead_onto s u _))))
  | reReload => exact sameAnswer_unlessHalted (sameAnswer_require (sameAnswer_commit (runReReload_onto s u)))
  | reClose => exact sameAnswer_unlessHalted (sameAnswer_require (sameAnswer_commit rfl))
  | fnCount => exact sameAnswer_unlessHalted (sameAnswer_require (sameAnswer_commit rfl))
  | fnNorm => exact sameAnswer_unlessHalted (sameAnswer_require (sameAnswer_commit (runFnNorm_onto s u _)))
  | fnRdRaw => exact sameAnswer_commit (s := s) (e := .ok (s, .ok, _)) rfl
  | fnRdNorm => exact sameAnswer_commit (s := s) (e := .ok (s, .ok, _)) rfl

end Procedures

/-- Settles O59: a state that agrees with `s` on what the command's unit works on is `s` put over it, and the
command answers alike from there. -/
theorem commandsDependOnTheirUnitAlone : Obligations.CommandsDependOnTheirUnitAlone := by
  intro i s u t hw hb hm hwe hre hfn hi h
  have hu : s.onto (i.opcode.toNat / 16) u = u := onto_eq_self_iff.mpr ⟨hw, hb, hm, hwe, hre, hfn⟩
  obtain ⟨t', ht', hview, hresp⟩ := exec_onto s u i hi t h
  obtain ⟨-, hb', hm', hwe', hre', hfn'⟩ := onto_eq_self_iff.mp hview
  rw [hu] at ht'
  exact ⟨t', ht', hb'.symm, hm'.symm, fun k => (hwe' k).symm, fun k => (hre' k).symm,
    fun k => (hfn' k).symm, hresp⟩

end Sys2Proof.Machine

namespace Sys2Proof.Machine

/-! ### The state register map (R41, R87) -/

section RegisterMap

variable {s : State} {idx : BitVec 8}

/-- The registers of R41 as numbers, each written out from its fields. -/
def registerNumbers (s : State) : List (BitVec 8 × Nat) :=
  [(0x00, s.blk.fcode.toNat * 256 + (if s.blk.halted then 1 else 0)),
   (0x01, if s.width = .w32 then 0x1A20 else 0x1A40),
   (0x10, if s.we.valid then 1 else 0), (0x11, s.we.word.toNat), (0x12, s.we.bitoff.toNat),
   (0x13, s.we.start.toNat), (0x14, s.we.cursor.toNat), (0x15, s.we.bufEnd.toNat),
   (0x20, if s.re.valid then 1 else 0), (0x21, s.re.word.toNat), (0x22, s.re.bitoff.toNat),
   (0x23, s.re.start.toNat), (0x24, s.re.cursor.toNat), (0x25, s.re.bufEnd.toNat),
   (0x26, if s.re.rstat = .incomplete then 0 else if s.re.rstat = .endOfBuffer then 1 else 2),
   (0x30, (if s.fn.nvalid then 1 else 0) + (if s.fn.nfail then 2 else 0)),
   (0x31, s.fn.maxsym.toNat)]

theorem registerMap_indices (s : State) : (registerMap s).map Prod.fst = mappedIndices := rfl

theorem blockId_eq (w : WordWidth) : blockId w = BitVec.ofNat 64 (if w = .w32 then 0x1A20 else 0x1A40) := by
  cases w <;> rfl

theorem ReloadStatus.code_eq (r : ReloadStatus) :
    r.code.setWidth 64 =
      BitVec.ofNat 64 (if r = .incomplete then 0 else if r = .endOfBuffer then 1 else 2) := by
  cases r <;> rfl

theorem Normalizer.statusWord_eq (f : Normalizer) :
    f.statusWord = BitVec.ofNat 64 ((if f.nvalid then 1 else 0) + (if f.nfail then 2 else 0)) := by
  unfold Normalizer.statusWord
  cases f.nvalid <;> cases f.nfail <;> rfl

/-- The register map holds the registers' numbers, zero-extended to 64 bits. -/
theorem registerMap_eq_numbers (s : State) :
    registerMap s = (registerNumbers s).map fun p => (p.1, BitVec.ofNat 64 p.2) := by
  simp only [registerMap, registerNumbers, List.map_cons, List.map_nil, BitVec.ofNat_toNat, BitVec.setWidth_eq,
    blockId_eq, ReloadStatus.code_eq, Normalizer.statusWord_eq]
  rfl

/-- An entry of the map is what its index reads: no index stands twice in the map. -/
theorem stateRegister_of_mem {v : Word} (h : (idx, v) ∈ registerMap s) : stateRegister s idx = some v := by
  have hkeys : ((registerMap s).map Prod.fst).Nodup := by rw [registerMap_indices]; decide
  have hsome : ((registerMap s).find? fun r => decide (r.1 = idx)).isSome :=
    List.find?_isSome.mpr ⟨_, h, decide_eq_true rfl⟩
  obtain ⟨r, hr⟩ := Option.isSome_iff_exists.mp hsome
  have hidx : r.1 = idx := by simpa using List.find?_some hr
  rw [stateRegister, hr, List.inj_on_of_nodup_map hkeys (List.mem_of_find?_eq_some hr) h hidx]
  rfl

theorem stateRegister_of_unmapped (h : idx ∉ mappedIndices) : stateRegister s idx = none := by
  rw [stateRegister, Option.map_eq_none_iff, List.find?_eq_none]
  intro r hr hidx
  exact h (of_decide_eq_true hidx ▸ registerMap_indices s ▸ List.mem_map_of_mem hr)

theorem exec_rdState_of_some {v : Word} (h : stateRegister s idx = some v) :
    exec (.rdState idx) s = .next (s.answered 0x00 v) := by
  simp only [exec, execRdState, h]
  rfl

theorem exec_rdState_of_none (h : stateRegister s idx = none) : exec (.rdState idx) s = .next s.rejectWord := by
  simp only [exec, execRdState, h]

/-- A refused word is answered (HALTED, 0) while halted (R204), and is the fault ILLEGAL otherwise (R207). -/
theorem rejectWord_eq (s : State) :
    s.rejectWord = if s.blk.halted then s.answered 0x1F 0 else s.faulted 0x10 := rfl

/-- The register map right after reset (R40). -/
theorem registerMap_resetAt (w : WordWidth) :
    registerMap (.resetAt w) =
      mappedIndices.map fun i => (i, if i = 0x01 then blockId w else if i = 0x31 then 0x100 else 0) := by
  cases w <;> rfl

theorem stateRegister_resetAt (w : WordWidth) (hmap : idx ∈ mappedIndices) (hid : idx ≠ 0x01) :
    stateRegister (.resetAt w) idx = some (if idx = 0x31 then 0x100 else 0) := by
  refine stateRegister_of_mem ?_
  rw [registerMap_resetAt, List.mem_map]
  exact ⟨idx, hmap, by rw [if_neg hid]⟩

end RegisterMap

/-- Settles O26: the 17 registers are the entries of the map, and every other index is looked up in vain. -/
theorem readStateFollowsTheMap : Obligations.ReadStateFollowsTheMap := by
  intro s
  refine ⟨fun p hp => ?_, fun idx hidx => ?_⟩
  · have hmem : (p.1, BitVec.ofNat 64 p.2) ∈ registerMap s :=
      registerMap_eq_numbers s ▸ List.mem_map_of_mem (f := fun p => (p.1, BitVec.ofNat 64 p.2)) hp
    exact exec_rdState_of_some (stateRegister_of_mem hmem)
  · rw [exec_rdState_of_none (stateRegister_of_unmapped hidx), rejectWord_eq]

/-! ### Reset (R40, R240 to R242) -/

@[simp] theorem entry_reset_raw (i : Symbol) : Normalizer.reset.raw.entry i = 0 := entry_zero i

@[simp] theorem entry_reset_norm (i : Symbol) : Normalizer.reset.norm.entry i = 0 := entry_zero i

/-- Settles O13: the step takes the reset move and applies the reset input. -/
theorem resetInputResetsTheRegisters : Obligations.ResetInputResetsTheRegisters := by
  intro s rest h
  exact ⟨_, step_of_reset h, rfl, rfl, rfl, fun i => ⟨entry_reset_raw i, entry_reset_norm i⟩, rfl, rfl, rfl, rfl,
    rfl, rfl, rfl⟩

/-- Settles O14: all mapped indices but BLK_ID and FN.MAXSYM read 0 in the map right after reset. -/
theorem resetStateReadsAsTheSpecSays : Obligations.ResetStateReadsAsTheSpecSays := by
  intro w
  refine ⟨fun idx hidx => ?_, stateRegister_resetAt w (by decide) (by decide),
    fun i => ⟨entry_reset_raw i, entry_reset_norm i⟩⟩
  have hplain : ∀ idx ∈ ([0x00, 0x10, 0x11, 0x12, 0x13, 0x14, 0x15, 0x20, 0x21, 0x22, 0x23, 0x24, 0x25, 0x26,
      0x30] : List (BitVec 8)), idx ∈ mappedIndices ∧ idx ≠ 0x01 ∧ idx ≠ 0x31 := by decide
  obtain ⟨hmap, hid, hmax⟩ := hplain idx hidx
  rw [stateRegister_resetAt w hmap hid, if_neg hmax]

/-! ### The invariant of the reachable states

Each unit's procedures keep the unit's own part of `State.Inv` and leave the others' parts alone; the checks of the
command cycle and its faults then carry the invariant to whole commands, and to every step. -/

section Invariant

variable {s t : State}

/-! #### What replacing a part of the state keeps -/

theorem State.Inv.withWriter {m : Memory} {e : WriteEngine} (hI : s.Inv) (hm : m.wf = true) (he : e.ok s.width) :
    { s with mem := m, we := e }.Inv := ⟨hI.blk, he, hI.re, hI.fn, hm⟩

theorem State.Inv.withReader {e : ReadEngine} (hI : s.Inv) (he : e.ok s.width) : { s with re := e }.Inv :=
  ⟨hI.blk, hI.we, he, hI.fn, hI.mem⟩

theorem State.Inv.withNormalizer {f : Normalizer} (hI : s.Inv) (hf : f.ok) : { s with fn := f }.Inv :=
  ⟨hI.blk, hI.we, hI.re, hf, hI.mem⟩

/-- The host's list of moves is no part of the invariant. -/
theorem State.Inv.withMoves (hI : s.Inv) (rest : List HostMove) : { s with moves := rest }.Inv :=
  ⟨hI.blk, hI.we, hI.re, hI.fn, hI.mem⟩

/-- Nor is the host's record of responses. -/
theorem State.Inv.respond (hI : s.Inv) (rc : RCode) (d : Word) : (s.respond rc d).Inv :=
  ⟨hI.blk, hI.we, hI.re, hI.fn, hI.mem⟩

theorem FaultCode.code_mem (c : FaultCode) : c.code ∈ faultCodes := by cases c <;> decide

/-- A fault records one of the codes of R201. -/
theorem State.Inv.takeFault (hI : s.Inv) (c : FaultCode) : (s.takeFault c).Inv :=
  ⟨c.code_mem, hI.we, hI.re, hI.fn, hI.mem⟩

theorem State.Inv.rejectWord (hI : s.Inv) : s.rejectWord.Inv := by
  unfold State.rejectWord
  split
  · exact hI.respond _ _
  · exact hI.takeFault _

theorem State.Inv.hostStore (hI : s.Inv) (a : Addr) (b : Byte) : (s.hostStore a b).Inv :=
  hI.withWriter (wf_writeByte hI.mem a.isLt) hI.we

/-! #### The write engine -/

/-- An INIT that passes its checks sets up a buffer larger than one word, inside MEM (R100, R120, R209). -/
theorem bufferOk_of_region {w : WordWidth} {base cap : Nat} (hcap : w.bytes < cap) (hlen : cap < 2 ^ 24)
    (hfit : base + cap ≤ memSize) :
    bufferOk w (narrowAddr base) (narrowAddr base) (narrowAddr (base + cap - w.bytes)) := by
  have hB := wordBytes_range w
  rw [memSize] at hfit
  rw [bufferOk, memSize, toNat_narrowAddr (by omega), toNat_narrowAddr (by omega)]
  omega

theorem toNat_narrowBitoff_bits (w : WordWidth) : (narrowBitoff w.bits).toNat = w.bits :=
  toNat_narrowBitoff (by have := wordBits_range w; omega)

theorem initializedWriter_ok {w : WordWidth} {base cap : Nat} (hcap : w.bytes < cap) (hlen : cap < 2 ^ 24)
    (hfit : base + cap ≤ memSize) : (initializedWriter w base cap).ok w :=
  ⟨Nat.two_pow_pos _, (toNat_narrowBitoff_bits w).le, Nat.zero_mod _,
    fun _ => bufferOk_of_region hcap hlen hfit⟩

theorem runWeInit_inv {base cap : Nat} {rc : RCode} {d : Word} (hI : s.Inv) (hlen : cap < 2 ^ 24)
    (hfit : base + cap ≤ memSize) (h : runWeInit s base cap = .ok (t, rc, d)) : t.Inv := by
  obtain ⟨hword, hbits, hfree, -⟩ := hI.we
  unfold runWeInit at h
  split at h
  · cases h
    exact hI.withWriter hI.mem ⟨hword, hbits, hfree, nofun⟩
  · cases h
    exact hI.withWriter hI.mem (initializedWriter_ok (Nat.lt_of_not_le ‹_›) hlen hfit)

theorem flush_inv (hI : s.Inv) (h : flush s = .ok t) : t.Inv := by
  obtain ⟨hfit, rfl⟩ := flush_eq_ok.mp h
  exact hI.withWriter (wf_memWrite hI.mem hfit) (flushedEngine_ok hI.we)

theorem put_inv {v n : Nat} (hI : s.Inv) (h : put s v n = .ok t) : t.Inv := by
  rcases put_eq_ok.mp h with ⟨hn, rfl⟩ | ⟨-, u, hu, hn, rfl⟩
  · exact hI.withWriter hI.mem (appendBits_ok hI.we hn)
  · have hIu := flush_inv hI hu
    exact hIu.withWriter hIu.mem (appendBits_ok hIu.we hn)

/-! #### The read engine -/

theorem initializedReader_ok {w : WordWidth} {base cap v : Nat} (hcap : w.bytes < cap) (hlen : cap < 2 ^ 24)
    (hfit : base + cap ≤ memSize) : (initializedReader w base cap v).ok w :=
  ⟨(toNat_narrowWord w v).trans_lt (Nat.mod_lt _ (Nat.two_pow_pos _)), (toNat_narrowBitoff_bits w).le,
    fun _ => bufferOk_of_region hcap hlen hfit⟩

theorem runReInit_inv {base cap : Nat} {rc : RCode} {d : Word} (hI : s.Inv) (hlen : cap < 2 ^ 24)
    (hfit : base + cap ≤ memSize) (h : runReInit s base cap = .ok (t, rc, d)) : t.Inv := by
  obtain ⟨hword, hbits, -⟩ := hI.re
  unfold runReInit at h
  split at h
  · cases h
    exact hI.withReader ⟨hword, hbits, nofun⟩
  · split at h
    · cases h
    · cases h
      exact hI.withReader (initializedReader_ok (Nat.lt_of_not_le ‹_›) hlen hfit)

theorem consumeBits_inv (n : Nat) (hI : s.Inv) : (consumeBits s n).Inv := hI.withReader (consumeBits_ok n hI.re)

/-- A reload on an initialised engine, its status recorded. -/
theorem reloadRecorded_inv {st : ReloadStatus} (hI : s.Inv) (hv : s.re.valid = true)
    (h : reloadRecorded s = .ok (t, st)) : t.Inv := by
  obtain ⟨u, hu, rfl⟩ := reloadRecorded_eq_ok.mp h
  have hok := reload_ok hI.re hv hu
  rw [reload_frame hu] at hok ⊢
  exact hI.withReader hok

theorem refill_inv {n : Nat} (hI : s.Inv) (hv : s.re.valid = true) (h : refill s n = .ok t) : t.Inv := by
  by_cases hn : s.re.bitoff.toNat < n
  · obtain ⟨st, hst⟩ := (refill_eq_ok_of_short hn).mp h
    exact reloadRecorded_inv hI hv hst
  · rw [refill_of_enough (Nat.not_lt.mp hn)] at h
    cases h
    exact hI

/-! #### The normalizer -/

/-- With NVALID = 0 the invariant says nothing of the table FN.NORM. -/
theorem normalizer_ok_of_invalid {f : Normalizer} (hv : f.nvalid = false) (hmax : f.maxsym.toNat ≤ 0x100)
    (hraw : ∀ i : Symbol, (f.raw.entry i).toNat < 2 ^ 24) : f.ok :=
  ⟨hmax, by simp [hv], hraw, by simp [hv]⟩

theorem normalizer_reset_ok : Normalizer.reset.ok := normalizer_ok_of_invalid rfl (by decide) (by simp)

theorem toNat_symbol_setWidth_le (i : Symbol) : (i.setWidth 9).toNat ≤ 0x100 := by
  have := i.isLt
  rw [BitVec.toNat_setWidth_of_le (by decide)]
  omega

theorem symbol_setWidth_setWidth (i : Symbol) : (i.setWidth 9).setWidth 8 = i := by
  rw [BitVec.setWidth_setWidth_of_le _ (by decide), BitVec.setWidth_eq]

/-- The counting loop counts each of at most 2^24 - 1 bytes once (R150). -/
theorem countedNormalizer_ok {f : Normalizer} (hf : f.ok) (m : Memory) (a : Nat) (len : BitVec 24) :
    ({ f with raw := countBytes m a (lengthOf len) }.clearStatus).ok := by
  obtain ⟨hmax, -⟩ := hf
  have hlen := len.isLt
  refine normalizer_ok_of_invalid rfl hmax fun i => ?_
  have hcount := (entry_countBytes m a (lengthOf len) (hlen.trans (by decide)) i).2
  exact Nat.lt_of_le_of_lt hcount hlen

/-- FN_NORM's table describes FN.RAW whenever it is marked valid (R151, R162). -/
theorem normalizeCounts_ok {f : Normalizer} {m : Nat} (hf : f.ok) (hpos : 0 < m) (hm : m < 2 ^ 32) :
    (normalizeCounts f m).1.ok := by
  obtain ⟨-, -, hraw, -⟩ := hf
  by_cases hempty : maxEntry f.raw = 0
  · rw [normalizeCounts_of_empty hempty]
    have hzero := maxEntry_eq_zero.mp hempty
    exact ⟨le_refl 0x100, by simp, hraw, fun _ i => by simp [hzero]⟩
  · obtain ⟨hms, hle, habsent, hpresent⟩ := repair_scaleTable f hpos hm hempty
    rcases hr : repair f.raw (maxSymbol f.raw) (presentSymbols f.raw) (scaleTable f.raw m) with ⟨u, _ | v⟩
    · rw [normalizeCounts_of_repaired hempty hr]
      rw [hr] at hms hle habsent hpresent
      refine ⟨toNat_symbol_setWidth_le _, by simp, hraw, fun _ i => ?_⟩
      rw [symbol_setWidth_setWidth, (maxSymbol_spec f.raw).1, hms]
      refine ⟨⟨hpresent rfl i, fun hi => ?_⟩, entry_le_maxEntry f.raw i, hle i⟩
      exact Nat.pos_of_ne_zero fun h0 => hi.ne' (habsent i h0)
    · rw [normalizeCounts_of_starved hempty hr]
      exact normalizer_ok_of_invalid rfl (toNat_symbol_setWidth_le _) hraw

theorem runFnNorm_inv {imm : BitVec 32} {rc : RCode} {d : Word} (hI : s.Inv) (h0 : maxTotalOf imm ≠ 0)
    (h : runFnNorm s (maxTotalOf imm) = .ok (t, rc, d)) : t.Inv := by
  cases h
  exact hI.withNormalizer (normalizeCounts_ok hI.fn (Nat.pos_of_ne_zero h0) imm.isLt)

/-! #### The command cycle -/

/-- Whenever an outcome is a next state, that state satisfies the invariant. -/
def LeadsToInv (o : StepOutcome) : Prop := ∀ t, o = .next t → t.Inv

theorem leadsToInv_unlessHalted {k : StepOutcome} (hI : s.Inv) (hk : LeadsToInv k) :
    LeadsToInv (unlessHalted s k) := by
  intro t h
  rcases unlessHalted_eq_next.mp h with ⟨-, rfl⟩ | ⟨-, h⟩
  · exact hI.respond _ _
  · exact hk t h

/-- Past a check the condition checked may be assumed. -/
theorem leadsToInv_require {c : FaultCode} {b : Bool} {k : StepOutcome} (hI : s.Inv) (hk : b = true → LeadsToInv k) :
    LeadsToInv (require s c b k) := by
  intro t h
  rcases require_eq_next.mp h with ⟨-, rfl⟩ | ⟨hb, h⟩
  · exact hI.takeFault c
  · exact hk hb t h

theorem leadsToInv_commit {e : Execution} (hI : s.Inv) (he : ∀ u rc d, e = .ok (u, rc, d) → u.Inv) :
    LeadsToInv (commit s e) := by
  intro t h
  rcases commit_eq_next.mp h with ⟨u, rc, d, hu, rfl⟩ | ⟨c, -, rfl⟩
  · exact (he u rc d hu).respond rc d
  · exact hI.takeFault c

/-- The ending of a command that changes nothing but the response. -/
theorem leadsToInv_respond (hI : s.Inv) (rc : RCode) (d : Word) : LeadsToInv (commit s (.ok (s, rc, d))) :=
  leadsToInv_commit hI (by rintro _ _ _ ⟨⟩; exact hI)

/-- The checks of the commands that name a region (R205, R209). -/
theorem leadsToInv_region {a : Addr} {l : BitVec 24} {k : StepOutcome} (hI : s.Inv)
    (hk : baseOf a + lengthOf l ≤ memSize → LeadsToInv k) : LeadsToInv (unlessHalted s (requireRegion s a l k)) :=
  leadsToInv_unlessHalted hI (leadsToInv_require hI fun hb => hk (of_decide_eq_true hb))

/-- The checks of the engine commands without a bit count (R205, R206). -/
theorem leadsToInv_engine {v : Bool} {k : StepOutcome} (hI : s.Inv) (hk : v = true → LeadsToInv k) :
    LeadsToInv (unlessHalted s (requireInit s v k)) :=
  leadsToInv_unlessHalted hI (leadsToInv_require hI hk)

/-- The checks of the engine commands with a bit count (R205, R206, R208). -/
theorem leadsToInv_engineBits {nb : BitVec 5} {v : Bool} {k : StepOutcome} (hI : s.Inv)
    (hk : v = true → LeadsToInv k) : LeadsToInv (unlessHalted s (requireBits s nb (requireInit s v k))) :=
  leadsToInv_unlessHalted hI (leadsToInv_require hI fun _ => leadsToInv_require hI hk)

/-- Every command keeps the invariant. -/
theorem exec_leadsToInv (i : Instr) (hI : s.Inv) : LeadsToInv (exec i s) := by
  cases i with
  | nop => exact leadsToInv_respond hI _ _
  | rdState idx =>
    cases hr : stateRegister s idx with
    | some v =>
      rw [exec_rdState_of_some hr]
      exact leadsToInv_respond hI .ok v
    | none =>
      rw [exec_rdState_of_none hr]
      rintro t ⟨⟩
      exact hI.rejectWord
  | weInit addr len =>
    exact leadsToInv_region hI fun hfit =>
      leadsToInv_commit hI fun _ _ _ h => runWeInit_inv hI len.isLt hfit h
  | weWrite val nb =>
    refine leadsToInv_engineBits hI fun _ => leadsToInv_commit hI fun u rc d h => ?_
    obtain ⟨hput, -⟩ := runWeWrite_eq_ok.mp h
    exact put_inv hI hput
  | weFlush =>
    refine leadsToInv_engine hI fun _ => leadsToInv_commit hI fun u rc d h => ?_
    obtain ⟨hflush, -⟩ := runWeFlush_eq_ok.mp h
    exact flush_inv hI hflush
  | weClose val nb =>
    refine leadsToInv_engineBits hI fun _ => leadsToInv_commit hI fun u rc d h => ?_
    obtain ⟨x, hput, hflush, -⟩ := runWeClose_eq_ok.mp h
    exact flush_inv (put_inv hI hput) hflush
  | reInit addr len =>
    exact leadsToInv_region hI fun hfit =>
      leadsToInv_commit hI fun _ _ _ h => runReInit_inv hI len.isLt hfit h
  | rePeek nb =>
    refine leadsToInv_engineBits hI fun _ => leadsToInv_commit hI fun u rc d h => ?_
    unfold runRePeek at h
    split at h <;> cases h
    exact hI
  | reConsume nb =>
    refine leadsToInv_engineBits hI fun _ => leadsToInv_commit hI fun u rc d h => ?_
    unfold runReConsume at h
    split at h <;> cases h
    exact consumeBits_inv _ hI
  | reRead nb =>
    refine leadsToInv_engineBits hI fun hv => leadsToInv_commit hI fun u rc d h => ?_
    obtain ⟨x, hx, -, rfl, -⟩ := runReRead_eq_ok.mp h
    exact consumeBits_inv _ (refill_inv hI hv hx)
  | reReload =>
    refine leadsToInv_engine hI fun hv => leadsToInv_commit hI fun u rc d h => ?_
    obtain ⟨st, hst, -⟩ := runReReload_eq_ok.mp h
    exact reloadRecorded_inv hI hv hst
  | reClose => exact leadsToInv_engine hI fun _ => leadsToInv_respond hI _ _
  | fnCount addr len =>
    refine leadsToInv_region hI fun _ => leadsToInv_commit hI ?_
    rintro _ _ _ ⟨⟩
    exact hI.withNormalizer (countedNormalizer_ok hI.fn _ _ len)
  | fnNorm imm =>
    exact leadsToInv_unlessHalted hI (leadsToInv_require hI fun h0 =>
      leadsToInv_commit hI fun _ _ _ h => runFnNorm_inv hI (of_decide_eq_true h0) h)
  | fnRdRaw idx => exact leadsToInv_respond hI _ _
  | fnRdNorm idx => exact leadsToInv_respond hI _ _

/-- A command word keeps the invariant, whether it decodes or not. -/
theorem runWord_leadsToInv (cw : Word) (hI : s.Inv) : LeadsToInv (runWord cw s) := by
  cases hd : decode cw with
  | ok i =>
    rw [runWord_of_ok hd]
    exact exec_leadsToInv i hI
  | error r =>
    rw [runWord_of_error hd]
    rintro t ⟨⟩
    exact hI.rejectWord

/-! #### The reset input -/

theorem writer_reset_ok (w : WordWidth) : WriteEngine.reset.ok w :=
  ⟨Nat.two_pow_pos _, Nat.zero_le _, Nat.zero_mod _, nofun⟩

theorem reader_reset_ok (w : WordWidth) : ReadEngine.reset.ok w := ⟨Nat.two_pow_pos _, Nat.zero_le _, nofun⟩

/-- The reset input brings every register back into the invariant, whatever it held. -/
theorem applyReset_inv (hm : s.mem.wf = true) : s.applyReset.Inv :=
  ⟨rfl, writer_reset_ok _, reader_reset_ok _, normalizer_reset_ok, hm⟩

end Invariant

/-- Settles O12: the state after reset is one that the reset input leaves as it is, with an empty MEM. -/
theorem resetSatisfiesTheInvariant : Obligations.ResetSatisfiesTheInvariant :=
  fun w => applyReset_inv (s := .resetAt w) rfl

/-- Settles O11, by cases on the host's next move; for a command, by cases on the command. -/
theorem everyStepKeepsTheInvariant : Obligations.EveryStepKeepsTheInvariant := by
  intro s t hI h
  match hm : s.moves with
  | [] =>
    rw [step_of_idle hm] at h
    cases h
    exact hI
  | .command cw :: rest =>
    rw [step_of_command hm] at h
    exact runWord_leadsToInv cw (hI.withMoves rest) t h
  | .store a b :: rest =>
    rw [step_of_store hm] at h
    cases h
    exact (hI.withMoves rest).hostStore a b
  | .reset :: rest =>
    rw [step_of_reset hm] at h
    cases h
    exact applyReset_inv (hI.withMoves rest).mem

end Sys2Proof.Machine

namespace Sys2Proof.Machine

/-! ### Memory (R50 to R62) -/

section Memory

variable {s t : State} {i : Instr}

/-! #### Which commands store (R51, R55) -/

/-- A command of another unit than the write engine's keeps MEM (R55, R244). -/
theorem exec_mem_of_otherUnit (hi : i.opcode.toNat / 16 ≠ 1) (h : exec i s = .next t) : t.mem = s.mem := by
  rcases exec_eq_next h with ⟨-, rfl⟩ | ⟨-, c, rfl⟩ | ⟨u, rc, d, rfl, hframe, -⟩
  · rfl
  · rfl
  · exact (hframe.we hi).2

/-- WE_INIT sets up registers only (R100). -/
theorem exec_weInit_mem {a : Addr} {l : BitVec 24} (h : exec (.weInit a l) s = .next t) : t.mem = s.mem := by
  simp only [exec, execWeInit, unlessHalted_eq_next, requireRegion, require_eq_next] at h
  rcases h with ⟨-, rfl⟩ | ⟨-, ⟨-, rfl⟩ | ⟨-, h⟩⟩
  · rfl
  · rfl
  · obtain ⟨u, rc, d, hu, -, e, rfl⟩ := runWeInit_spec (s := s) (base := baseOf a) (cap := lengthOf l)
    rw [hu] at h
    cases h
    rfl

/-- A command was turned away, with (HALTED, 0) or with a fault: MEM is as it was and the answer is not OK (R203,
R204). -/
def TurnedAway (s t : State) : Prop :=
  t.mem = s.mem ∧ ∃ r : Response, t.responses = r :: s.responses ∧ r.rcode ≠ 0x00

theorem turnedAway_refuseHalted (s : State) : TurnedAway s s.refuseHalted := ⟨rfl, _, rfl, by decide⟩

theorem turnedAway_takeFault (s : State) (c : FaultCode) : TurnedAway s (s.takeFault c) :=
  ⟨rfl, _, rfl, by cases c <;> decide⟩

/-- An engine command without a bit count is turned away, or its execution completes (R205). -/
theorem engine_eq_next {v : Bool} {e : Execution} (h : unlessHalted s (requireInit s v (commit s e)) = .next t) :
    TurnedAway s t ∨ ∃ u rc d, e = .ok (u, rc, d) ∧ t = u.respond rc d := by
  simp only [unlessHalted_eq_next, requireInit, require_eq_next, commit_eq_next] at h
  rcases h with ⟨-, rfl⟩ | ⟨-, ⟨-, rfl⟩ | ⟨-, hdone | ⟨c, -, rfl⟩⟩⟩
  · exact .inl (turnedAway_refuseHalted s)
  · exact .inl (turnedAway_takeFault s _)
  · exact .inr hdone
  · exact .inl (turnedAway_takeFault s c)

/-- An engine command with a bit count is turned away, or its execution completes (R205, R208). -/
theorem engineBits_eq_next {nb : BitVec 5} {v : Bool} {e : Execution}
    (h : unlessHalted s (requireBits s nb (requireInit s v (commit s e))) = .next t) :
    TurnedAway s t ∨ ∃ u rc d, e = .ok (u, rc, d) ∧ t = u.respond rc d := by
  by_cases hnb : nb.toNat ≤ 26
  · rw [requireBits_of_le hnb] at h
    exact engine_eq_next h
  · rw [requireBits_of_gt (Nat.lt_of_not_le hnb)] at h
    rcases unlessHalted_eq_next.mp h with ⟨-, rfl⟩ | ⟨-, h⟩
    · exact .inl (turnedAway_refuseHalted s)
    · cases h
      exact .inl (turnedAway_takeFault s _)

/-- What a WE_WRITE can do (R102). -/
theorem exec_weWrite_eq_next {v : BitVec 32} {nb : BitVec 5} (h : exec (.weWrite v nb) s = .next t) :
    TurnedAway s t ∨ ∃ u, put s v.toNat nb.toNat = .ok u ∧ t = u.respond .ok 0 := by
  rcases engineBits_eq_next h with haway | ⟨u, rc, d, hu, rfl⟩
  · exact .inl haway
  · obtain ⟨hput, rfl, rfl⟩ := runWeWrite_eq_ok.mp hu
    exact .inr ⟨u, hput, rfl⟩

/-- What a WE_FLUSH can do (R103). -/
theorem exec_weFlush_eq_next (h : exec .weFlush s = .next t) :
    TurnedAway s t ∨ ∃ u, flush s = .ok u ∧ t = u.respond .ok 0 := by
  rcases engine_eq_next h with haway | ⟨u, rc, d, hu, rfl⟩
  · exact .inl haway
  · obtain ⟨hflush, rfl, rfl⟩ := runWeFlush_eq_ok.mp hu
    exact .inr ⟨u, hflush, rfl⟩

/-- What a WE_CLOSE can do (R104). -/
theorem exec_weClose_eq_next {v : BitVec 32} {nb : BitVec 5} (h : exec (.weClose v nb) s = .next t) :
    TurnedAway s t ∨ ∃ p u, put s v.toNat nb.toNat = .ok p ∧ flush p = .ok u ∧
      t = u.respond (closeOutcome u).1 (closeOutcome u).2 := by
  rcases engineBits_eq_next h with haway | ⟨u, rc, d, hu, rfl⟩
  · exact .inl haway
  · obtain ⟨p, hput, hflush, hout⟩ := runWeClose_eq_ok.mp hu
    exact .inr ⟨p, u, hput, hflush, by rw [← hout]⟩

/-! #### Bytes in order (R52) -/

/-- A read is the sum of its bytes, each at its big-endian place; one byte more moves the others up by 8 bits. -/
theorem memRead_eq_sum (m : Memory) (a n : Nat) :
    memRead m a n = ((List.range n).map fun i => (readByte m (a + i)).toNat * 2 ^ (8 * (n - 1 - i))).sum := by
  induction n with
  | zero => rfl
  | succ n ih =>
    have hshift : ∀ i ∈ List.range n, (readByte m (a + i)).toNat * 2 ^ (8 * (n + 1 - 1 - i)) =
        (readByte m (a + i)).toNat * 2 ^ (8 * (n - 1 - i)) * 256 := by
      intro i hi
      have hlt := List.mem_range.mp hi
      rw [show 8 * (n + 1 - 1 - i) = 8 * (n - 1 - i) + 8 by omega, Nat.pow_add, ← Nat.mul_assoc]
    rw [memRead_succ, ih, List.range_succ, List.map_append, List.sum_append, List.map_congr_left hshift,
      List.sum_map_mul_right]
    simp

/-! #### Where the write engine stores (R57) -/

/-- A flush stores one word at the cursor, which leaves room for it below END + B (R57, R101). -/
theorem flush_readByte_outside (hok : s.we.ok s.width) (hm : s.mem.wf = true) (hv : s.we.valid = true)
    (h : flush s = .ok t) {x : Nat} (hx : x < s.we.start.toNat ∨ s.we.bufEnd.toNat + s.width.bytes ≤ x) :
    readByte t.mem x = readByte s.mem x := by
  obtain ⟨-, -, -, hbuf⟩ := hok
  obtain ⟨hstart, hcursor, -⟩ := hbuf hv
  obtain ⟨hfit, rfl⟩ := flush_eq_ok.mp h
  exact readByte_memWrite_outside hm hfit (by omega)

/-! #### The written stream (R53) -/

/-- A Put of bits that fit after a flush succeeds (R102, R210). -/
theorem exists_put {v n : Nat} (hI : s.Inv) (hv : s.we.valid = true)
    (hfit : n + (s.width.bits - s.we.bitoff.toNat) % 8 ≤ s.width.bits) : ∃ t, put s v n = .ok t := by
  obtain ⟨-, hbits, -⟩ := hI.we
  by_cases hn : n ≤ s.we.bitoff.toNat
  · exact ⟨_, put_of_room hn⟩
  · have hroom := flushedEngine_bitoff hbits
    have hflush := flush_of_inv hI hv
    have hafter : n ≤ (flushedEngine s).bitoff.toNat := by omega
    exact ⟨_, put_eq_ok.mpr (.inr ⟨Nat.lt_of_not_le hn, _, hflush, hafter, rfl⟩)⟩

/-- After a flush the whole stream stands in MEM from START, its last byte filled up with 0 bits (R24, R101). -/
theorem flush_memRead_stream (hok : s.we.ok s.width) (hm : s.mem.wf = true) (hv : s.we.valid = true)
    (h : flush s = .ok t) :
    memRead t.mem s.we.start.toNat ((s.writtenBits + 7) / 8) =
      s.writtenValue * 2 ^ (8 * ((s.writtenBits + 7) / 8) - s.writtenBits) := by
  have hheld := heldBits hok
  obtain ⟨hword, hbits, -, hbuf⟩ := hok
  obtain ⟨hstart, -⟩ := hbuf hv
  obtain ⟨hfit, rfl⟩ := flush_eq_ok.mp h
  have hB := wordBits_eq s.width
  simp only [State.writtenBits, State.writtenValue]
  generalize hdone : s.we.cursor.toNat - s.we.start.toNat = done
  generalize hpend : s.width.bits - s.we.bitoff.toNat = pend
  have hlen : (8 * done + pend + 7) / 8 = done + (pend + 7) / 8 := by omega
  have hcursor : s.we.start.toNat + done = s.we.cursor.toNat := by omega
  have hlast : memRead (memWrite s.mem s.we.cursor.toNat s.width.bytes s.we.word.toNat) s.we.cursor.toNat
      ((pend + 7) / 8) = s.we.word.toNat / 2 ^ s.we.bitoff.toNat * 2 ^ (8 * ((pend + 7) / 8) - pend) := by
    rw [memRead_memWrite_prefix hm hfit (by omega), ← hB, Nat.mod_eq_of_lt hword]
    conv_lhs => rw [hheld]
    rw [mul_two_pow_div (by omega)]
    congr 2
    omega
  have hpow : (2 : Nat) ^ (8 * ((pend + 7) / 8)) = 2 ^ pend * 2 ^ (8 * ((pend + 7) / 8) - pend) := by
    rw [← Nat.pow_add]
    congr 1
    omega
  rw [hlen, memRead_add, hcursor, hlast, memRead_memWrite_below hm hfit (by omega), hpow,
    show 8 * (done + (pend + 7) / 8) - (8 * done + pend) = 8 * ((pend + 7) / 8) - pend by omega]
  ring

/-- A flush keeps END (R101). -/
theorem flush_bufEnd (h : flush s = .ok t) : t.we.bufEnd = s.we.bufEnd := by
  obtain ⟨-, rfl⟩ := flush_eq_ok.mp h
  rfl

/-- A flush never moves the cursor down (R101). -/
theorem flush_cursor_le (hok : s.we.ok s.width) (hv : s.we.valid = true) (h : flush s = .ok t) :
    s.we.cursor.toNat ≤ t.we.cursor.toNat := by
  obtain ⟨-, -, -, hbuf⟩ := hok
  obtain ⟨-, hcursor, -⟩ := hbuf hv
  obtain ⟨-, rfl⟩ := flush_eq_ok.mp h
  simp only [flushedEngine_cursor]
  omega

/-- A flush that leaves the cursor below END was not clamped (R101). -/
theorem flush_unclamped (h : flush s = .ok t) (hend : t.we.cursor.toNat < s.we.bufEnd.toNat) :
    s.we.cursor.toNat + (s.width.bits - s.we.bitoff.toNat) / 8 ≤ s.we.bufEnd.toNat := by
  have hcursor := flushedEngine_cursor (s := s)
  obtain ⟨-, rfl⟩ := flush_eq_ok.mp h
  simp only [hcursor] at hend
  omega

/-- A Put that leaves the cursor below END appends its bits: its flush, if any, was not clamped (R101, R102). -/
theorem put_stream_of_cursor_lt {v n : Nat} (hok : s.we.ok s.width) (hm : s.mem.wf = true) (hv : s.we.valid = true)
    (hp : put s v n = .ok t) (hend : t.we.cursor.toNat < s.we.bufEnd.toNat) :
    t.writtenBits = s.writtenBits + n ∧ t.writtenValue = s.writtenValue * 2 ^ n + v % 2 ^ n := by
  rcases put_eq_ok.mp hp with ⟨hroom, rfl⟩ | ⟨-, u, hu, -, rfl⟩
  · have ⟨_, hbits, _⟩ := hok
    exact ⟨appendBits_writtenBits hbits hroom, appendBits_writtenValue hok hroom⟩
  · exact put_stream hok hm hv (flush_unclamped hu hend) hp

/-- The length that WE_CLOSE reports after an unclamped flush: the stream's, rounded up to bytes (R104). -/
theorem flush_streamLength (hok : s.we.ok s.width) (hv : s.we.valid = true) (h : flush s = .ok t)
    (hend : t.we.cursor.toNat < s.we.bufEnd.toNat) : streamLength t = (s.writtenBits + 7) / 8 := by
  have hbits := flush_writtenBits hok hv (flush_unclamped h hend) h
  obtain ⟨-, hle, -⟩ := hok
  have hoff := flushedEngine_bitoff hle
  obtain ⟨-, rfl⟩ := flush_eq_ok.mp h
  rw [← hbits]
  simp only [streamLength, State.writtenBits, hoff]
  split <;> omega

/-- A stream length is far below 2^64, so the response carries it whole (R82). -/
theorem toNat_streamLength (s : State) : (BitVec.ofNat 64 (streamLength s)).toNat = streamLength s := by
  have hcursor := s.we.cursor.isLt
  rw [BitVec.toNat_ofNat, Nat.mod_eq_of_lt]
  unfold streamLength
  split <;> omega

/-- WE_CLOSE answers OK only below END, and then with the stream length (R104). -/
theorem closeOutcome_ok (h : (closeOutcome s).1.code = 0x00) :
    s.we.cursor.toNat < s.we.bufEnd.toNat ∧ (closeOutcome s).2 = BitVec.ofNat 64 (streamLength s) := by
  unfold closeOutcome at h ⊢
  split
  · rw [if_pos ‹_›] at h
    exact absurd h (by decide)
  · exact ⟨Nat.lt_of_not_le ‹_›, rfl⟩

/-! #### The unread stream (R53) -/

/-- RE_INIT's first word followed by the bytes beyond it is the whole region (R52, R120). -/
theorem initializedReader_unread {base cap : Nat} (hcap : s.width.bytes < cap) (hfit : base + cap ≤ memSize) :
    let u : State := { s with re := initializedReader s.width base cap (memRead s.mem base s.width.bytes) }
    u.unreadBits = 8 * cap ∧ u.unreadValue = memRead s.mem base cap ∧ u.readerCoherent := by
  have hB := wordBits_eq s.width
  have hlow := wordBytes_range s.width
  rw [memSize] at hfit
  have hcursor : (narrowAddr base).toNat = base := toNat_narrowAddr (by omega)
  have hend : (narrowAddr (base + cap - s.width.bytes)).toNat = base + cap - s.width.bytes :=
    toNat_narrowAddr (by omega)
  have hbits := toNat_narrowBitoff_bits s.width
  have hword := toNat_narrowWord_memRead s.width s.mem base (Nat.le_refl s.width.bytes)
  have hbeyond : base + cap - s.width.bytes - base = cap - s.width.bytes := by omega
  refine ⟨?_, ?_, fun _ => ?_⟩
  · simp only [State.unreadBits, initializedReader, hcursor, hend, hbits]
    omega
  · simp only [State.unreadValue, initializedReader, hcursor, hend, hbits, hword, hbeyond]
    rw [hB, Nat.mod_eq_of_lt (memRead_lt ..), ← memRead_add]
    congr 1
    omega
  · simp only [initializedReader, hcursor, hword]

/-- What RE_READ's refill can do: nothing when n bits are available, and a recorded reload otherwise (R125). -/
theorem refill_eq_ok {n : Nat} (h : refill s n = .ok t) :
    (n ≤ s.re.bitoff.toNat ∧ t = s) ∨ (s.re.bitoff.toNat < n ∧ ∃ st, reloadRecorded s = .ok (t, st)) := by
  by_cases hn : s.re.bitoff.toNat < n
  · exact .inr ⟨hn, (refill_eq_ok_of_short hn).mp h⟩
  · rw [refill_of_enough (Nat.le_of_not_lt hn)] at h
    cases h
    exact .inl ⟨Nat.le_of_not_lt hn, rfl⟩

theorem exists_refill (n : Nat) (hok : s.re.ok s.width) (hv : s.re.valid = true) : ∃ t, refill s n = .ok t := by
  rcases refill_cases (n := n) hok hv with ⟨-, h⟩ | ⟨-, t, st, -, h⟩
  exacts [⟨_, h⟩, ⟨_, h⟩]

/-- A refill keeps the length of the unread stream (R121). -/
theorem refill_unreadBits {n : Nat} (hok : s.re.ok s.width) (hv : s.re.valid = true) (h : refill s n = .ok t) :
    t.unreadBits = s.unreadBits := by
  rcases refill_eq_ok h with ⟨-, rfl⟩ | ⟨-, st, hst⟩
  · rfl
  · obtain ⟨u, hu, rfl⟩ := reloadRecorded_eq_ok.mp hst
    have hbits := reload_unreadBits hok hv hu
    exact hbits

/-- A refill keeps the unread stream and its agreement with MEM (R121). -/
theorem refill_unreadValue {n : Nat} (hok : s.re.ok s.width) (hv : s.re.valid = true) (hco : s.readerCoherent)
    (h : refill s n = .ok t) : t.unreadValue = s.unreadValue ∧ t.readerCoherent := by
  rcases refill_eq_ok h with ⟨-, rfl⟩ | ⟨-, st, hst⟩
  · exact ⟨rfl, hco⟩
  · obtain ⟨u, hu, rfl⟩ := reloadRecorded_eq_ok.mp hst
    have ⟨_, hvalue⟩ := reload_unread hok hv hco hu
    exact hvalue

/-- A refill makes n bits available, when the stream has them and a word holds them beside the partly consumed byte
(R125). -/
theorem refill_enough {n : Nat} (hok : s.re.ok s.width) (hv : s.re.valid = true) (hleft : n ≤ s.unreadBits)
    (hfit : n + (s.width.bits - s.re.bitoff.toNat) % 8 ≤ s.width.bits) (h : refill s n = .ok t) :
    n ≤ t.re.bitoff.toNat := by
  rcases refill_eq_ok h with ⟨hn, rfl⟩ | ⟨hn, st, hst⟩
  · exact hn
  · obtain ⟨u, hu, rfl⟩ := reloadRecorded_eq_ok.mp hst
    show n ≤ u.re.bitoff.toNat
    rcases reload_bitoff hok hv hu with ⟨hend, rfl⟩ | ⟨-, -, hb⟩ | ⟨-, -, hb⟩
    · rw [State.unreadBits, hend] at hleft
      omega
    · omega
    · omega

/-! #### Engine commands that pass their checks -/

theorem engine_of_ready {v : Bool} {k : StepOutcome} (hrun : s.blk.halted = false) (hv : v = true) :
    unlessHalted s (requireInit s v k) = k := by
  rw [unlessHalted_of_running hrun, requireInit_of_valid hv]

theorem engineBits_of_ready {nb : BitVec 5} {v : Bool} {k : StepOutcome} (hrun : s.blk.halted = false)
    (hnb : nb.toNat ≤ 26) (hv : v = true) : unlessHalted s (requireBits s nb (requireInit s v k)) = k := by
  rw [unlessHalted_of_running hrun, requireBits_of_le hnb, requireInit_of_valid hv]

theorem exec_weWrite_of_put {v : BitVec 32} {nb : BitVec 5} (hrun : s.blk.halted = false) (hv : s.we.valid = true)
    (hnb : nb.toNat ≤ 26) (h : put s v.toNat nb.toNat = .ok t) :
    exec (.weWrite v nb) s = .next (t.respond .ok 0) := by
  rw [exec, execWeWrite, engineBits_of_ready hrun hnb hv, runWeWrite_eq_ok.mpr ⟨h, rfl, rfl⟩, commit_ok]

theorem exec_weFlush_of_flush (hrun : s.blk.halted = false) (hv : s.we.valid = true) (h : flush s = .ok t) :
    exec .weFlush s = .next (t.respond .ok 0) := by
  rw [exec, execWeFlush, engine_of_ready hrun hv, runWeFlush_eq_ok.mpr ⟨h, rfl, rfl⟩, commit_ok]

theorem exec_reRead_of_refill {nb : BitVec 5} (hrun : s.blk.halted = false) (hv : s.re.valid = true)
    (hnb : nb.toNat ≤ 26) (h : refill s nb.toNat = .ok t) (hn : nb.toNat ≤ t.re.bitoff.toNat) :
    exec (.reRead nb) s = .next ((consumeBits t nb.toNat).respond .ok (BitVec.ofNat 64 (peekBits t nb.toNat))) := by
  rw [exec, execReRead, engineBits_of_ready hrun hnb hv,
    runReRead_eq_ok.mpr ⟨t, h, hn, rfl, rfl, rfl⟩, commit_ok]

theorem exec_reReload_of_reload {st : ReloadStatus} (hrun : s.blk.halted = false) (hv : s.re.valid = true)
    (h : reloadRecorded s = .ok (t, st)) : exec .reReload s = .next (t.respond .ok (st.code.setWidth 64)) := by
  rw [exec, execReReload, engine_of_ready hrun hv, runReReload_eq_ok.mpr ⟨st, h, rfl, rfl⟩, commit_ok]

theorem exec_reInit_of_region {a : Addr} {l : BitVec 24} (hrun : s.blk.halted = false)
    (hfit : a.toNat + l.toNat ≤ 2 ^ 32) (hcap : s.width.bytes < l.toNat) :
    exec (.reInit a l) s = .next (State.respond { s with
      re := initializedReader s.width a.toNat l.toNat (memRead s.mem a.toNat s.width.bytes) } .ok 0) := by
  have hword : a.toNat + s.width.bytes ≤ memSize := by rw [memSize]; omega
  have hread := boundedRead_of_fits (m := s.mem) hword
  rw [exec, execReInit, unlessHalted_of_running hrun, requireRegion_of_fits hfit, runReInit,
    if_neg (Nat.not_le_of_lt hcap), hread, commit_ok]

end Memory

/-- Settles O33: a Put of bits that fit succeeds, and no flush loses a bit while it is not clamped. -/
theorem writesAppendToTheStream : Obligations.WritesAppendToTheStream := by
  intro s hI hrun hv hclamp
  refine ⟨fun v nb hnb hfit => ?_, ?_⟩
  · obtain ⟨t, ht⟩ := exists_put hI hv hfit
    have hstream := put_stream hI.we hI.mem hv hclamp ht
    exact ⟨_, exec_weWrite_of_put hrun hv hnb ht, hstream⟩
  · have hflush := flush_of_inv hI hv
    have hbits := flush_writtenBits hI.we hv hclamp hflush
    have hvalue := flush_writtenValue hI.we hv hI.mem hclamp hflush
    exact ⟨_, exec_weFlush_of_flush hrun hv hflush, hbits, hvalue⟩

/-- Settles O34: an OK answer means that neither the marker's flush nor the final one was clamped, so the stream at
the final flush is the old one and the marker. -/
theorem closedStreamIsInMemory : Obligations.ClosedStreamIsInMemory := by
  intro s t v nb len hI hrun hv h hresp
  rcases exec_weClose_eq_next h with ⟨-, r, hr, hne⟩ | ⟨p, u, hp, hu, rfl⟩
  · rw [hresp] at hr
    cases hr
    exact absurd rfl hne
  · obtain ⟨hokp, hmp, -, hvp, hstart, hend, -⟩ := put_effect hI.we hI.mem hv hp
    rw [State.respond_responses] at hresp
    obtain ⟨hanswer, -⟩ := List.cons.inj hresp
    obtain ⟨hcode, rfl⟩ := Response.mk.inj hanswer
    obtain ⟨hbelow, hlen⟩ := closeOutcome_ok hcode
    rw [flush_bufEnd hu] at hbelow
    have hbelowp : p.we.cursor.toNat < s.we.bufEnd.toNat :=
      hend ▸ Nat.lt_of_le_of_lt (flush_cursor_le hokp hvp hu) hbelow
    obtain ⟨hbits, hvalue⟩ := put_stream_of_cursor_lt hI.we hI.mem hv hp hbelowp
    rw [hlen, toNat_streamLength, flush_streamLength hokp hvp hu hbelow, ← hstart, ← hbits, ← hvalue]
    have hstream := flush_memRead_stream hokp hmp hvp hu
    exact hstream

/-- Settles O43: the refill keeps the unread stream, and the read takes its first n bits off the refilled register. -/
theorem readTakesTheNextBits : Obligations.ReadTakesTheNextBits := by
  intro s nb hI hrun hv hnb hleft hfit
  obtain ⟨u, hu⟩ := exists_refill nb.toNat hI.re hv
  have hn := refill_enough hI.re hv hleft hfit hu
  have hbits := refill_unreadBits hI.re hv hu
  have hd : (BitVec.ofNat 64 (peekBits u nb.toNat)).toNat = peekBits u nb.toNat := by
    rw [BitVec.toNat_ofNat, Nat.mod_eq_of_lt (peekBits_lt hnb)]
  have hexec := exec_reRead_of_refill hrun hv hnb hu hn
  have hframe := refill_frame hu
  have hre : u = { s with re := u.re } := by rw [hframe]
  have hvalid : u.re.valid = s.re.valid := by rw [hframe]
  have hstart : u.re.start = s.re.start := by rw [hframe]
  have hend : u.re.bufEnd = s.re.bufEnd := by rw [hframe]
  have hafter : { s with re := (consumeBits u nb.toNat).re } = consumeBits u nb.toNat := by rw [hre]; rfl
  refine ⟨(consumeBits u nb.toNat).re, BitVec.ofNat 64 (peekBits u nb.toNat), ?_, ?_, ?_, hvalid.trans hv, hstart, hend,
    fun hroom => ?_, fun hshort => ?_, fun hco => ?_⟩
  · rw [hexec, ← hafter]
    rfl
  · rw [hd, peekBits_eq]
    exact Nat.mod_lt _ (Nat.two_pow_pos _)
  · rw [hafter, consumeBits_unreadBits hn, hbits]
  · rw [refill_of_enough hroom] at hu
    cases hu
    exact ⟨rfl, consumeBits_bitoff _, hd.trans (peekBits_eq _)⟩
  · obtain ⟨st, hst⟩ := (refill_eq_ok_of_short hshort).mp hu
    refine ⟨u.re, st.code.setWidth 64, ?_, hn, rfl, consumeBits_bitoff _, hd.trans (peekBits_eq _)⟩
    rw [exec_reReload_of_reload hrun hv hst, hre]
    rfl
  · obtain ⟨hvalue, hcoh⟩ := refill_unreadValue hI.re hv hco hu
    rw [hafter, hd, ← hvalue, ← hbits]
    exact ⟨consumeBits_unreadValue hn, consumeBits_coherent _ hcoh⟩

/-- Settles O35: a Put and a Flush each store below START + capacity only. -/
theorem flushesStayInTheBuffer : Obligations.FlushesStayInTheBuffer := by
  intro s t v nb hI hv i hi h x hx
  simp only [List.mem_cons, List.not_mem_nil, or_false] at hi
  rcases hi with rfl | rfl | rfl
  · rcases exec_weWrite_eq_next h with ⟨hmem, -⟩ | ⟨u, hu, rfl⟩
    · rw [hmem]
    · obtain ⟨-, -, -, -, -, -, hout, -⟩ := put_effect hI.we hI.mem hv hu
      exact hout x hx
  · rcases exec_weFlush_eq_next h with ⟨hmem, -⟩ | ⟨u, hu, rfl⟩
    · rw [hmem]
    · exact flush_readByte_outside hI.we hI.mem hv hu hx
  · rcases exec_weClose_eq_next h with ⟨hmem, -⟩ | ⟨p, u, hp, hu, rfl⟩
    · rw [hmem]
    · obtain ⟨hokp, hmp, hwidth, hvp, hstart, hend, hout, -⟩ := put_effect hI.we hI.mem hv hp
      rw [← hout x hx]
      exact flush_readByte_outside hokp hmp hvp hu (by rwa [hstart, hend, hwidth])

/-- Settles O36: both halves say what each byte contributes; the sum grows by one byte at its end. -/
theorem memoryIsBigEndian : Obligations.MemoryIsBigEndian := by
  refine ⟨memRead_eq_sum, fun m a n v hm hfit => ⟨fun i hi => ?_, fun x hx => readByte_memWrite_outside hm hfit hx⟩⟩
  rw [readByte_memWrite hm hfit, if_pos (by omega), BitVec.toNat_ofNat, show a + n - 1 - (a + i) = n - 1 - i by omega]

/-- Settles O37: of the write engine's four commands WE_INIT alone does not store. -/
theorem onlyTheWriteEngineStores : Obligations.OnlyTheWriteEngineStores := by
  intro i s t h hne
  cases i with
  | weWrite v nb => exact .inr ⟨v, nb, .inl rfl⟩
  | weFlush => exact .inl rfl
  | weClose v nb => exact .inr ⟨v, nb, .inr rfl⟩
  | weInit => exact absurd (exec_weInit_mem h) hne
  | _ => exact absurd (exec_mem_of_otherUnit (by simp [Instr.opcode]) h) hne

/-- Settles O39: the region is its first word and the bytes beyond it. -/
theorem readInitOpensTheStream : Obligations.ReadInitOpensTheStream := by
  intro s a l hrun hfit hcap
  exact ⟨_, exec_reInit_of_region hrun hfit hcap, rfl, initializedReader_unread hcap hfit⟩

/-- Settles O15: the step takes the host's move and writes its byte. -/
theorem hostStoreChangesOneByte : Obligations.HostStoreChangesOneByte :=
  ⟨fun _ a b _ hm h => ⟨_, step_of_store h, fun x => readByte_writeByte hm a.toNat x b⟩, fun _ h => step_of_idle h⟩

end Sys2Proof.Machine

namespace Sys2Proof

/-! ### The encoding (R70 to R90)

A command word is a number, and each format places its fields at their own places in it. So the fields read back from
an encoded word are the operands, and a word whose reserved bits are 0 is put together again from its fields. -/

/-! #### The fields of an encoded word (R71 to R76) -/

section EncodedFields

variable (opc : BitVec 8)

theorem encodeN_fields : (encodeN opc).toNat % 2 ^ 56 = 0 := by
  rw [encodeN, opcMatch_toNat]
  omega

theorem encodeA_fields (a : Addr) (l : BitVec 24) :
    l.toNat = (encodeA opc a l).toNat / 2 ^ 32 % 2 ^ 24 ∧ a.toNat = (encodeA opc a l).toNat % 2 ^ 32 := by
  have hl := l.isLt
  have ha := a.isLt
  rw [encodeA_toNat]
  omega

theorem encodeB_fields (v : BitVec 32) (n : BitVec 5) :
    (encodeB opc v n).toNat / 2 ^ 37 % 2 ^ 19 = 0 ∧ n.toNat = (encodeB opc v n).toNat / 2 ^ 32 % 2 ^ 5 ∧
      v.toNat = (encodeB opc v n).toNat % 2 ^ 32 := by
  have hv := v.isLt
  have hn := n.isLt
  rw [encodeB_toNat]
  omega

theorem encodeP_fields (n : BitVec 5) :
    (encodeP opc n).toNat / 2 ^ 37 % 2 ^ 19 = 0 ∧ n.toNat = (encodeP opc n).toNat / 2 ^ 32 % 2 ^ 5 ∧
      (encodeP opc n).toNat % 2 ^ 32 = 0 := by
  have hn := n.isLt
  rw [encodeP_toNat]
  omega

theorem encodeI_fields (m : BitVec 32) :
    (encodeI opc m).toNat / 2 ^ 32 % 2 ^ 24 = 0 ∧ m.toNat = (encodeI opc m).toNat % 2 ^ 32 := by
  have hm := m.isLt
  rw [encodeI_toNat]
  omega

theorem encodeX_fields (x : BitVec 8) :
    (encodeX opc x).toNat / 2 ^ 8 % 2 ^ 48 = 0 ∧ x.toNat = (encodeX opc x).toNat % 2 ^ 8 := by
  have hx := x.isLt
  rw [encodeX_toNat]
  omega

end EncodedFields

/-- The encoder puts every command's opcode into bits 63:56 (R70, R90). -/
theorem opcField_encode (i : Instr) : opcField (encode i) = i.opcode := by
  cases i with
  | nop | weFlush | reReload | reClose => exact Laws.OpcodeField.opcField_encodeN _
  | weInit a l | reInit a l | fnCount a l => exact Laws.OpcodeField.opcField_encodeA _ a l
  | weWrite v n | weClose v n => exact Laws.OpcodeField.opcField_encodeB _ v n
  | rePeek n | reConsume n | reRead n => exact Laws.OpcodeField.opcField_encodeP _ n
  | fnNorm m => exact Laws.OpcodeField.opcField_encodeI _ m
  | rdState x | fnRdRaw x | fnRdNorm x => exact Laws.OpcodeField.opcField_encodeX _ x

/-! #### Decoding an encoded word, format by format

Each lemma takes the row of the opcode map that the opcode has. -/

section DecodeEncode

variable {opc : BitVec 8} {name : String}

theorem decode_encodeN {i : Instr} (hrow : opcodeRow opc = some ⟨opc, name, .n, fun _ => i⟩) :
    decode (encodeN opc) = .ok i :=
  decode_ok_iff.mpr ⟨_, (congrArg opcodeRow (Laws.OpcodeField.opcField_encodeN _)).trans hrow,
    encodeN_fields opc, rfl⟩

theorem decode_encodeA {f : Addr → BitVec 24 → Instr} (a : Addr) (l : BitVec 24)
    (hrow : opcodeRow opc = some ⟨opc, name, .a, fun cw => f (lowField cw) (lenField cw)⟩) :
    decode (encodeA opc a l) = .ok (f a l) := by
  obtain ⟨hlen, haddr⟩ := encodeA_fields opc a l
  have ha : lowField (encodeA opc a l) = a := BitVec.eq_of_toNat_eq ((lowField_toNat _).trans haddr.symm)
  have hl : lenField (encodeA opc a l) = l := BitVec.eq_of_toNat_eq ((lenField_toNat _).trans hlen.symm)
  exact decode_ok_iff.mpr ⟨_, (congrArg opcodeRow (Laws.OpcodeField.opcField_encodeA _ a l)).trans hrow,
    trivial, congrArg₂ f ha hl⟩

theorem decode_encodeB {f : BitVec 32 → BitVec 5 → Instr} (v : BitVec 32) (n : BitVec 5)
    (hrow : opcodeRow opc = some ⟨opc, name, .b, fun cw => f (lowField cw) (nbField cw)⟩) :
    decode (encodeB opc v n) = .ok (f v n) := by
  obtain ⟨hzero, hnb, hval⟩ := encodeB_fields opc v n
  have hv : lowField (encodeB opc v n) = v := BitVec.eq_of_toNat_eq ((lowField_toNat _).trans hval.symm)
  have hn : nbField (encodeB opc v n) = n := BitVec.eq_of_toNat_eq ((nbField_toNat _).trans hnb.symm)
  exact decode_ok_iff.mpr ⟨_, (congrArg opcodeRow (Laws.OpcodeField.opcField_encodeB _ v n)).trans hrow,
    hzero, congrArg₂ f hv hn⟩

theorem decode_encodeP {f : BitVec 5 → Instr} (n : BitVec 5)
    (hrow : opcodeRow opc = some ⟨opc, name, .p, fun cw => f (nbField cw)⟩) :
    decode (encodeP opc n) = .ok (f n) := by
  obtain ⟨hzero, hnb, hlow⟩ := encodeP_fields opc n
  have hn : nbField (encodeP opc n) = n := BitVec.eq_of_toNat_eq ((nbField_toNat _).trans hnb.symm)
  exact decode_ok_iff.mpr ⟨_, (congrArg opcodeRow (Laws.OpcodeField.opcField_encodeP _ n)).trans hrow,
    ⟨hzero, hlow⟩, congrArg f hn⟩

theorem decode_encodeI {f : BitVec 32 → Instr} (m : BitVec 32)
    (hrow : opcodeRow opc = some ⟨opc, name, .i, fun cw => f (lowField cw)⟩) :
    decode (encodeI opc m) = .ok (f m) := by
  obtain ⟨hzero, himm⟩ := encodeI_fields opc m
  have hm : lowField (encodeI opc m) = m := BitVec.eq_of_toNat_eq ((lowField_toNat _).trans himm.symm)
  exact decode_ok_iff.mpr ⟨_, (congrArg opcodeRow (Laws.OpcodeField.opcField_encodeI _ m)).trans hrow,
    hzero, congrArg f hm⟩

theorem decode_encodeX {f : BitVec 8 → Instr} (x : BitVec 8)
    (hrow : opcodeRow opc = some ⟨opc, name, .x, fun cw => f (idxField cw)⟩) :
    decode (encodeX opc x) = .ok (f x) := by
  obtain ⟨hzero, hidx⟩ := encodeX_fields opc x
  have hx : idxField (encodeX opc x) = x := BitVec.eq_of_toNat_eq ((idxField_toNat _).trans hidx.symm)
  exact decode_ok_iff.mpr ⟨_, (congrArg opcodeRow (Laws.OpcodeField.opcField_encodeX _ x)).trans hrow,
    hzero, congrArg f hx⟩

end DecodeEncode

/-- Settles O1: the encoded word has the command's row, its reserved bits are 0, and its fields are the operands. -/
theorem decodeInvertsEncode : Obligations.DecodeInvertsEncode := by
  intro i
  cases i with
  | nop | weFlush | reReload | reClose => exact decode_encodeN rfl
  | weInit a l | reInit a l | fnCount a l => exact decode_encodeA a l rfl
  | weWrite v n | weClose v n => exact decode_encodeB v n rfl
  | rePeek n | reConsume n | reRead n => exact decode_encodeP n rfl
  | fnNorm m => exact decode_encodeI m rfl
  | rdState x | fnRdRaw x | fnRdNorm x => exact decode_encodeX x rfl

/-! #### A legal word from its fields (R85, R90) -/

/-- The row of an opcode is a row of the opcode map with that opcode (R80). -/
theorem mem_of_opcodeRow {opc : BitVec 8} {r : OpcodeRow} (h : opcodeRow opc = some r) :
    r ∈ opcodeMap ∧ r.opc = opc :=
  ⟨List.mem_of_find?_eq_some h, by simpa using List.find?_some h⟩

/-- Every row of the opcode map is the row of its own opcode: no opcode has two rows (R80). -/
theorem opcodeRow_of_mem {r : OpcodeRow} (h : r ∈ opcodeMap) : opcodeRow r.opc = some r := by
  unfold opcodeMap at h
  fin_cases h <;> rfl

/-- The word of a format with an opcode and with the fields that the format reads from a word (R90). -/
def Format.reassemble (f : Format) (opc : BitVec 8) (cw : Word) : Word :=
  match f with
  | .n => encodeN opc
  | .a => encodeA opc (lowField cw) (lenField cw)
  | .b => encodeB opc (lowField cw) (nbField cw)
  | .p => encodeP opc (nbField cw)
  | .i => encodeI opc (lowField cw)
  | .x => encodeX opc (idxField cw)

/-- A row's command is encoded in the row's format, with the fields it was read from (R80, R90). -/
theorem encode_command {r : OpcodeRow} (h : r ∈ opcodeMap) (cw : Word) :
    encode (r.command cw) = r.format.reassemble r.opc cw := by
  unfold opcodeMap at h
  fin_cases h <;> rfl

/-- A word whose reserved bits are 0 has no bit outside its fields (R71 to R76). -/
theorem reassemble_eq_self {f : Format} {cw : Word} (h : f.reservedZero cw) : f.reassemble (opcField cw) cw = cw := by
  apply BitVec.eq_of_toNat_eq
  have hcw := cw.isLt
  cases f with
  | n =>
    have hzero : cw.toNat % 2 ^ 56 = 0 := h
    rw [Format.reassemble, encodeN, opcMatch_toNat, opcField_toNat]
    omega
  | a =>
    rw [Format.reassemble, encodeA_toNat, opcField_toNat, lenField_toNat, lowField_toNat]
    omega
  | b =>
    have hzero : cw.toNat / 2 ^ 37 % 2 ^ 19 = 0 := h
    rw [Format.reassemble, encodeB_toNat, opcField_toNat, nbField_toNat, lowField_toNat]
    omega
  | p =>
    obtain ⟨hzero, hlow⟩ : cw.toNat / 2 ^ 37 % 2 ^ 19 = 0 ∧ cw.toNat % 2 ^ 32 = 0 := h
    rw [Format.reassemble, encodeP_toNat, opcField_toNat, nbField_toNat]
    omega
  | i =>
    have hzero : cw.toNat / 2 ^ 32 % 2 ^ 24 = 0 := h
    rw [Format.reassemble, encodeI_toNat, opcField_toNat, lowField_toNat]
    omega
  | x =>
    have hzero : cw.toNat / 2 ^ 8 % 2 ^ 48 = 0 := h
    rw [Format.reassemble, encodeX_toNat, opcField_toNat, idxField_toNat]
    omega

/-- Settles O2: the command of the word's row is encoded with the word's own fields, and they are the whole word. -/
theorem encodeInvertsDecode : Obligations.EncodeInvertsDecode := by
  intro cw i h
  obtain ⟨r, hrow, hzero, rfl⟩ := decode_ok_iff.mp h
  obtain ⟨hr, hopc⟩ := mem_of_opcodeRow hrow
  rw [encode_command hr, hopc, reassemble_eq_self hzero]

/-! #### The printed table (R80, R81) -/

/-- The printed table is the opcode map, each row with its format's mask and its opcode's match value. -/
theorem opcodeRows_eq : Machine.opcodeRows = opcodeMap.map fun r => (r.format.mask, opcMatch r.opc) := by
  decide

/-- Settles O3: a word matches a row exactly when it has the row's opcode and zero reserved bits, which is when it
decodes to the row's command. -/
theorem legalWordsMatchTheTable : Obligations.LegalWordsMatchTheTable := by
  intro cw
  rw [opcodeRows_eq]
  constructor
  · rintro ⟨i, h⟩
    obtain ⟨r, hrow, hzero, -⟩ := decode_ok_iff.mp h
    obtain ⟨hr, hopc⟩ := mem_of_opcodeRow hrow
    exact ⟨_, List.mem_map_of_mem hr, (matches_row_iff _ _ cw).mpr ⟨hopc.symm, hzero⟩⟩
  · rintro ⟨p, hp, hmatch⟩
    obtain ⟨r, hr, rfl⟩ := List.mem_map.mp hp
    obtain ⟨hopc, hzero⟩ := (matches_row_iff _ _ cw).mp hmatch
    exact ⟨_, decode_ok_iff.mpr ⟨r, hopc ▸ opcodeRow_of_mem hr, hzero, rfl⟩⟩

/-- Settles O4: a legal word is the encoding of its command, whose fields stand where its format places them. -/
theorem fieldsAreReadAtTheirBits : Obligations.FieldsAreReadAtTheirBits := by
  intro cw i h
  obtain rfl := encodeInvertsDecode cw i h
  refine ⟨?_, ?_, ?_, ?_, ?_, ?_, ?_⟩
  · rw [← opcField_toNat, opcField_encode]
  · rintro (rfl | rfl | rfl | rfl) <;> exact encodeN_fields _
  · rintro a l (rfl | rfl | rfl) <;> exact encodeA_fields _ a l
  · rintro v n (rfl | rfl) <;> exact encodeB_fields _ v n
  · rintro n (rfl | rfl | rfl) <;> exact encodeP_fields _ n
  · rintro m rfl
    exact encodeI_fields _ m
  · rintro x (rfl | rfl | rfl) <;> exact encodeX_fields _ x

/-! #### Words and lines of the spec (R88 to R90) -/

theorem decode_of_encode {cw : Word} {i : Instr} (h : encode i = cw) : decode cw = .ok i :=
  h ▸ decodeInvertsEncode i

/-- Settles O5: each word is the encoding of its command. -/
theorem specWordsDecode : Obligations.SpecWordsDecode :=
  ⟨decode_of_encode (by decide), decode_of_encode (by decide), decode_of_encode (by decide),
    decode_of_encode (by decide), decode_of_encode (by decide), decode_of_encode (by decide)⟩

end Sys2Proof

namespace Sys2Proof.Machine

/-- A line that holds a command puts its word before those of the lines below it. -/
theorem assembleLines_cons_command {l : List Char} {ls : List (List Char)} {i : Instr} {ws : List Word}
    (hl : assembleLine l = .ok (some i)) (hls : assembleLines ls = .ok ws) :
    assembleLines (l :: ls) = .ok (encode i :: ws) := by
  simp only [assembleLines, hl, hls]

/-- A line that holds no command adds no word. -/
theorem assembleLines_cons_none {l : List Char} {ls : List (List Char)} {ws : List Word}
    (hl : assembleLine l = .ok none) (hls : assembleLines ls = .ok ws) : assembleLines (l :: ls) = .ok ws := by
  simp only [assembleLines, hl, hls]

/-- Settles O6, line by line. -/
theorem specLinesAssemble : Obligations.SpecLinesAssemble := by
  have hinit : assembleLine "we.init 0x1000, 32 ; a buffer".toList = .ok (some (.weInit 0x1000 32)) := by
    decide +kernel
  have hwrite : assembleLine "we.write 12, 4".toList = .ok (some (.weWrite 12 4)) := by decide +kernel
  have hempty : assembleLine "".toList = .ok none := by decide +kernel
  have hstatus : assembleLine "re.status".toList = .ok (some .reStatus) := by decide +kernel
  have hwide : assembleLine "we.write 1, 32".toList = .error .doesNotFit := by decide +kernel
  exact ⟨assembleLines_cons_command hinit <| assembleLines_cons_command hwrite <|
    assembleLines_cons_none hempty <| assembleLines_cons_command hstatus rfl, hwide⟩

end Sys2Proof.Machine

namespace Sys2Proof.Machine

/-! ### Every command completes with one response (R82, R180, R200)

The model stops only at an access outside MEM. No execution from a state of the invariant makes one, so every command
reaches a next state, and what `exec_eq_next` says of that state gives its one response. -/

section Completion

variable {s t : State} {i : Instr}

/-! #### The model does not stop -/

/-- An outcome that is a next state. -/
def Completes (o : StepOutcome) : Prop := ∃ t, o = .next t

/-- An execution that stays inside MEM: it ends in an answer or in a block fault. -/
def Execution.InMem (e : Execution) : Prop := ∀ f, e ≠ .error (.outside f)

theorem inMem_ok {u : State} {rc : RCode} {d : Word} : Execution.InMem (.ok (u, rc, d)) := nofun

theorem inMem_raise {c : FaultCode} : Execution.InMem (.error (.raise c)) := nofun

theorem completes_unlessHalted {k : StepOutcome} (hk : Completes k) : Completes (unlessHalted s k) := by
  cases hb : s.blk.halted with
  | true => exact ⟨_, unlessHalted_of_halted hb⟩
  | false => rwa [unlessHalted_of_running hb]

/-- Past a check the condition checked may be assumed. -/
theorem completes_require {c : FaultCode} {b : Bool} {k : StepOutcome} (hk : b = true → Completes k) :
    Completes (require s c b k) := by
  cases b with
  | true => exact hk rfl
  | false => exact ⟨_, require_false⟩

theorem completes_commit {e : Execution} (he : e.InMem) : Completes (commit s e) := by
  match e with
  | .ok (u, rc, d) => exact ⟨_, commit_ok⟩
  | .error (.raise c) => exact ⟨_, commit_raise⟩
  | .error (.outside f) => exact absurd rfl (he f)

/-- The commands that name a region (R205, R209). -/
theorem completes_region {a : Addr} {l : BitVec 24} {e : Execution}
    (he : baseOf a + lengthOf l ≤ memSize → e.InMem) :
    Completes (unlessHalted s (requireRegion s a l (commit s e))) :=
  completes_unlessHalted (completes_require fun hb => completes_commit (he (of_decide_eq_true hb)))

/-- The engine commands without a bit count (R205, R206). -/
theorem completes_engine {v : Bool} {e : Execution} (he : v = true → e.InMem) :
    Completes (unlessHalted s (requireInit s v (commit s e))) :=
  completes_unlessHalted (completes_require fun hv => completes_commit (he hv))

/-- The engine commands with a bit count (R205, R206, R208). -/
theorem completes_engineBits {nb : BitVec 5} {v : Bool} {e : Execution} (he : v = true → e.InMem) :
    Completes (unlessHalted s (requireBits s nb (requireInit s v (commit s e)))) :=
  completes_unlessHalted (completes_require fun _ => completes_require fun hv => completes_commit (he hv))

/-! #### The executions stay inside MEM (R57, R59) -/

/-- A Put ends in a state or in SPACE: its flush, if any, is inside the buffer (R102, R210). -/
theorem put_ok_or_space {v n : Nat} (hI : s.Inv) (hv : s.we.valid = true) :
    (∃ t, put s v n = .ok t) ∨ put s v n = .error (.raise .space) := by
  by_cases hn : s.we.bitoff.toNat < n
  · have hput := put_of_flush (v := v) hn (flush_of_inv hI hv)
    split at hput
    · exact .inr hput
    · exact .inl ⟨_, hput⟩
  · exact .inl ⟨_, put_of_room (Nat.le_of_not_lt hn)⟩

theorem runWeInit_inMem {base cap : Nat} : (runWeInit s base cap).InMem := by
  obtain ⟨u, rc, d, hu, -⟩ := runWeInit_spec (s := s) (base := base) (cap := cap)
  rw [hu]
  exact inMem_ok

theorem runWeWrite_inMem {v n : Nat} (hI : s.Inv) (hv : s.we.valid = true) : (runWeWrite s v n).InMem := by
  rcases put_ok_or_space hI hv (v := v) (n := n) with ⟨t, ht⟩ | ht
  · rw [runWeWrite_eq_ok.mpr ⟨ht, rfl, rfl⟩]
    exact inMem_ok
  · rw [runWeWrite, ht]
    exact inMem_raise

theorem runWeFlush_inMem (hI : s.Inv) (hv : s.we.valid = true) : (runWeFlush s).InMem := by
  rw [runWeFlush_eq_ok.mpr ⟨flush_of_inv hI hv, rfl, rfl⟩]
  exact inMem_ok

/-- The state a close's Put leaves is one of the invariant too, so its final flush is inside the buffer (R104). -/
theorem runWeClose_inMem {v n : Nat} (hI : s.Inv) (hv : s.we.valid = true) : (runWeClose s v n).InMem := by
  rcases put_ok_or_space hI hv (v := v) (n := n) with ⟨t, ht⟩ | ht
  · obtain ⟨-, -, -, hvt, -⟩ := put_effect hI.we hI.mem hv ht
    rw [runWeClose_eq_ok.mpr ⟨t, ht, flush_of_inv (put_inv hI ht) hvt, rfl⟩]
    exact inMem_ok
  · rw [runWeClose, ht]
    exact inMem_raise

/-- RE_INIT reads its first word only when the region is larger than a word (R120). -/
theorem runReInit_inMem {base cap : Nat} (hfit : base + cap ≤ memSize) : (runReInit s base cap).InMem := by
  unfold runReInit
  split
  · exact inMem_ok
  · rw [boundedRead_of_fits (by omega)]
    exact inMem_ok

theorem runRePeek_inMem {n : Nat} : (runRePeek s n).InMem := by
  unfold runRePeek
  split
  · exact inMem_raise
  · exact inMem_ok

theorem runReConsume_inMem {n : Nat} : (runReConsume s n).InMem := by
  unfold runReConsume
  split
  · exact inMem_raise
  · exact inMem_ok

theorem runReRead_inMem {n : Nat} (hI : s.Inv) (hv : s.re.valid = true) : (runReRead s n).InMem := by
  obtain ⟨t, ht⟩ := exists_refill n hI.re hv
  rw [runReRead, ht]
  dsimp only
  split
  · exact inMem_raise
  · exact inMem_ok

theorem runReReload_inMem (hI : s.Inv) (hv : s.re.valid = true) : (runReReload s).InMem := by
  obtain ⟨t, st, ht⟩ := exists_reload hI.re hv
  rw [runReReload_eq_ok.mpr ⟨st, reloadRecorded_eq_ok.mpr ⟨t, ht, rfl⟩, rfl, rfl⟩]
  exact inMem_ok

/-- Every command from a state of the invariant completes (R180, R250). -/
theorem exec_completes (i : Instr) (hI : s.Inv) : Completes (exec i s) := by
  cases i with
  | nop | fnRdRaw | fnRdNorm => exact completes_commit (s := s) inMem_ok
  | rdState idx =>
    cases hr : stateRegister s idx with
    | some v => exact ⟨_, exec_rdState_of_some hr⟩
    | none => exact ⟨_, exec_rdState_of_none hr⟩
  | weInit => exact completes_region fun _ => runWeInit_inMem
  | weWrite => exact completes_engineBits (runWeWrite_inMem hI)
  | weFlush => exact completes_engine (runWeFlush_inMem hI)
  | weClose => exact completes_engineBits (runWeClose_inMem hI)
  | reInit => exact completes_region runReInit_inMem
  | rePeek => exact completes_engineBits fun _ => runRePeek_inMem
  | reConsume => exact completes_engineBits fun _ => runReConsume_inMem
  | reRead => exact completes_engineBits (runReRead_inMem hI)
  | reReload => exact completes_engine (runReReload_inMem hI)
  | reClose => exact completes_engine fun _ => inMem_ok
  | fnCount => exact completes_region fun _ => inMem_ok
  | fnNorm => exact completes_unlessHalted (completes_require fun _ => completes_commit inMem_ok)

theorem runWord_completes (cw : Word) (hI : s.Inv) : Completes (runWord cw s) := by
  cases hd : decode cw with
  | ok i =>
    rw [runWord_of_ok hd]
    exact exec_completes i hI
  | error r => exact ⟨_, runWord_of_error hd⟩

/-! #### The response of a command -/

/-- The rcodes of R200. -/
abbrev listedCodes : List (BitVec 8) := [0x00, 0x01, 0x02, 0x03, 0x10, 0x11, 0x12, 0x13, 0x14, 0x15, 0x1F]

/-- `t` has one response more than `s`, `r`: it has a listed rcode, and data only with OK or REPAIR_FAIL (R82, R200).
The host's moves are as they were. -/
structure AddsResponse (s t : State) (r : Response) : Prop where
  responses : t.responses = r :: s.responses
  moves : t.moves = s.moves
  listed : r.rcode ∈ listedCodes
  data : r.rcode ≠ 0x00 → r.rcode ≠ 0x03 → r.rdata = 0

theorem RCode.code_mem (rc : RCode) : rc.code ∈ listedCodes := by cases rc <;> decide

theorem FaultCode.code_mem_listedCodes (c : FaultCode) : c.code ∈ listedCodes := by cases c <;> decide

theorem addsResponse_refuseHalted (s : State) : AddsResponse s s.refuseHalted ⟨0x1F, 0⟩ :=
  ⟨rfl, rfl, RCode.halted.code_mem, fun _ _ => rfl⟩

theorem addsResponse_takeFault (s : State) (c : FaultCode) : AddsResponse s (s.takeFault c) ⟨c.code, 0⟩ :=
  ⟨rfl, rfl, c.code_mem_listedCodes, fun _ _ => rfl⟩

theorem addsResponse_rejectWord (s : State) : ∃ r, AddsResponse s s.rejectWord r := by
  unfold State.rejectWord
  split
  · exact ⟨_, addsResponse_refuseHalted s⟩
  · exact ⟨_, addsResponse_takeFault s _⟩

theorem addsResponse_respond {u : State} {rc : RCode} {d : Word} (hframe : CommandFrame i s u) (ha : Answers rc d) :
    AddsResponse s (u.respond rc d) ⟨rc.code, d⟩ := by
  refine ⟨?_, hframe.moves, rc.code_mem, fun hok hfail => ha.data ?_ ?_⟩
  · rw [State.respond_responses, hframe.responses]
  · rintro rfl
    exact hok rfl
  · rintro rfl
    exact hfail rfl

/-- Whatever a command word does, it adds one response (R82, R180). -/
theorem runWord_addsResponse {cw : Word} (h : runWord cw s = .next t) : ∃ r, AddsResponse s t r := by
  cases hd : decode cw with
  | ok i =>
    rw [runWord_of_ok hd] at h
    rcases exec_eq_next h with ⟨-, rfl⟩ | ⟨-, c, rfl⟩ | ⟨u, rc, d, rfl, hframe, ha, -⟩
    · exact ⟨_, addsResponse_refuseHalted s⟩
    · exact ⟨_, addsResponse_takeFault s c⟩
    · exact ⟨_, addsResponse_respond hframe ha⟩
  | error r =>
    rw [runWord_of_error hd] at h
    cases h
    exact addsResponse_rejectWord s

end Completion

/-- Settles O9: the word completes, from a state of the invariant, and its response is one of R200's. -/
theorem everyCommandGetsOneResponse : Obligations.EveryCommandGetsOneResponse := by
  intro s cw rest hI hmoves
  obtain ⟨t, ht⟩ := runWord_completes cw (hI.withMoves rest)
  obtain ⟨r, hr⟩ := runWord_addsResponse ht
  exact ⟨t, r, (step_of_command hmoves).trans ht, hr.responses, hr.moves, hr.listed⟩

/-- Settles O10: the response that the step adds is the word's one response. -/
theorem onlyOkAndRepairFailCarryData : Obligations.OnlyOkAndRepairFailCarryData := by
  intro s t cw rest r hmoves h hresp
  rw [step_of_command hmoves] at h
  obtain ⟨r', hr'⟩ := runWord_addsResponse h
  obtain ⟨rfl, -⟩ := List.cons.inj (hresp.symm.trans hr'.responses)
  exact hr'.data

/-! ### WE_WRITE (R101, R102) -/

/-- Put after its flush, when the flush makes room (R102). -/
theorem put_of_flush_room {s t : State} {v n : Nat} (hshort : s.we.bitoff.toNat < n) (hflush : flush s = .ok t)
    (hroom : n ≤ t.we.bitoff.toNat) : put s v n = .ok (appendBits t v n) :=
  put_eq_ok.mpr (.inr ⟨hshort, t, hflush, hroom, rfl⟩)

/-- Settles O28: a Put of bits that fit is the append alone. -/
theorem writeIntoRoom : Obligations.WriteIntoRoom := by
  intro s v nb hok hrun hv hnb hroom
  exact ⟨(appendBits s v.toNat nb.toNat).we, exec_weWrite_of_put hrun hv hnb (put_of_room hroom), rfl,
    appendBits_word hok hroom, appendBits_bitoff _ _⟩

/-- Settles O29: the flush stores the register and keeps the partial byte, and the append goes below it. -/
theorem writeAfterFlush : Obligations.WriteAfterFlush := by
  intro s v nb hI hrun hv hnb hshort hfit
  obtain ⟨-, hbits, -⟩ := hI.we
  have hflush := flush_of_inv hI hv
  obtain ⟨hmem, -⟩ := flush_eq_ok.mp hflush
  have hoff := flushedEngine_bitoff hbits
  have hroom : nb.toNat ≤ (flushedEngine s).bitoff.toNat := by omega
  have hput := put_of_flush_room (v := v.toNat) hshort hflush hroom
  have hbitoff := appendBits_bitoff (s := { s with we := flushedEngine s }) v.toNat nb.toNat
  have hword := appendBits_word (s := { s with we := flushedEngine s }) (v := v.toNat) (flushedEngine_ok hI.we) hroom
  refine ⟨(appendBits { s with we := flushedEngine s } v.toNat nb.toNat).we, _, exec_weWrite_of_put hrun hv hnb hput,
    rfl, flushedEngine_cursor, ?_, ?_, readByte_memWrite hI.mem hmem _⟩
  · rw [hbitoff, hoff]
  · rw [hbitoff, hword, flushedEngine_word]

end Sys2Proof.Machine

namespace Sys2Proof.Machine

/-! ### WE_INIT, WE_FLUSH and WE_CLOSE (R100 to R105) -/

section WriteEngineCommands

variable {s p u : State} {v n : Nat}

/-! #### A flush, as a state (R101) -/

/-- The state that a flush inside MEM answers; `flush_eq_ok_flushed` ties it to `flush`. -/
def State.flushed (s : State) : State :=
  { s with mem := memWrite s.mem s.we.cursor.toNat s.width.bytes s.we.word.toNat, we := flushedEngine s }

@[simp] theorem State.flushed_we : s.flushed.we = flushedEngine s := rfl

@[simp] theorem State.flushed_width : s.flushed.width = s.width := rfl

theorem flush_eq_ok_flushed : flush s = .ok u ↔ s.we.cursor.toNat + s.width.bytes ≤ memSize ∧ u = s.flushed :=
  flush_eq_ok

theorem flush_eq_flushed (hI : s.Inv) (hv : s.we.valid = true) : flush s = .ok s.flushed := flush_of_inv hI hv

/-- A flush stores the register big-endian at the cursor (R101). -/
theorem readByte_flushed (hI : s.Inv) (hv : s.we.valid = true) (x : Nat) :
    readByte s.flushed.mem x =
      if s.we.cursor.toNat ≤ x ∧ x < s.we.cursor.toNat + s.width.bytes then
        BitVec.ofNat 8 (s.we.word.toNat / 2 ^ (8 * (s.we.cursor.toNat + s.width.bytes - 1 - x)))
      else readByte s.mem x :=
  readByte_memWrite hI.mem (flush_eq_ok.mp (flush_eq_flushed hI hv)).1 _ x

/-- A register without a whole byte: a flush leaves the engine as it is (R101, R103). -/
theorem flushedEngine_of_partialByte (hok : s.we.ok s.width) (hv : s.we.valid = true)
    (hpart : s.width.bits - s.we.bitoff.toNat < 8) : flushedEngine s = s.we := by
  obtain ⟨hword, hbits, -, hbuf⟩ := hok
  obtain ⟨-, hcursor, -⟩ := hbuf hv
  have hnone : (s.width.bits - s.we.bitoff.toNat) / 8 = 0 := Nat.div_eq_of_lt hpart
  have hc : (flushedEngine s).cursor = s.we.cursor := BitVec.eq_of_toNat_eq (by
    rw [flushedEngine_cursor, hnone, Nat.add_zero, Nat.min_eq_left hcursor])
  have hw : (flushedEngine s).word = s.we.word := BitVec.eq_of_toNat_eq (by
    rw [flushedEngine_word, hnone, Nat.mul_zero, Nat.pow_zero, Nat.mul_one, Nat.mod_eq_of_lt hword])
  have hb : (flushedEngine s).bitoff = s.we.bitoff := BitVec.eq_of_toNat_eq (by
    rw [flushedEngine_bitoff hbits]
    omega)
  calc flushedEngine s
      = { s.we with
          cursor := (flushedEngine s).cursor
          word := (flushedEngine s).word
          bitoff := (flushedEngine s).bitoff } := rfl
    _ = s.we := by rw [hc, hw, hb]

/-! #### SPACE (R102, R210) -/

/-- A Put raises SPACE when neither the free bits nor those its flush makes hold its n bits (R102). -/
theorem put_eq_space_iff_room (hI : s.Inv) (hv : s.we.valid = true) :
    put s v n = .error (.raise .space) ↔
      s.we.bitoff.toNat < n ∧ s.width.bits - (s.width.bits - s.we.bitoff.toNat) % 8 < n := by
  obtain ⟨-, hbits, -⟩ := hI.we
  simp [put_eq_raise, flush_eq_flushed hI hv, flushedEngine_bitoff hbits]

/-- For n up to 26 that takes W = 32, n = 26 and 7 bits pending in the partial byte (R210). -/
theorem put_eq_space (hI : s.Inv) (hv : s.we.valid = true) (hn : n ≤ 26) :
    put s v n = .error (.raise .space) ↔
      s.width = .w32 ∧ n = 26 ∧ (s.width.bits - s.we.bitoff.toNat) % 8 = 7 := by
  obtain ⟨-, hbits, -⟩ := hI.we
  rw [put_eq_space_iff_room hI hv]
  cases hw : s.width with
  | w32 =>
    simp only [hw, WordWidth.bits, true_and] at hbits ⊢
    omega
  | w64 =>
    simp only [WordWidth.bits, reduceCtorEq, false_and, iff_false]
    omega

theorem runWeWrite_eq_raise {c : FaultCode} :
    runWeWrite s v n = .error (.raise c) ↔ put s v n = .error (.raise c) := by
  unfold runWeWrite
  rcases put s v n with e | t <;> simp

/-- The final flush of a close raises nothing, so its one fault is its Put's (R104). -/
theorem runWeClose_eq_raise {c : FaultCode} :
    runWeClose s v n = .error (.raise c) ↔ put s v n = .error (.raise c) := by
  unfold runWeClose
  rcases put s v n with e | t
  · simp
  · have hne := flush_ne_raise (s := t) (c := c)
    cases hflush : flush t with
    | error e => simpa [hflush] using hne
    | ok u => simp [hflush]

theorem FaultCode.code_injective : Function.Injective FaultCode.code := by
  intro c c'
  cases c <;> cases c' <;> decide

/-- A command whose answers leave the block running ends in a fault exactly when its execution raises it (R16). -/
theorem commit_eq_takeFault {e : Execution} {c : FaultCode}
    (hrun : ∀ u rc d, e = .ok (u, rc, d) → u.blk.halted = false) :
    commit s e = .next (s.takeFault c) ↔ e = .error (.raise c) := by
  refine ⟨fun h => ?_, fun h => by rw [h, commit_raise]⟩
  rcases commit_eq_next.mp h with ⟨u, rc, d, he, hu⟩ | ⟨c', he, hc⟩
  · have hhalted : (s.takeFault c).blk.halted = u.blk.halted := by rw [hu, State.respond_blk]
    rw [hrun u rc d he] at hhalted
    cases hhalted
  · have hcode : c.code = c'.code := congrArg (·.blk.fcode) hc
    rw [he, FaultCode.code_injective hcode]

/-! #### A Put and the flush after it (R102, R104) -/

/-- The two ways a Put succeeds (R102): the bits fit, or they fit beside the partial byte that its flush leaves. -/
theorem put_eq_appendBits (hput : put s v n = .ok p) :
    (n ≤ s.we.bitoff.toNat ∧ p = appendBits s v n) ∨
      (s.we.bitoff.toNat < n ∧ n ≤ (flushedEngine s).bitoff.toNat ∧ p = appendBits s.flushed v n) := by
  rcases put_eq_ok.mp hput with hroom | ⟨hshort, t, hflush, hfit, rfl⟩
  · exact .inl hroom
  · obtain ⟨-, rfl⟩ := flush_eq_ok_flushed.mp hflush
    exact .inr ⟨hshort, hfit, rfl⟩

/-- A Put and the flush after it change MEM and the write engine only (R101, R102). -/
theorem put_flushed_frame (hput : put s v n = .ok p) :
    p.flushed = { s with mem := p.flushed.mem, we := flushedEngine p } := by
  rcases put_eq_appendBits hput with ⟨-, rfl⟩ | ⟨-, -, rfl⟩ <;> rfl

/-- Of the write engine they change CURSOR, WORD and BITOFF only (R101, R102). -/
theorem put_flushedEngine_frame (hput : put s v n = .ok p) :
    flushedEngine p = { s.we with
      cursor := (flushedEngine p).cursor, word := (flushedEngine p).word, bitoff := (flushedEngine p).bitoff } := by
  rcases put_eq_appendBits hput with ⟨-, rfl⟩ | ⟨-, -, rfl⟩ <;> rfl

/-- The cursor and the register after a Put of bits that fit (R102). -/
theorem put_registers_of_room (hok : s.we.ok s.width) (hput : put s v n = .ok p) (hroom : n ≤ s.we.bitoff.toNat) :
    p.we.cursor = s.we.cursor ∧ p.we.word.toNat = s.we.word.toNat + v % 2 ^ n * 2 ^ (s.we.bitoff.toNat - n) := by
  rw [put_of_room hroom] at hput
  cases hput
  exact ⟨rfl, appendBits_word hok hroom⟩

/-- The cursor and the register after a Put that flushes first (R101, R102). -/
theorem put_registers_of_short (hok : s.we.ok s.width) (hput : put s v n = .ok p) (hshort : s.we.bitoff.toNat < n) :
    p.we.cursor = (flushedEngine s).cursor ∧
      p.we.word.toNat =
        (flushedEngine s).word.toNat + v % 2 ^ n * 2 ^ ((flushedEngine s).bitoff.toNat - n) := by
  rcases put_eq_appendBits hput with ⟨hroom, -⟩ | ⟨-, hroom, rfl⟩
  · omega
  · exact ⟨rfl, appendBits_word (s := s.flushed) (flushedEngine_ok hok) hroom⟩

/-- A Put stores the old register at the old cursor when it flushes, and nothing otherwise (R101, R102). -/
theorem put_readByte (hI : s.Inv) (hv : s.we.valid = true) (hput : put s v n = .ok p) (x : Nat) :
    readByte p.mem x =
      if s.we.bitoff.toNat < n ∧ s.we.cursor.toNat ≤ x ∧ x < s.we.cursor.toNat + s.width.bytes then
        BitVec.ofNat 8 (s.we.word.toNat / 2 ^ (8 * (s.we.cursor.toNat + s.width.bytes - 1 - x)))
      else readByte s.mem x := by
  rcases put_eq_appendBits hput with ⟨hroom, rfl⟩ | ⟨hshort, -, rfl⟩
  · rw [if_neg (by omega), appendBits_mem]
  · simp only [hshort, true_and]
    exact readByte_flushed hI hv x

/-- The bits pending after a Put (R102): the ones pending before, or their partial byte, and n more. -/
theorem put_pendingBits (hok : s.we.ok s.width) (hput : put s v n = .ok p) :
    p.width.bits - p.we.bitoff.toNat =
      (if n ≤ s.we.bitoff.toNat then s.width.bits - s.we.bitoff.toNat
        else (s.width.bits - s.we.bitoff.toNat) % 8) + n := by
  obtain ⟨-, hbits, -⟩ := hok
  rcases put_eq_appendBits hput with ⟨hroom, rfl⟩ | ⟨hshort, hroom, rfl⟩
  · rw [if_pos hroom, appendBits_bitoff, appendBits_width]
    omega
  · have hoff := flushedEngine_bitoff hbits
    rw [if_neg (by omega), appendBits_bitoff, appendBits_width, State.flushed_we, State.flushed_width]
    omega

/-- The flush after a Put ends in the partial byte of all the bits written: the Put's own flush takes whole bytes
only (R101, R102). -/
theorem put_flushed_bitoff (hI : s.Inv) (hput : put s v n = .ok p) :
    (flushedEngine p).bitoff.toNat = s.width.bits - (s.writtenBits + n) % 8 := by
  obtain ⟨-, hbits, -⟩ := (put_inv hI hput).we
  have hwidth : p.width = s.width := by rw [put_frame hput]
  rw [flushedEngine_bitoff hbits, put_pendingBits hI.we hput, hwidth, State.writtenBits]
  split <;> omega

/-- The flush after a Put leaves the cursor past the whole bytes of all the bits written, or at END: a clamp of the
Put's own flush is a clamp of this one too (R101, R102). -/
theorem put_flushed_cursor (hI : s.Inv) (hv : s.we.valid = true) (hput : put s v n = .ok p) :
    (flushedEngine p).cursor.toNat =
      min (s.we.start.toNat + (s.writtenBits + n) / 8) s.we.bufEnd.toNat := by
  obtain ⟨-, hbits, -, hbuf⟩ := hI.we
  obtain ⟨hstart, -⟩ := hbuf hv
  rw [flushedEngine_cursor, put_pendingBits hI.we hput, State.writtenBits]
  rcases put_eq_appendBits hput with ⟨hroom, rfl⟩ | ⟨hshort, -, rfl⟩
  · rw [if_pos hroom, appendBits_we_cursor, appendBits_we_bufEnd]
    omega
  · rw [if_neg (by omega), appendBits_we_cursor, appendBits_we_bufEnd, State.flushed_we, flushedEngine_cursor,
      flushedEngine_bufEnd]
    omega

/-- The bits held after a Put, down to the partial byte of all the bits written: the bits held before, then the n
bits (R102). -/
theorem put_held_mod (hok : s.we.ok s.width) (hput : put s v n = .ok p) :
    p.we.word.toNat / 2 ^ p.we.bitoff.toNat % 2 ^ ((s.writtenBits + n) % 8) =
      (s.we.word.toNat / 2 ^ s.we.bitoff.toNat * 2 ^ n + v % 2 ^ n) % 2 ^ ((s.writtenBits + n) % 8) := by
  have ⟨_, hbits, _⟩ := hok
  rcases put_eq_appendBits hput with ⟨hroom, rfl⟩ | ⟨-, hroom, rfl⟩
  · rw [appendBits_held hok hroom]
  · have hpart : (s.writtenBits + n) % 8 = (s.width.bits - s.we.bitoff.toNat + n) % 8 := by
      rw [State.writtenBits]
      omega
    have hfree : 0 < 2 ^ (s.width.bits - (s.width.bits - s.we.bitoff.toNat) % 8) := Nat.two_pow_pos _
    rw [appendBits_held (s := s.flushed) (flushedEngine_ok hok) hroom, State.flushed_we, flushedEngine_word_div hok,
      flushedEngine_bitoff hbits, Nat.mul_div_cancel _ hfree, hpart, pending_mod (Nat.mod_lt _ (Nat.two_pow_pos n))]

/-- The register after a Put and a flush: the partial byte of all the bits written, at its top (R101, R102). -/
theorem put_flushed_word (hI : s.Inv) (hput : put s v n = .ok p) :
    (flushedEngine p).word.toNat =
      (s.we.word.toNat / 2 ^ s.we.bitoff.toNat * 2 ^ n + v % 2 ^ n) % 2 ^ ((s.writtenBits + n) % 8) *
        2 ^ (s.width.bits - (s.writtenBits + n) % 8) := by
  have hpart : (p.width.bits - p.we.bitoff.toNat) % 8 = (s.writtenBits + n) % 8 := by
    rw [put_pendingBits hI.we hput, State.writtenBits]
    split <;> omega
  have hwidth : p.width = s.width := by rw [put_frame hput]
  rw [flushedEngine_word_div (put_inv hI hput).we, hpart, put_held_mod hI.we hput, hwidth]

/-! #### WE_CLOSE (R104) -/

theorem exec_weClose_of_put {v : BitVec 32} {nb : BitVec 5} (hrun : s.blk.halted = false) (hv : s.we.valid = true)
    (hnb : nb.toNat ≤ 26) (hput : put s v.toNat nb.toNat = .ok p) (hflush : flush p = .ok u) :
    exec (.weClose v nb) s = .next (u.respond (closeOutcome u).1 (closeOutcome u).2) := by
  have hclose : runWeClose s v.toNat nb.toNat = .ok (u, (closeOutcome u).1, (closeOutcome u).2) :=
    runWeClose_eq_ok.mpr ⟨p, hput, hflush, rfl⟩
  rw [exec, execWeClose, engineBits_of_ready hrun hnb hv, hclose, commit_ok]

theorem closeOutcome_at_end (h : s.we.bufEnd.toNat ≤ s.we.cursor.toNat) : closeOutcome s = (.overflow, 0) := if_pos h

theorem closeOutcome_below_end (h : s.we.cursor.toNat < s.we.bufEnd.toNat) :
    closeOutcome s = (.ok, BitVec.ofNat 64 (streamLength s)) := if_neg (Nat.not_le_of_lt h)

/-- The stream length after a close's Put and flush, below END: the bits written, rounded up to bytes (R104). -/
theorem put_flushed_streamLength (hI : s.Inv) (hv : s.we.valid = true) (hput : put s v n = .ok p)
    (hbelow : s.we.start.toNat + (s.writtenBits + n) / 8 < s.we.bufEnd.toNat) :
    streamLength p.flushed = (s.writtenBits + n + 7) / 8 := by
  have hcursor := put_flushed_cursor hI hv hput
  have hbitoff := put_flushed_bitoff hI hput
  have hwide := wordBits_range s.width
  have hstart : (flushedEngine p).start = s.we.start := congrArg (·.start) (put_flushedEngine_frame hput)
  have hwidth : p.width = s.width := by rw [put_frame hput]
  rw [streamLength, State.flushed_we, State.flushed_width, hstart, hcursor, hbitoff, hwidth]
  split <;> omega

end WriteEngineCommands

/-- Settles O32: the Put and the flush after it end in the partial byte of all the bits written, clamped or not, and
MEM takes the Put's store and then the final one. -/
theorem closeReportsTheStreamLength : Obligations.CloseReportsTheStreamLength := by
  intro s v nb hI hrun hv hnb hfit
  obtain ⟨p, hput⟩ := exists_put (v := v.toNat) hI hv hfit
  obtain ⟨-, -, hwidth, hvp, -⟩ := put_effect hI.we hI.mem hv hput
  obtain ⟨-, hbits, -⟩ := hI.we
  have hIp := put_inv hI hput
  have hexec := exec_weClose_of_put hrun hv hnb hput (flush_eq_flushed hIp hvp)
  have hframe := put_flushed_frame hput
  have hcursor := put_flushed_cursor hI hv hput
  have hengine := put_flushedEngine_frame hput
  have hend : p.flushed.we.bufEnd = s.we.bufEnd := congrArg (·.bufEnd) hengine
  refine ⟨flushedEngine p, p.flushed.mem, ⟨(closeOutcome p.flushed).1.code, (closeOutcome p.flushed).2⟩,
    p.we.cursor.toNat, p.we.word.toNat, ?_, hengine, hcursor, put_flushed_bitoff hI hput,
    put_flushed_word hI hput, fun hover => ?_, fun hbelow => ?_, fun hroom => ?_, fun hshort => ?_, fun x => ?_⟩
  · exact hexec.trans
      (congrArg (Host.Outcome.next <| State.respond · (closeOutcome p.flushed).1 (closeOutcome p.flushed).2) hframe)
  · rw [closeOutcome_at_end]
    · rfl
    · rw [hend, State.flushed_we, hcursor]
      omega
  · have hlen := put_flushed_streamLength hI hv hput (by omega)
    rw [closeOutcome_below_end, toNat_streamLength, hlen]
    · exact ⟨rfl, rfl⟩
    · rw [hend, State.flushed_we, hcursor]
      omega
  · obtain ⟨hc, hw⟩ := put_registers_of_room hI.we hput hroom
    exact ⟨congrArg _ hc, hw⟩
  · obtain ⟨hc, hw⟩ := put_registers_of_short hI.we hput hshort
    rw [hc, hw, flushedEngine_cursor, flushedEngine_word, flushedEngine_bitoff hbits]
    exact ⟨rfl, rfl⟩
  · rw [readByte_flushed hIp hvp, put_readByte hI hv hput, hwidth]

/-- Settles O22: the fault comes from the Put alone, which lacks room exactly then. -/
theorem spaceFaultsExactlyWhenSevenBitsPend : Obligations.SpaceFaultsExactlyWhenSevenBitsPend := by
  intro s v nb hI hrun hv hnb i hi
  rw [← put_eq_space (v := v.toNat) hI hv hnb]
  simp only [List.mem_cons, List.not_mem_nil, or_false] at hi
  rcases hi with rfl | rfl
  · rw [exec, execWeWrite, engineBits_of_ready hrun hnb hv, ← runWeWrite_eq_raise]
    refine commit_eq_takeFault (c := .space) fun u rc d hu => ?_
    obtain ⟨hput, -⟩ := runWeWrite_eq_ok.mp hu
    rwa [put_frame hput]
  · rw [exec, execWeClose, engineBits_of_ready hrun hnb hv, ← runWeClose_eq_raise]
    refine commit_eq_takeFault (c := .space) fun u rc d hu => ?_
    obtain ⟨p, hput, hflush, -⟩ := runWeClose_eq_ok.mp hu
    rwa [flush_frame hflush, put_frame hput]

/-- Settles O27, by R100's three outcomes. -/
theorem writeInitSetsUpTheBuffer : Obligations.WriteInitSetsUpTheBuffer := by
  intro s a l hrun
  refine ⟨fun hpast => ?_, fun hfit hsmall => ?_, fun hfit hcap => ?_⟩
  · rw [exec, execWeInit, unlessHalted_of_running hrun, requireRegion_of_passes hpast]
    rfl
  · rw [exec, execWeInit, unlessHalted_of_running hrun, requireRegion_of_fits hfit, runWeInit, if_pos hsmall]
    rfl
  · refine ⟨initializedWriter s.width a.toNat l.toNat, ?_, rfl, rfl, toNat_narrowBitoff_bits _, narrowAddr_toNat a,
      narrowAddr_toNat a, toNat_narrowAddr ?_⟩
    · rw [exec, execWeInit, unlessHalted_of_running hrun, requireRegion_of_fits hfit, runWeInit,
        if_neg (Nat.not_le_of_lt hcap)]
      rfl
    · have hbytes := wordBytes_range s.width
      omega

/-- Settles O30: the registers and the bytes of the one state a flush answers. -/
theorem flushStoresTheRegister : Obligations.FlushStoresTheRegister := by
  intro s hI hrun hv
  obtain ⟨-, hbits, -⟩ := hI.we
  exact ⟨flushedEngine s, s.flushed.mem, exec_weFlush_of_flush hrun hv (flush_eq_flushed hI hv), rfl,
    flushedEngine_cursor, flushedEngine_bitoff hbits, flushedEngine_word, readByte_flushed hI hv⟩

/-- Settles O31: the first flush leaves no whole byte, so the second has nothing to move. -/
theorem secondFlushChangesNoRegister : Obligations.SecondFlushChangesNoRegister := by
  intro s t hI hrun hv h
  have hflush := flush_eq_flushed hI hv
  rw [exec_weFlush_of_flush hrun hv hflush] at h
  cases h
  obtain ⟨-, hbits, -⟩ := hI.we
  have hIt := (flush_inv hI hflush).respond .ok 0
  have hpart : s.width.bits - (flushedEngine s).bitoff.toNat < 8 := by
    rw [flushedEngine_bitoff hbits]
    omega
  exact ⟨_, exec_weFlush_of_flush hrun hv (flush_eq_flushed hIt hv), flushedEngine_of_partialByte hIt.we hv hpart⟩

end Sys2Proof.Machine

namespace Sys2Proof.Machine

/-! ### The read engine's commands (R120 to R129) -/

section ReadEngineCommands

variable {s t : State} {n : Nat}

/-! #### RE_PEEK and RE_CONSUME (R123, R124) -/

theorem runRePeek_of_enough (h : n ≤ s.re.bitoff.toNat) :
    runRePeek s n = .ok (s, .ok, BitVec.ofNat 64 (peekBits s n)) := if_neg (Nat.not_lt_of_le h)

theorem runReConsume_of_enough (h : n ≤ s.re.bitoff.toNat) :
    runReConsume s n = .ok (consumeBits s n, .ok, 0) := if_neg (Nat.not_lt_of_le h)

theorem runRePeek_eq_exhaust : runRePeek s n = .error (.raise .exhaust) ↔ s.re.bitoff.toNat < n := by
  unfold runRePeek
  split <;> simp [*]

theorem runReConsume_eq_exhaust : runReConsume s n = .error (.raise .exhaust) ↔ s.re.bitoff.toNat < n := by
  unfold runReConsume
  split <;> simp [*]

/-- The response carries a peek of up to 26 bits whole (R82, R122). -/
theorem toNat_peekBits (hn : n ≤ 26) :
    (BitVec.ofNat 64 (peekBits s n)).toNat = s.re.word.toNat / 2 ^ (s.re.bitoff.toNat - n) % 2 ^ n := by
  rw [BitVec.toNat_ofNat, Nat.mod_eq_of_lt (peekBits_lt hn), peekBits_eq]

/-! #### RE_READ (R125) -/

/-- A read raises EXHAUST when its refill leaves too few bits (R125, R211). -/
theorem runReRead_eq_exhaust (h : refill s n = .ok t) :
    runReRead s n = .error (.raise .exhaust) ↔ t.re.bitoff.toNat < n := by
  rw [runReRead, h]
  dsimp only
  split <;> simp [*]

/-- The bits a refill leaves are too few exactly when the register had too few and the stream has too few, or a full
word cannot hold n bits beside the partly consumed byte (R121, R125). -/
theorem refill_short_iff (hok : s.re.ok s.width) (hv : s.re.valid = true) (h : refill s n = .ok t) :
    t.re.bitoff.toNat < n ↔
      s.re.bitoff.toNat < n ∧
        (s.unreadBits < n ∨
          (s.re.cursor ≠ s.re.bufEnd ∧
            s.re.cursor.toNat + (s.width.bits - s.re.bitoff.toNat) / 8 ≤ s.re.bufEnd.toNat ∧
            s.width.bits < n + (s.width.bits - s.re.bitoff.toNat) % 8)) := by
  rcases refill_eq_ok h with ⟨hn, rfl⟩ | ⟨hn, st, hst⟩
  · omega
  · obtain ⟨u, hu, rfl⟩ := reloadRecorded_eq_ok.mp hst
    show u.re.bitoff.toNat < n ↔ _
    have hkept : u.re.bitoff.toNat ≤ s.unreadBits :=
      (Nat.le_add_right _ _).trans_eq (reload_unreadBits hok hv hu)
    rcases reload_bitoff hok hv hu with ⟨hend, rfl⟩ | ⟨hne, hfull, hbits⟩ | ⟨-, htail, hbits⟩
    · have hall : u.unreadBits = u.re.bitoff.toNat := by rw [State.unreadBits, hend]; omega
      simp only [hn, hend, hall, ne_eq, not_true_eq_false, false_and, or_false, true_and]
    · simp only [hn, hne, hfull, ne_eq, not_false_eq_true, true_and]
      omega
    · omega

/-! #### RE_RELOAD (R121, R126) -/

/-- RE_RELOAD is a reload with its status recorded and answered (R126). -/
theorem exec_reReload_eq {st : ReloadStatus} (hrun : s.blk.halted = false) (hv : s.re.valid = true)
    (h : reload s = .ok (t, st)) :
    exec .reReload s =
      .next (State.answered { s with re := { t.re with rstat := st } } 0x00 (st.code.setWidth 64)) := by
  rw [exec_reReload_of_reload hrun hv (reloadRecorded_eq_ok.mpr ⟨t, h, rfl⟩), reload_frame h]
  rfl

/-- A cursor that is not at END is below it (R29). -/
theorem cursor_lt_of_ne (hok : s.re.ok s.width) (hv : s.re.valid = true) (hne : s.re.cursor ≠ s.re.bufEnd) :
    s.re.cursor.toNat < s.re.bufEnd.toNat := by
  obtain ⟨-, -, hbuf⟩ := hok
  obtain ⟨-, hle, -⟩ := hbuf hv
  exact Nat.lt_of_le_of_ne hle fun h => hne (BitVec.eq_of_toNat_eq h)

/-- No reload starts beyond the buffer: at most the B bytes of the word have been consumed (R121). -/
theorem reloadAddr_lt (hok : s.re.ok s.width) (hv : s.re.valid = true) (hne : s.re.cursor ≠ s.re.bufEnd) :
    reloadAddr s < s.re.bufEnd.toNat + s.width.bytes := by
  have hlt := cursor_lt_of_ne hok hv hne
  have hB := wordBits_eq s.width
  rw [reloadAddr_eq]
  omega

end ReadEngineCommands

/-- Settles O23: each checks the bound before anything else. -/
theorem peekAndConsumeExhaustExactly : Obligations.PeekAndConsumeExhaustExactly := by
  intro s nb hrun hv hnb i hi
  simp only [List.mem_cons, List.not_mem_nil, or_false] at hi
  rcases hi with rfl | rfl
  · rw [exec, execRePeek, engineBits_of_ready hrun hnb hv, ← runRePeek_eq_exhaust]
    refine commit_eq_takeFault (c := .exhaust) fun u rc d hu => ?_
    unfold runRePeek at hu
    split at hu <;> cases hu
    exact hrun
  · rw [exec, execReConsume, engineBits_of_ready hrun hnb hv, ← runReConsume_eq_exhaust]
    refine commit_eq_takeFault (c := .exhaust) fun u rc d hu => ?_
    unfold runReConsume at hu
    split at hu <;> cases hu
    exact hrun

/-- Settles O40: with enough bits available RE_PEEK is the peek of R122 on the state as it is. -/
theorem peekAnswersTheTopBits : Obligations.PeekAnswersTheTopBits := by
  intro s nb hrun hv hnb hn
  refine ⟨BitVec.ofNat 64 (peekBits s nb.toNat), ?_, toNat_peekBits hnb⟩
  rw [exec, execRePeek, engineBits_of_ready hrun hnb hv, runRePeek_of_enough hn]
  rfl

/-- Settles O41: with enough bits available RE_CONSUME is `consumeBits`. -/
theorem consumeLowersTheBitCount : Obligations.ConsumeLowersTheBitCount := by
  intro s nb hrun hv hnb hn
  refine ⟨(consumeBits s nb.toNat).re.bitoff, ?_, consumeBits_bitoff _⟩
  rw [exec, execReConsume, engineBits_of_ready hrun hnb hv, runReConsume_of_enough hn]
  rfl

/-- Settles O42: with enough bits available the refill does nothing. -/
theorem readWithoutReload : Obligations.ReadWithoutReload := by
  intro s nb hrun hv hnb hn
  exact ⟨(consumeBits s nb.toNat).re.bitoff, _,
    exec_reRead_of_refill hrun hv hnb (refill_of_enough hn) hn, consumeBits_bitoff _, toNat_peekBits hnb⟩

/-- Settles O47: `drained` is the test that R127 states. -/
theorem readCloseReportsTheDrainedStream : Obligations.ReadCloseReportsTheDrainedStream := by
  intro s hrun hv
  have hdrained : drained s = true ↔ s.re.cursor = s.re.bufEnd ∧ s.re.bitoff = 0 := by
    rw [drained, Bool.and_eq_true, decide_eq_true_eq, decide_eq_true_eq, ← BitVec.toNat_inj (y := 0)]
    rfl
  rw [exec, execReClose, engine_of_ready hrun hv, commit_ok, flagBit]
  simp only [hdrained]
  split <;> rfl

/-- Settles O24: the fault comes from what the refill leaves. -/
theorem readExhaustsExactly : Obligations.ReadExhaustsExactly := by
  intro s nb hI hrun hv hnb
  obtain ⟨t, ht⟩ := exists_refill nb.toNat hI.re hv
  rw [exec, execReRead, engineBits_of_ready hrun hnb hv, ← refill_short_iff hI.re hv ht, ← runReRead_eq_exhaust ht]
  refine commit_eq_takeFault (c := .exhaust) fun u rc d hu => ?_
  obtain ⟨x, hx, -, rfl, -⟩ := runReRead_eq_ok.mp hu
  rwa [consumeBits_blk, refill_frame hx]

/-- Settles O38, by R120's three outcomes. -/
theorem readInitLoadsTheFirstWord : Obligations.ReadInitLoadsTheFirstWord := by
  intro s a l hrun
  refine ⟨fun hpast => ?_, fun hfit hsmall => ?_, fun hfit hcap => ?_⟩
  · rw [exec, execReInit, unlessHalted_of_running hrun, requireRegion_of_passes hpast]
    rfl
  · rw [exec, execReInit, unlessHalted_of_running hrun, requireRegion_of_fits hfit, runReInit, if_pos hsmall]
    rfl
  · have hbytes := wordBytes_range s.width
    exact ⟨_, exec_reInit_of_region hrun hfit hcap, rfl, toNat_narrowWord_memRead _ _ _ (Nat.le_refl _),
      toNat_narrowBitoff_bits _, narrowAddr_toNat a, narrowAddr_toNat a,
      toNat_narrowAddr (show a.toNat + l.toNat - s.width.bytes < 2 ^ 32 by omega), rfl⟩

/-- Settles O44, by the three cases of a reload. -/
theorem reloadFollowsItsThreeCases : Obligations.ReloadFollowsItsThreeCases := by
  intro s hI hrun hv
  obtain ⟨-, hbits, hbuf⟩ := hI.re
  obtain ⟨-, -, -, hmem, -⟩ := hbuf hv
  have hB := wordBits_eq s.width
  have hwide := wordBits_range s.width
  have haddr := reloadAddr_eq s
  have hused : consumedBits s = s.width.bits - s.re.bitoff.toNat := rfl
  refine ⟨fun hend => ?_, fun hne hfull => ?_, fun hne htail => ?_⟩
  · rw [exec_reReload_eq hrun hv (reload_at_end hend)]
    split <;> rfl
  · have hcursor : (narrowAddr (reloadAddr s)).toNat = reloadAddr s :=
      toNat_narrowAddr (by have := s.re.bufEnd.isLt; omega)
    refine ⟨_, exec_reReload_eq hrun hv (reload_full hne (haddr ▸ hfull) hmem), rfl, hcursor.trans haddr, ?_,
      toNat_narrowBitoff (by omega)⟩
    dsimp only
    rw [hcursor, toNat_narrowWord_memRead _ _ _ (Nat.le_refl _)]
  · have hbeyond := reloadAddr_lt hI.re hv hne
    refine ⟨_, s.re.bufEnd.toNat + s.width.bytes - reloadAddr s,
      exec_reReload_eq hrun hv (reload_tail hne (haddr ▸ htail) hbeyond.le hmem), by omega, by omega, by omega, rfl,
      toNat_narrowWord_memRead _ _ _ (by omega), toNat_narrowBitoff (by omega)⟩

/-- Settles O46: the three cases of O44 at BITOFF = 0, where the whole word has been consumed. -/
theorem drainedReloadProgression : Obligations.DrainedReloadProgression := by
  intro s hI hrun hv hzero
  obtain ⟨hatEnd, hfull, htail⟩ := reloadFollowsItsThreeCases s hI hrun hv
  have hB := wordBits_eq s.width
  have hbytes := wordBytes_range s.width
  have hoff : s.re.bitoff.toNat = 0 := by rw [hzero]; rfl
  have hword : (s.width.bits - s.re.bitoff.toNat) / 8 = s.width.bytes := by omega
  by_cases hend : s.re.cursor = s.re.bufEnd
  · have hnum : s.re.cursor.toNat = s.re.bufEnd.toNat := congrArg _ hend
    refine ⟨{ s.re with rstat := .complete }, 2, by rw [hatEnd hend, if_neg (by omega)], fun h => ?_, fun h => ?_,
      fun _ => ⟨rfl, hend, hzero⟩⟩
    · omega
    · omega
  · have hlt := cursor_lt_of_ne hI.re hv hend
    by_cases hroom : s.re.cursor.toNat + s.width.bytes ≤ s.re.bufEnd.toNat
    · obtain ⟨e, he, -, hcursor, -, hbitoff⟩ := hfull hend (by omega)
      refine ⟨e, 0, he, fun _ => ⟨rfl, by omega, by omega⟩, fun _ h => ?_, fun h => absurd h hend⟩
      omega
    · obtain ⟨e, rem, he, -, -, hrem, hframe, -, hbitoff⟩ := htail hend (by omega)
      refine ⟨e, 1, he, fun h => absurd h hroom, fun _ _ => ⟨rfl, ?_, by omega⟩, fun h => absurd h hend⟩
      rw [hframe]

/-- Settles O45: RE_RELOAD is a reload, and RE.RSTAT is no part of the unread stream. -/
theorem reloadKeepsTheUnreadStream : Obligations.ReloadKeepsTheUnreadStream := by
  intro s hI hco hrun hv
  obtain ⟨t, st, ht⟩ := exists_reload hI.re hv
  have hstream := reload_unread hI.re hv hco ht
  have hframe : t = { s with re := t.re } := by rw [reload_frame ht]
  rw [hframe] at hstream
  exact ⟨_, _, exec_reReload_eq hrun hv ht, hstream⟩

end Sys2Proof.Machine

namespace Sys2Proof.Machine

/-! ### The round trip (R128)

The bits of the groups and the marker, in order, are one number. The writes and the close put it into the buffer, and
the reads take it apart again. A Put that succeeds has room for its bits beside the partial byte at its place in the
stream, and a refill at the same place has the same partial byte:
so where no write meets SPACE no read meets EXHAUST. -/

/-- A value and its bit count, as WE_WRITE takes them. -/
abbrev BitGroup := BitVec 32 × BitVec 5

/-- The bits of a list of groups, in number. -/
def groupsBits (gs : List BitGroup) : Nat := (gs.map fun g => g.2.toNat).sum

/-- The bits of a list of groups as a number, the first group the most significant (R53). -/
def groupsValue : List BitGroup → Nat
  | [] => 0
  | g :: gs => g.1.toNat * 2 ^ groupsBits gs + groupsValue gs

/-- Every group has at most 26 bits, its value fits, and a word holds it beside the partial byte at its place, which is
`pos` bits into the stream for the first group. -/
def GroupsFit (w : WordWidth) : Nat → List BitGroup → Prop
  | _, [] => True
  | pos, g :: gs =>
    g.2.toNat ≤ 26 ∧ g.1.toNat < 2 ^ g.2.toNat ∧ g.2.toNat + pos % 8 ≤ w.bits ∧ GroupsFit w (pos + g.2.toNat) gs

section RoundTrip

variable {s t p u : State} {gs : List BitGroup} {w : WordWidth}

/-! #### Groups as one number -/

@[simp] theorem groupsBits_nil : groupsBits [] = 0 := rfl

@[simp] theorem groupsBits_cons (g : BitGroup) (gs : List BitGroup) :
    groupsBits (g :: gs) = g.2.toNat + groupsBits gs := List.sum_cons

@[simp] theorem groupsValue_nil : groupsValue [] = 0 := rfl

theorem groupsValue_cons (g : BitGroup) (gs : List BitGroup) :
    groupsValue (g :: gs) = g.1.toNat * 2 ^ groupsBits gs + groupsValue gs := rfl

theorem groupsBits_concat (gs : List BitGroup) (g : BitGroup) :
    groupsBits (gs ++ [g]) = groupsBits gs + g.2.toNat := by
  simp [groupsBits]

/-- One group more at the end moves the others up by its bits. -/
theorem groupsValue_concat (gs : List BitGroup) (g : BitGroup) :
    groupsValue (gs ++ [g]) = groupsValue gs * 2 ^ g.2.toNat + g.1.toNat := by
  induction gs with
  | nil => simp [groupsValue]
  | cons x xs ih =>
    rw [List.cons_append, groupsValue_cons, groupsValue_cons, ih, groupsBits_concat, Nat.pow_add]
    ring

theorem groupsFit_concat {pos : Nat} {g : BitGroup} (h : GroupsFit w pos gs) (hg : g.2.toNat ≤ 26)
    (hvalue : g.1.toNat < 2 ^ g.2.toNat) (hroom : g.2.toNat + (pos + groupsBits gs) % 8 ≤ w.bits) :
    GroupsFit w pos (gs ++ [g]) := by
  induction gs generalizing pos with
  | nil => exact ⟨hg, hvalue, hroom, trivial⟩
  | cons x xs ih =>
    obtain ⟨hx, hxv, hxr, hxs⟩ := h
    rw [groupsBits_cons, ← Nat.add_assoc] at hroom
    exact ⟨hx, hxv, hxr, ih hxs hroom⟩

/-- Values that fit make a number that fits. -/
theorem groupsValue_lt {pos : Nat} (h : GroupsFit w pos gs) : groupsValue gs < 2 ^ groupsBits gs := by
  induction gs generalizing pos with
  | nil => simp
  | cons g gs ih =>
    obtain ⟨-, hvalue, -, hgs⟩ := h
    have hrest := ih hgs
    rw [groupsValue_cons, groupsBits_cons, Nat.pow_add]
    calc g.1.toNat * 2 ^ groupsBits gs + groupsValue gs
        < (g.1.toNat + 1) * 2 ^ groupsBits gs := by rw [Nat.succ_mul]; omega
      _ ≤ 2 ^ g.2.toNat * 2 ^ groupsBits gs := Nat.mul_le_mul_right _ hvalue

/-- A number cut at one place has one upper and one lower part. -/
theorem eq_of_split_eq {x y q r e : Nat} (hy : y < 2 ^ e) (hr : r < 2 ^ e) (h : x * 2 ^ e + y = q * 2 ^ e + r) :
    x = q ∧ y = r := by
  have hpos : 0 < 2 ^ e := Nat.two_pow_pos e
  obtain ⟨hx, hy⟩ := (Nat.div_mod_unique (a := x * 2 ^ e + y) (d := x) hpos).mpr ⟨by ring, hy⟩
  obtain ⟨hq, hr⟩ := (Nat.div_mod_unique (a := x * 2 ^ e + y) (d := q) hpos).mpr ⟨by rw [h]; ring, hr⟩
  exact ⟨hx.symm.trans hq, hy.symm.trans hr⟩

/-! #### Command lists -/

theorem runCommands_cons {i : Instr} {is : List Instr} :
    runCommands (i :: is) s = some t ↔ ∃ u, exec i s = .next u ∧ runCommands is u = some t := by
  rw [runCommands]
  cases exec i s <;> simp

theorem runCommands_append {is js : List Instr} :
    runCommands (is ++ js) s = some t ↔ ∃ u, runCommands is s = some u ∧ runCommands js u = some t := by
  induction is generalizing s with
  | nil => simp [runCommands]
  | cons i is ih =>
    simp only [List.cons_append, runCommands_cons, ih]
    constructor
    · rintro ⟨x, hx, u, hu, ht⟩
      exact ⟨u, ⟨x, hx, hu⟩, ht⟩
    · rintro ⟨u, ⟨x, hx, hu⟩, ht⟩
      exact ⟨x, hx, u, hu, ht⟩

/-- A list of commands keeps the invariant. -/
theorem runCommands_inv {is : List Instr} (hI : s.Inv) (h : runCommands is s = some t) : t.Inv := by
  induction is generalizing s with
  | nil =>
    cases h
    exact hI
  | cons i is ih =>
    obtain ⟨u, hu, hrest⟩ := runCommands_cons.mp h
    exact ih (exec_leadsToInv i hI u hu) hrest

/-! #### Writing -/

/-- A command with a bit count that leaves the block running passed its checks and completed (R204, R205). -/
theorem engineBits_running {nb : BitVec 5} {v : Bool} {e : Execution}
    (h : unlessHalted s (requireBits s nb (requireInit s v (commit s e))) = .next t) (hrun : t.blk.halted = false) :
    s.blk.halted = false ∧ v = true ∧ ∃ u rc d, e = .ok (u, rc, d) ∧ t = u.respond rc d := by
  simp only [unlessHalted_eq_next, requireBits, requireInit, require_eq_next, commit_eq_next] at h
  rcases h with ⟨hh, rfl⟩ | ⟨hs, ⟨-, rfl⟩ | ⟨-, ⟨-, rfl⟩ | ⟨hv, hdone | ⟨c, -, rfl⟩⟩⟩⟩
  · exact absurd (hh.symm.trans hrun) nofun
  · cases hrun
  · cases hrun
  · exact ⟨hs, hv, hdone⟩
  · cases hrun

theorem weWrite_running {v : BitVec 32} {nb : BitVec 5} (h : exec (.weWrite v nb) s = .next t)
    (hrun : t.blk.halted = false) :
    s.blk.halted = false ∧ s.we.valid = true ∧ ∃ u, put s v.toNat nb.toNat = .ok u ∧ t = u.respond .ok 0 := by
  obtain ⟨hs, hv, u, rc, d, hu, rfl⟩ := engineBits_running h hrun
  obtain ⟨hput, rfl, rfl⟩ := runWeWrite_eq_ok.mp hu
  exact ⟨hs, hv, u, hput, rfl⟩

theorem weClose_running {v : BitVec 32} {nb : BitVec 5} (h : exec (.weClose v nb) s = .next t)
    (hrun : t.blk.halted = false) : s.blk.halted = false ∧ s.we.valid = true ∧ ∃ u, put s v.toNat nb.toNat = .ok u := by
  obtain ⟨hs, hv, u, rc, d, hu, rfl⟩ := engineBits_running h hrun
  obtain ⟨p, hput, -⟩ := runWeClose_eq_ok.mp hu
  exact ⟨hs, hv, p, hput⟩

/-- Bits that a Put takes, a word holds beside the partial byte of the stream (R102, R210). -/
theorem put_fits {v n : Nat} (hI : s.Inv) (hput : put s v n = .ok u) : n + s.writtenBits % 8 ≤ s.width.bits := by
  obtain ⟨-, hbits, -⟩ := hI.we
  have hoff := flushedEngine_bitoff hbits
  have hpart : s.writtenBits % 8 = (s.width.bits - s.we.bitoff.toNat) % 8 := by
    rw [State.writtenBits]
    omega
  rcases put_eq_appendBits hput with ⟨hroom, -⟩ | ⟨-, hroom, -⟩ <;> omega

/-- A response is no part of the written stream. -/
theorem State.respond_writtenBits (rc : RCode) (d : Word) : (s.respond rc d).writtenBits = s.writtenBits := rfl

theorem State.respond_writtenValue (rc : RCode) (d : Word) : (s.respond rc d).writtenValue = s.writtenValue := rfl

/-- What WE_WRITEs of `gs` that all took their bits make of `s`: the groups stand at the end of the stream. -/
structure Wrote (gs : List BitGroup) (s p : State) : Prop where
  inv : p.Inv
  valid : s.we.valid = true
  width : p.width = s.width
  start : p.we.start = s.we.start
  bufEnd : p.we.bufEnd = s.we.bufEnd
  cursor : s.we.cursor.toNat ≤ p.we.cursor.toNat
  bits : p.writtenBits = s.writtenBits + groupsBits gs
  value : p.writtenValue = s.writtenValue * 2 ^ groupsBits gs + groupsValue gs
  fit : GroupsFit s.width s.writtenBits gs

/-- A write of one group before the others. -/
theorem Wrote.cons {g : BitGroup} (hI : s.Inv) (hv : s.we.valid = true) (hput : put s g.1.toNat g.2.toNat = .ok u)
    (hg : g.2.toNat ≤ 26) (hvalue : g.1.toNat < 2 ^ g.2.toNat) 
    (h : Wrote gs (u.respond .ok 0) p) (hbelow : p.we.cursor.toNat < p.we.bufEnd.toNat) : Wrote (g :: gs) s p := by
  obtain ⟨-, -, hwidth, -, hstart, hend, -, hcursor⟩ := put_effect hI.we hI.mem hv hput
  have hbelowu : u.we.cursor.toNat < s.we.bufEnd.toNat := by
    have hle := h.cursor
    rw [h.bufEnd, State.respond_we, hend] at hbelow
    exact Nat.lt_of_le_of_lt hle hbelow
  obtain ⟨hbits, hval⟩ := put_stream_of_cursor_lt hI.we hI.mem hv hput hbelowu
  have hfit := h.fit
  rw [State.respond_width, hwidth, State.respond_writtenBits, hbits] at hfit
  refine ⟨h.inv, hv, h.width.trans hwidth, h.start.trans hstart, h.bufEnd.trans hend, hcursor.trans h.cursor, ?_, ?_,
    hg, hvalue, put_fits hI hput, hfit⟩
  · rw [h.bits, State.respond_writtenBits, hbits, groupsBits_cons, Nat.add_assoc]
  · rw [h.value, State.respond_writtenValue, hval, Nat.mod_eq_of_lt hvalue, groupsValue_cons, groupsBits_cons,
      Nat.pow_add]
    ring

/-- WE_WRITEs that leave the block running and the cursor below END put their groups at the end of the stream. -/
theorem wrote_of_runCommands (hI : s.Inv) (hgs : ∀ g ∈ gs, g.2.toNat ≤ 26 ∧ g.1.toNat < 2 ^ g.2.toNat)
    (h : runCommands (gs.map fun g => .weWrite g.1 g.2) s = some p) (hrun : p.blk.halted = false)
    (hv : p.we.valid = true) (hbelow : p.we.cursor.toNat < p.we.bufEnd.toNat) :
    s.blk.halted = false ∧ Wrote gs s p := by
  induction gs generalizing s with
  | nil =>
    cases h
    exact ⟨hrun, hI, hv, rfl, rfl, rfl, Nat.le_refl _, rfl, by simp, trivial⟩
  | cons g gs ih =>
    obtain ⟨x, hx, hrest⟩ := runCommands_cons.mp h
    obtain ⟨hg, hvalue⟩ := hgs g List.mem_cons_self
    obtain ⟨hrunx, hw⟩ := ih (exec_leadsToInv _ hI x hx) (fun y hy => hgs y (List.mem_cons_of_mem g hy)) hrest
    obtain ⟨hruns, hvs, u, hput, rfl⟩ := weWrite_running hx hrunx
    exact ⟨hruns, .cons hI hvs hput hg hvalue hw hbelow⟩

/-- A command that leaves the block running started from a running block (R204). -/
theorem running_of_exec {i : Instr} (h : exec i s = .next t) (hrun : t.blk.halted = false) : s.blk.halted = false := by
  rcases exec_eq_next h with ⟨-, rfl⟩ | ⟨hs, -⟩ | ⟨u, rc, d, rfl, hframe, -⟩
  · exact hrun
  · exact hs
  · rwa [State.respond_blk, hframe.blk] at hrun

/-- A WE_INIT that leaves an initialised engine and the block running opens an empty stream at its base (R100). -/
theorem weInit_running {a : Addr} {c : BitVec 24} (h : exec (.weInit a c) s = .next t) (hrun : t.blk.halted = false)
    (hv : t.we.valid = true) : t.width = s.width ∧ t.we.start = a ∧ t.writtenBits = 0 ∧ t.writtenValue = 0 := by
  have hs := running_of_exec h hrun
  obtain ⟨hpast, hsmall, hinit⟩ := writeInitSetsUpTheBuffer s a c hs
  by_cases hfit : a.toNat + c.toNat ≤ 2 ^ 32
  · by_cases hcap : s.width.bytes < c.toNat
    · obtain ⟨e, he, -, hword, hoff, rfl, hcursor, -⟩ := hinit hfit hcap
      rw [h] at he
      cases he
      refine ⟨rfl, rfl, ?_, ?_⟩
      · simp [State.writtenBits, hcursor, hoff]
      · simp [State.writtenValue, hcursor, hword]
    · rw [hsmall hfit (Nat.le_of_not_lt hcap)] at h
      cases h
      cases hv
  · rw [hpast (Nat.lt_of_not_le hfit)] at h
    cases h
    cases hrun

/-! #### Closing -/

/-- What a WE_CLOSE that answers (OK, l) finds and leaves: the stream and its marker stand in MEM from START, filled up
with 0 bits to `l` bytes (R104, R106). -/
structure Closed (g : BitGroup) (l : Word) (p t : State) : Prop where
  valid : p.we.valid = true
  running : p.blk.halted = false
  below : p.we.cursor.toNat < p.we.bufEnd.toNat
  room : g.2.toNat + p.writtenBits % 8 ≤ p.width.bits
  width : t.width = p.width
  inMem : p.we.start.toNat + l.toNat ≤ 2 ^ 32
  length : l.toNat = (p.writtenBits + g.2.toNat + 7) / 8
  stored : memRead t.mem p.we.start.toNat l.toNat =
    (p.writtenValue * 2 ^ g.2.toNat + g.1.toNat % 2 ^ g.2.toNat) *
      2 ^ (8 * l.toNat - (p.writtenBits + g.2.toNat))

theorem closed_of_exec {g : BitGroup} {l : Word} (hI : p.Inv) (hg : g.2.toNat ≤ 26)
    (h : exec (.weClose g.1 g.2) p = .next t) (hrun : t.blk.halted = false)
    (hresp : t.responses.head? = some { rcode := 0x00, rdata := l }) : Closed g l p t := by
  obtain ⟨hp, hv, u, hput⟩ := weClose_running h hrun
  have hroom := put_fits hI hput
  obtain ⟨-, hbits, -, hbuf⟩ := hI.we
  obtain ⟨hstart, hcursor, -, hmem, -⟩ := hbuf hv
  have hB := wordBits_eq p.width
  have hpart : p.writtenBits % 8 = (p.width.bits - p.we.bitoff.toNat) % 8 := by
    rw [State.writtenBits]
    omega
  obtain ⟨e, m, r, _, _, hexec, -, -, -, -, hover, hok, -⟩ :=
    closeReportsTheStreamLength p g.1 g.2 hI hp hv hg (hpart ▸ hroom)
  have hstored := closedStreamIsInMemory p t g.1 g.2 l hI hp hv h
  rw [h] at hexec
  cases hexec
  cases hresp
  have hbelow : (p.writtenBits + g.2.toNat) / 8 < p.we.bufEnd.toNat - p.we.start.toNat := by
    by_contra hle
    cases hover (Nat.le_of_not_lt hle)
  obtain ⟨-, hlen⟩ := hok hbelow
  have hlow := wordBytes_range p.width
  refine ⟨hv, hp, ?_, hroom, rfl, ?_, hlen, hstored rfl⟩
  · rw [State.writtenBits] at hbelow
    omega
  · dsimp only at hlen
    rw [memSize] at hmem
    omega

/-- The `len` bytes from `a` hold the groups in order, followed by `pad` 0 bits. -/
structure Stored (gs : List BitGroup) (a len pad : Nat) (t : State) : Prop where
  inMem : a + len ≤ 2 ^ 32
  bits : 8 * len = groupsBits gs + pad
  value : memRead t.mem a len = groupsValue gs * 2 ^ pad
  fit : GroupsFit t.width 0 gs

/-- Writes onto an empty stream and a close with the marker `g` store the groups and the marker (R106). -/
theorem stored_of_closed {g : BitGroup} {l : Word} (hbits : s.writtenBits = 0) (hvalue : s.writtenValue = 0)
    (hw : Wrote gs s p) (hc : Closed g l p t) (hg : g.2.toNat ≤ 26) (hfits : g.1.toNat < 2 ^ g.2.toNat) :
    Stored (gs ++ [g]) s.we.start.toNat l.toNat (8 * l.toNat - groupsBits (gs ++ [g])) t := by
  have hwbits : p.writtenBits = groupsBits gs := by rw [hw.bits, hbits, Nat.zero_add]
  have hwvalue : p.writtenValue = groupsValue gs := by rw [hw.value, hvalue, Nat.zero_mul, Nat.zero_add]
  obtain ⟨-, -, -, hroom, hwidth, hinMem, hlength, hstored⟩ := hc
  rw [hwbits] at hroom hlength
  rw [hw.start] at hinMem
  rw [hw.start, hwbits, hwvalue, Nat.mod_eq_of_lt hfits, ← groupsValue_concat, ← groupsBits_concat] at hstored
  refine ⟨hinMem, ?_, hstored, ?_⟩
  · rw [groupsBits_concat]
    omega
  · have hgs := hw.fit
    rw [hbits, ← hw.width, ← hwidth] at hgs
    rw [← hwidth] at hroom
    exact groupsFit_concat hgs hg hfits (by rwa [Nat.zero_add])

/-! #### Reading -/

/-- The unread stream is a number of its length. -/
theorem unreadValue_lt (s : State) : s.unreadValue < 2 ^ s.unreadBits := by
  rw [State.unreadValue, mod_mul_add _ _ (memRead_lt ..)]
  exact Nat.mod_lt _ (Nat.two_pow_pos _)

/-- The read engine of `t` is `pos` bits into a stream of whole bytes, and what it has not read are the groups `gs` and
`pad` 0 bits. -/
structure Reads (gs : List BitGroup) (pos pad : Nat) (t : State) : Prop where
  inv : t.Inv
  running : t.blk.halted = false
  valid : t.re.valid = true
  coherent : t.readerCoherent
  bits : t.unreadBits = groupsBits gs + pad
  value : t.unreadValue = groupsValue gs * 2 ^ pad
  whole : (pos + t.unreadBits) % 8 = 0
  fit : GroupsFit t.width pos gs

/-- RE_READ takes the first group off and answers its value (R125). -/
theorem Reads.read {g : BitGroup} {pos pad : Nat} (h : Reads (g :: gs) pos pad t) :
    ∃ u, exec (.reRead g.2) t = .next u ∧
      u.responses = { rcode := 0x00, rdata := g.1.setWidth 64 } :: t.responses ∧
      Reads gs (pos + g.2.toNat) pad u := by
  obtain ⟨hI, hrun, hv, hco, hbits, hvalue, hwhole, hnb, hval, hroom, hgs⟩ := h
  have ⟨_, hoff, _⟩ := hI.re
  have hB := wordBits_eq t.width
  have hpart : (t.width.bits - t.re.bitoff.toNat) % 8 = pos % 8 := by
    rw [State.unreadBits] at hwhole
    omega
  rw [groupsBits_cons] at hbits
  obtain ⟨e, d, hexec, hd, hleft, hve, -, -, -, -, hstream⟩ :=
    readTakesTheNextBits t g.2 hI hrun hv hnb (by omega) (hpart ▸ hroom)
  obtain ⟨hsplit, hcoh⟩ := hstream hco
  have hrest : t.unreadBits - g.2.toNat = groupsBits gs + pad := by omega
  have hlast : groupsValue gs * 2 ^ pad < 2 ^ (groupsBits gs + pad) := by
    rw [Nat.pow_add]
    exact Nat.mul_lt_mul_of_pos_right (groupsValue_lt hgs) (Nat.two_pow_pos pad)
  have hunread := unreadValue_lt { t with re := e }
  rw [hleft, hrest] at hunread
  have hcut : d.toNat * 2 ^ (groupsBits gs + pad) + State.unreadValue { t with re := e } =
      g.1.toNat * 2 ^ (groupsBits gs + pad) + groupsValue gs * 2 ^ pad := by
    rw [← hrest, ← hsplit, hrest, hvalue, groupsValue_cons, Nat.pow_add]
    ring
  obtain ⟨hdata, hremain⟩ := eq_of_split_eq hunread hlast hcut
  have hword : d = g.1.setWidth 64 := BitVec.eq_of_toNat_eq (by
    rw [hdata, BitVec.toNat_setWidth_of_le (by decide)])
  refine ⟨_, hexec, by rw [hword], exec_leadsToInv _ hI _ hexec, hrun, hve, hcoh, hleft.trans hrest, hremain, ?_, hgs⟩
  have hposition : pos + g.2.toNat + (t.unreadBits - g.2.toNat) = pos + t.unreadBits := by omega
  show (pos + g.2.toNat + State.unreadBits { t with re := e }) % 8 = 0
  rw [hleft, hposition, hwhole]

/-- RE_READs of the groups' bit counts answer the groups' values in order. -/
theorem Reads.readAll {pos pad : Nat} (h : Reads gs pos pad t) :
    ∃ u, runCommands (gs.map fun g => .reRead g.2) t = some u ∧ u.blk.halted = false ∧
      u.responses =
        (gs.map fun g => ({ rcode := 0x00, rdata := g.1.setWidth 64 } : Response)).reverse ++ t.responses := by
  induction gs generalizing pos t with
  | nil => exact ⟨t, rfl, h.running, rfl⟩
  | cons g gs ih =>
    obtain ⟨x, hx, hanswer, hreads⟩ := h.read
    obtain ⟨u, hu, hrun, hresp⟩ := ih hreads
    refine ⟨u, runCommands_cons.mpr ⟨x, hx, hu⟩, hrun, ?_⟩
    rw [hresp, hanswer]
    simp

/-- RE_INIT over the bytes that hold the groups is at their first bit (R120). -/
theorem Stored.reInit {a : Addr} {l : BitVec 24} {pad : Nat} (h : Stored gs a.toNat l.toNat pad t) (hI : t.Inv)
    (hrun : t.blk.halted = false) (hcap : t.width.bytes < l.toNat) :
    ∃ u, exec (.reInit a l) t = .next u ∧ u.responses = { rcode := 0x00, rdata := 0 } :: t.responses ∧
      Reads gs 0 pad u := by
  obtain ⟨e, hexec, hv, hunread, hstream, hco⟩ := readInitOpensTheStream t a l hrun h.inMem hcap
  refine ⟨_, hexec, rfl, exec_leadsToInv _ hI _ hexec, hrun, hv, hco, hunread.trans h.bits, hstream.trans h.value, ?_,
    h.fit⟩
  show (0 + State.unreadBits { t with re := e }) % 8 = 0
  omega

end RoundTrip

/-- Settles O57: the writes and the close leave the groups and the marker in MEM, and the reads take them off one by
one. -/
theorem roundTrip : Obligations.RoundTrip := by
  intro s t a c l groups m k hI hgroups hk hm hwrites hrun hresp hcap
  rw [List.cons_append, runCommands_cons] at hwrites
  obtain ⟨i, hinit, hwrites⟩ := hwrites
  obtain ⟨p, hputs, hclose⟩ := runCommands_append.mp hwrites
  obtain ⟨_, hclose, ⟨⟩⟩ := runCommands_cons.mp hclose
  have hIi := exec_leadsToInv _ hI i hinit
  have hIp := runCommands_inv hIi hputs
  have hIt := exec_leadsToInv _ hIp t hclose
  have hclosed := closed_of_exec (g := (m, k)) hIp hk hclose hrun hresp
  have hfits : ∀ g ∈ groups, g.2.toNat ≤ 26 ∧ g.1.toNat < 2 ^ g.2.toNat := fun g hg => (hgroups g hg).2
  obtain ⟨hruni, hwrote⟩ := wrote_of_runCommands hIi hfits hputs hclosed.running hclosed.valid hclosed.below
  obtain ⟨hwidth, hstart, hnone, hempty⟩ := weInit_running hinit hruni hwrote.valid
  have hlen : (l.setWidth 64).toNat = l.toNat := BitVec.toNat_setWidth_of_le (by decide)
  have hstored := stored_of_closed hnone hempty hwrote hclosed hk hm
  rw [hstart, hlen] at hstored
  have hword : t.width = s.width := (hclosed.width.trans hwrote.width).trans hwidth
  obtain ⟨x, hx, hopened, hreads⟩ := hstored.reInit hIt hrun (hword ▸ hcap)
  obtain ⟨u, hu, hrunu, hanswers⟩ := hreads.readAll
  rw [List.map_append] at hu
  refine ⟨u, runCommands_cons.mpr ⟨x, hx, hu⟩, hrunu, ?_⟩
  rw [hanswers, hopened, List.map_append, List.reverse_append]
  rfl

end Sys2Proof.Machine

namespace Sys2Proof.Machine

/-! ### The frequency normalizer (R150 to R162) -/

section NormalizerCommands

variable {s : State} {t u raw : Table} {ms v d : Symbol} {m : BitVec 32}

/-! #### What the commands answer -/

theorem toNat_entry_pos {i : Symbol} : 0 < (t.entry i).toNat ↔ t.entry i ≠ 0 := by
  rw [BitVec.toNat_ne]
  exact Nat.pos_iff_ne_zero

/-- FN_COUNT of a region inside MEM (R150). -/
theorem exec_fnCount_of_fits {a : Addr} {l : BitVec 24} (hrun : s.blk.halted = false)
    (hfit : a.toNat + l.toNat ≤ 2 ^ 32) :
    exec (.fnCount a l) s = .next ({ s with fn := { s.fn with
      raw := countBytes s.mem a.toNat l.toNat, nvalid := false, nfail := false } }.answered 0x00 0) := by
  rw [exec, execFnCount, unlessHalted_of_running hrun, requireRegion_of_fits hfit]
  rfl

/-- FN_NORM commits the outcome of `normalizeCounts` (R151). -/
theorem exec_fnNorm_of_outcome {f : Normalizer} {rc : RCode} {w : Word} (hrun : s.blk.halted = false) (hm : m ≠ 0)
    (h : normalizeCounts s.fn m.toNat = (f, rc, w)) :
    exec (.fnNorm m) s = .next ({ s with fn := f }.answered rc.code w) := by
  have hpos : m.toNat ≠ 0 := BitVec.toNat_ne.mp hm
  rw [exec, execFnNorm, unlessHalted_of_running hrun, decide_eq_true hpos, require_true, runFnNorm, h]
  rfl

/-- Absent symbols are never victims, so the repair's turns may be counted over all 256 symbols (R151, R158). -/
theorem repair_presentSymbols (t : Table) :
    repair raw ms (presentSymbols raw) t = repair raw ms symbols t := by
  rw [presentSymbols_eq_filter, repair_filter]

/-- FN_NORM of an all-zero histogram (R152). -/
theorem exec_fnNorm_of_empty (hrun : s.blk.halted = false) (hm : m ≠ 0)
    (hzero : ∀ i : Symbol, s.fn.raw.entry i = 0) :
    exec (.fnNorm m) s = .next ({ s with fn := { s.fn with
      norm := Table.zero, maxsym := 0x100, nvalid := true, nfail := false } }.answered 0x00 0x100) :=
  exec_fnNorm_of_outcome hrun hm (normalizeCounts_of_empty (maxEntry_eq_zero.mpr hzero))

/-- FN_NORM when every victim finds a donor (R159). -/
theorem exec_fnNorm_of_repaired (hrun : s.blk.halted = false) (hm : m ≠ 0) (hmax : maxEntry s.fn.raw ≠ 0)
    (hr : repair s.fn.raw (maxSymbol s.fn.raw) symbols (scaleTable s.fn.raw m.toNat) = (u, none)) :
    exec (.fnNorm m) s = .next ({ s with fn := { s.fn with
      norm := u, maxsym := (maxSymbol s.fn.raw).setWidth 9, nvalid := true, nfail := false } }.answered
        0x00 ((maxSymbol s.fn.raw).setWidth 64)) :=
  exec_fnNorm_of_outcome hrun hm (normalizeCounts_of_repaired hmax ((repair_presentSymbols _).trans hr))

/-- FN_NORM when the victim `v` finds no donor (R159). -/
theorem exec_fnNorm_of_starved (hrun : s.blk.halted = false) (hm : m ≠ 0) (hmax : maxEntry s.fn.raw ≠ 0)
    (hr : repair s.fn.raw (maxSymbol s.fn.raw) symbols (scaleTable s.fn.raw m.toNat) = (u, some v)) :
    exec (.fnNorm m) s = .next ({ s with fn := { s.fn with
      norm := u, maxsym := (maxSymbol s.fn.raw).setWidth 9, nvalid := false, nfail := true } }.answered
        0x03 (v.setWidth 64)) :=
  exec_fnNorm_of_outcome hrun hm (normalizeCounts_of_starved hmax ((repair_presentSymbols _).trans hr))

/-! #### The sum of a table -/

/-- The sum of a table's entries. -/
def Table.total (t : Table) : Nat := (t.toList.map BitVec.toNat).sum

theorem total_put (t : Table) (i : Symbol) (c : Counter) :
    (t.put i c).total + (t.entry i).toNat = t.total + c.toNat := by
  have h := sum_map_of_one symbols symbols_nodup (fun j => ((t.put i c).entry j).toNat)
    (fun j => (t.entry j).toNat) i (mem_symbols i) fun j hj => by rw [entry_put_other _ _ hj]
  rwa [entry_put_same, ← toList_eq_entries, ← toList_eq_entries] at h

theorem total_zero : Table.zero.total = 0 := by
  simp [Table.total, toList_eq_entries]

/-- The counting loop adds one to the sum for each byte (R150). -/
theorem total_countBytes (mem : Memory) (a n : Nat) (hn : n < 2 ^ 32) : (countBytes mem a n).total = n := by
  induction n with
  | zero => exact total_zero
  | succ n ih =>
    obtain ⟨-, hle⟩ := entry_countBytes mem a n (by omega) (readByte mem (a + n))
    have hput := total_put (countBytes mem a n) (readByte mem (a + n))
      ((countBytes mem a n).entry (readByte mem (a + n)) + 1)
    have hone : (1 : Counter).toNat = 1 := rfl
    rw [BitVec.toNat_add, hone, Nat.mod_eq_of_lt (by omega), ih (by omega)] at hput
    rw [countBytes, Table.bump]
    omega

/-- The entries after a donation from a donor with more than one unit (R156). -/
theorem toNat_entry_donate (hd : 1 < (t.entry d).toNat) (i : Symbol) :
    ((donate t d v).entry i).toNat =
      if i = v then 1 else if i = d then (t.entry d).toNat - 1 else (t.entry i).toNat := by
  have hsub : (t.entry d - 1).toNat = (t.entry d).toNat - 1 := BitVec.toNat_sub_of_le (by
    rw [BitVec.le_def]
    exact hd.le)
  rw [entry_donate, apply_ite BitVec.toNat, apply_ite BitVec.toNat, hsub]
  rfl

/-- A donation to a symbol without a unit moves one unit (R156). -/
theorem total_donate (hd : 1 < (t.entry d).toNat) (hv : (t.entry v).toNat = 0) : (donate t d v).total = t.total := by
  have hne : v ≠ d := by
    rintro rfl
    omega
  have htake := total_put t d (t.entry d - 1)
  have hgive := total_put (t.put d (t.entry d - 1)) v 1
  have hdonor := toNat_entry_donate (v := v) hd d
  rw [entry_donate, if_neg hne.symm, if_pos rfl, if_neg hne.symm, if_pos rfl] at hdonor
  rw [entry_put_other _ _ hne, hv, show (1 : Counter).toNat = 1 from rfl] at hgive
  rw [donate]
  omega

/-- The repair makes no unit, whatever its outcome (R156). -/
theorem total_repair (l : List Symbol) (t : Table) : (repair raw ms l t).1.total = t.total := by
  refine repair_induct (fun u => u.total = t.total) (fun u v d hu hv hd => ?_) l rfl
  obtain ⟨-, hunits⟩ := chooseDonor_eligible hd
  obtain ⟨-, hzero⟩ := isVictim_iff.mp hv
  exact (total_donate hunits hzero).trans hu

/-! #### The donor (R157) -/

/-- The order of R157: fewer units, and the lower index among equals. -/
def Prefers (q p : Symbol × Counter) : Prop :=
  q.2.toNat < p.2.toNat ∨ q.2.toNat = p.2.toNat ∧ q.1.toNat ≤ p.1.toNat

theorem Prefers.refl (p : Symbol × Counter) : Prefers p p := .inr ⟨rfl, le_rfl⟩

theorem Prefers.trans {p q r : Symbol × Counter} (hpq : Prefers p q) (hqr : Prefers q r) : Prefers p r := by
  unfold Prefers at *
  omega

theorem Prefers.antisymm {p q : Symbol × Counter} (hpq : Prefers p q) (hqp : Prefers q p) : p.1 = q.1 := by
  unfold Prefers at *
  exact BitVec.eq_of_toNat_eq (by omega)

/-- What the search for a donor has found in a list of symbols with their entries: the preferred eligible one. -/
def IsBestDonor (ms : Symbol) (l : List (Symbol × Counter)) : Option (Symbol × Counter) → Prop
  | none => ∀ p ∈ l, ¬ eligibleDonor ms p
  | some q => q ∈ l ∧ eligibleDonor ms q ∧ ∀ p ∈ l, eligibleDonor ms p → Prefers q p

theorem forall_mem_concat {P : Symbol × Counter → Prop} {l : List (Symbol × Counter)} {x : Symbol × Counter}
    (hl : ∀ p ∈ l, P p) (hx : P x) : ∀ p ∈ l ++ [x], P p :=
  List.forall_mem_append.mpr ⟨hl, List.forall_mem_singleton.mpr hx⟩

/-- One more symbol, of an index above all those searched. -/
theorem isBestDonor_betterDonor {l : List (Symbol × Counter)} {x : Symbol × Counter}
    {best : Option (Symbol × Counter)} (hbest : IsBestDonor ms l best) (habove : ∀ p ∈ l, p.1.toNat < x.1.toNat) :
    IsBestDonor ms (l ++ [x]) (betterDonor ms best x) := by
  have hlast : x ∈ l ++ [x] := List.mem_append_right l (List.mem_singleton_self x)
  unfold betterDonor
  by_cases hx : eligibleDonor ms x
  · rw [if_pos hx]
    cases best with
    | none => exact ⟨hlast, hx, forall_mem_concat (fun p hp he => absurd he (hbest p hp)) fun _ => .refl x⟩
    | some q =>
      obtain ⟨hq, heq, hmin⟩ := hbest
      by_cases hlt : x.2.toNat < q.2.toNat
      · simp only [if_pos hlt]
        have hbetter : Prefers x q := .inl hlt
        exact ⟨hlast, hx, forall_mem_concat (fun p hp he => hbetter.trans (hmin p hp he)) fun _ => .refl x⟩
      · simp only [if_neg hlt]
        have hfirst : Prefers q x := by
          have := habove q hq
          unfold Prefers
          omega
        exact ⟨List.mem_append_left _ hq, heq, forall_mem_concat hmin fun _ => hfirst⟩
  · rw [if_neg hx]
    cases best with
    | none => exact forall_mem_concat hbest hx
    | some q =>
      obtain ⟨hq, heq, hmin⟩ := hbest
      exact ⟨List.mem_append_left _ hq, heq, forall_mem_concat hmin fun he => absurd he hx⟩

theorem isBestDonor_foldl (l : List (Symbol × Counter)) (hasc : l.Pairwise fun p q => p.1.toNat < q.1.toNat) :
    IsBestDonor ms l (l.foldl (betterDonor ms) none) := by
  induction l using List.reverseRecOn with
  | nil => exact fun p hp => absurd hp List.not_mem_nil
  | append_singleton l x ih =>
    obtain ⟨hl, -, habove⟩ := List.pairwise_append.mp hasc
    rw [List.foldl_append]
    exact isBestDonor_betterDonor (ih hl) fun p hp => habove p hp x (List.mem_singleton_self x)

theorem pairs_ascending (t : Table) : t.pairs.Pairwise fun p q => p.1.toNat < q.1.toNat := by
  rw [pairs_eq_map]
  exact List.pairwise_map.mpr symbols_ascending

/-- A symbol that no eligible symbol is preferred to (R157). -/
structure IsDonor (t : Table) (ms d : Symbol) : Prop where
  ne : d ≠ ms
  units : 1 < (t.entry d).toNat
  least : ∀ j : Symbol, j ≠ ms → 1 < (t.entry j).toNat → Prefers (d, t.entry d) (j, t.entry j)

theorem IsDonor.unique {e : Symbol} (hd : IsDonor t ms d) (he : IsDonor t ms e) : d = e :=
  (hd.least e he.ne he.units).antisymm (he.least d hd.ne hd.units)

theorem isDonor_of_chooseDonor (h : chooseDonor t ms = some d) : IsDonor t ms d := by
  obtain ⟨⟨i, c⟩, hq, rfl⟩ := Option.map_eq_some_iff.mp h
  have hbest := isBestDonor_foldl (ms := ms) t.pairs (pairs_ascending t)
  rw [hq] at hbest
  obtain ⟨hmem, he, hmin⟩ := hbest
  obtain rfl : c = t.entry i := mem_pairs.mp hmem
  obtain ⟨hne, hunits⟩ := eligibleDonor_iff.mp he
  exact ⟨hne, hunits, fun j hj h1 => hmin (j, t.entry j) (mem_pairs.mpr rfl) (eligibleDonor_iff.mpr ⟨hj, h1⟩)⟩

theorem le_one_of_chooseDonor_eq_none (h : chooseDonor t ms = none) {j : Symbol} (hj : j ≠ ms) :
    (t.entry j).toNat ≤ 1 := by
  have hbest := isBestDonor_foldl (ms := ms) t.pairs (pairs_ascending t)
  rw [Option.map_eq_none_iff.mp h] at hbest
  exact Nat.le_of_not_lt fun h1 => hbest (j, t.entry j) (mem_pairs.mpr rfl) (eligibleDonor_iff.mpr ⟨hj, h1⟩)

theorem chooseDonor_eq_none_iff : chooseDonor t ms = none ↔ ∀ j : Symbol, j ≠ ms → (t.entry j).toNat ≤ 1 := by
  refine ⟨fun h j hj => le_one_of_chooseDonor_eq_none h hj, fun h => ?_⟩
  cases hd : chooseDonor t ms with
  | none => rfl
  | some d =>
    obtain ⟨hne, hunits, -⟩ := isDonor_of_chooseDonor hd
    exact absurd (h d hne) (Nat.not_le_of_lt hunits)

theorem chooseDonor_eq_some_iff : chooseDonor t ms = some d ↔ IsDonor t ms d := by
  refine ⟨isDonor_of_chooseDonor, fun h => ?_⟩
  cases hd : chooseDonor t ms with
  | none => exact absurd (le_one_of_chooseDonor_eq_none hd h.ne) (Nat.not_le_of_lt h.units)
  | some e => rw [(isDonor_of_chooseDonor hd).unique h]

/-! #### The scaled table (R153 to R155) -/

theorem entry_scaleTable_maxSymbol (raw : Table) (m : BitVec 32) :
    (scaleTable raw m.toNat).entry (maxSymbol raw) = m :=
  BitVec.eq_of_toNat_eq (by rw [entry_scaleTable m.isLt, if_pos rfl])

/-- A symbol other than the maximum one starts the repair with its scaled or its own count (R154). -/
theorem entry_scaleTable_of_ne {i : Symbol} (hi : i ≠ maxSymbol raw) :
    ((scaleTable raw m.toNat).entry i).toNat = scaleCount m.toNat (maxEntry raw) (raw.entry i).toNat := by
  rw [entry_scaleTable m.isLt, if_neg hi]

/-- Scaling leaves a symbol without a unit exactly when its share of `maxTotal` is below one (R154). -/
theorem scaleCount_eq_zero_iff {maxTotal maxRaw c : Nat} :
    scaleCount maxTotal maxRaw c = 0 ↔ if maxTotal < maxRaw then maxTotal * c < maxRaw else c = 0 := by
  unfold scaleCount
  split
  · rw [Nat.div_eq_zero_iff]
    omega
  · rfl

/-- The victims of the scaled table: present symbols that scaling starves (R158). -/
theorem isVictim_scaleTable_iff (hm : m ≠ 0) :
    isVictim raw (scaleTable raw m.toNat) v = true ↔
      raw.entry v ≠ 0 ∧ m.toNat < maxEntry raw ∧ m.toNat * (raw.entry v).toNat < maxEntry raw := by
  have hpos : 0 < m.toNat := Nat.pos_of_ne_zero (BitVec.toNat_ne.mp hm)
  rw [isVictim_iff, toNat_entry_pos, and_congr_right_iff]
  intro hv
  have hcount := toNat_entry_pos.mpr hv
  by_cases hms : v = maxSymbol raw
  · subst hms
    rw [entry_scaleTable_maxSymbol, (maxSymbol_spec raw).1]
    have := Nat.le_mul_of_pos_left (maxEntry raw) hpos
    omega
  · rw [entry_scaleTable_of_ne hms, scaleCount_eq_zero_iff]
    split <;> omega

/-- A repair that finds all its donors: the maximum symbol keeps `maxTotal`, no entry passes it, and the present
symbols are those with a unit (R162). -/
theorem entries_of_repaired (hm : m ≠ 0) (hmax : maxEntry s.fn.raw ≠ 0)
    (hr : repair s.fn.raw (maxSymbol s.fn.raw) symbols (scaleTable s.fn.raw m.toNat) = (u, none)) :
    u.entry (maxSymbol s.fn.raw) = m ∧ (∀ i, s.fn.raw.entry i ≠ 0 ↔ u.entry i ≠ 0) ∧
      ∀ i, (u.entry i).toNat ≤ m.toNat := by
  have hpos : 0 < m.toNat := Nat.pos_of_ne_zero (BitVec.toNat_ne.mp hm)
  obtain ⟨hms, hle, habsent, hpresent⟩ := repair_scaleTable s.fn hpos m.isLt hmax
  rw [repair_presentSymbols, hr] at hms hle habsent hpresent
  refine ⟨BitVec.eq_of_toNat_eq hms, fun i => ?_, hle⟩
  rw [← toNat_entry_pos, ← toNat_entry_pos]
  exact ⟨hpresent rfl i, fun hi => Nat.pos_of_ne_zero fun h0 => hi.ne' (habsent i h0)⟩

/-! #### The turns of the repair (R151, R156)

The repair over `symbols.take n` is the first `n` turns of R151's loop. -/

theorem repair_cons_of_not_victim (l : List Symbol) (hv : isVictim raw t v = false) :
    repair raw ms (v :: l) t = repair raw ms l t := by
  rw [repair, hv, if_neg Bool.false_ne_true]

theorem repair_cons_of_donor (l : List Symbol) (hv : isVictim raw t v = true) (hd : chooseDonor t ms = some d) :
    repair raw ms (v :: l) t = repair raw ms l (donate t d v) := by
  rw [repair, if_pos hv, hd]

theorem repair_cons_of_no_donor (l : List Symbol) (hv : isVictim raw t v = true) (hd : chooseDonor t ms = none) :
    repair raw ms (v :: l) t = (t, some v) := by
  rw [repair, if_pos hv, hd]

/-- One turn: no victim, a donation, or a victim without a donor (R156, R159). -/
theorem repair_cons_cases (raw : Table) (ms v : Symbol) (l : List Symbol) (t : Table) :
    isVictim raw t v = false ∧ repair raw ms (v :: l) t = repair raw ms l t ∨
    isVictim raw t v = true ∧ (∃ d, chooseDonor t ms = some d ∧
      repair raw ms (v :: l) t = repair raw ms l (donate t d v)) ∨
    isVictim raw t v = true ∧ chooseDonor t ms = none ∧ repair raw ms (v :: l) t = (t, some v) := by
  cases hv : isVictim raw t v with
  | false => exact .inl ⟨rfl, repair_cons_of_not_victim l hv⟩
  | true =>
    cases hd : chooseDonor t ms with
    | none => exact .inr (.inr ⟨rfl, rfl, repair_cons_of_no_donor l hv hd⟩)
    | some d => exact .inr (.inl ⟨rfl, d, rfl, repair_cons_of_donor l hv hd⟩)

/-- A repair that finds all its donors does so on each part of its list in turn. -/
theorem repair_append_eq_none {w : Table} (l : List Symbol) {l' : List Symbol}
    (h : repair raw ms (l ++ l') t = (w, none)) :
    ∃ u, repair raw ms l t = (u, none) ∧ repair raw ms l' u = (w, none) := by
  induction l generalizing t with
  | nil => exact ⟨t, rfl, h⟩
  | cons v l ih =>
    rw [List.cons_append] at h
    rcases repair_cons_cases raw ms v (l ++ l') t with ⟨hv, hr⟩ | ⟨hv, d, hd, hr⟩ | ⟨-, -, hr⟩
    · obtain ⟨u, hu, hw⟩ := ih (hr.symm.trans h)
      exact ⟨u, (repair_cons_of_not_victim l hv).trans hu, hw⟩
    · obtain ⟨u, hu, hw⟩ := ih (hr.symm.trans h)
      exact ⟨u, (repair_cons_of_donor l hv hd).trans hu, hw⟩
    · cases hr.symm.trans h

/-- A repair that fails stops at a victim, with the table of the turns before it (R159). -/
theorem repair_eq_some {l : List Symbol} (h : repair raw ms l t = (u, some v)) :
    ∃ before after, l = before ++ v :: after ∧ repair raw ms before t = (u, none) ∧
      isVictim raw u v = true ∧ chooseDonor u ms = none := by
  induction l generalizing t with
  | nil => cases h
  | cons x l ih =>
    rcases repair_cons_cases raw ms x l t with ⟨hx, hr⟩ | ⟨hx, d, hd, hr⟩ | ⟨hx, hd, hr⟩
    · obtain ⟨before, after, rfl, hu, hfail⟩ := ih (hr.symm.trans h)
      exact ⟨x :: before, after, rfl, (repair_cons_of_not_victim before hx).trans hu, hfail⟩
    · obtain ⟨before, after, rfl, hu, hfail⟩ := ih (hr.symm.trans h)
      exact ⟨x :: before, after, rfl, (repair_cons_of_donor before hx hd).trans hu, hfail⟩
    · cases hr.symm.trans h
      exact ⟨[], l, rfl, rfl, hx, hd⟩

theorem length_symbols : symbols.length = 256 := by simp [symbols]

theorem getElem_symbols (n : Nat) (hn : n < symbols.length) : symbols[n] = BitVec.ofNat 8 n := by simp [symbols]

theorem take_symbols_succ (v : Symbol) : symbols.take (v.toNat + 1) = symbols.take v.toNat ++ [v] := by
  have hv : v.toNat < symbols.length := length_symbols ▸ v.isLt
  rw [← List.take_append_getElem hv, getElem_symbols, BitVec.ofNat_toNat, BitVec.setWidth_eq]

/-- The symbols before `v` are the first `v` of them. -/
theorem take_symbols_of_eq_append {before after : List Symbol} (h : symbols = before ++ v :: after) :
    symbols.take v.toNat = before := by
  have hlt : before.length < symbols.length := by rw [h]; simp
  have hget : symbols[before.length] = v := by simp [h]
  have hlen : before.length = v.toNat := by
    rw [← hget, getElem_symbols, BitVec.toNat_ofNat, Nat.mod_eq_of_lt (hlt.trans_eq length_symbols)]
  rw [h, ← hlen, List.take_left]

/-- The working table after the first `n` turns, from the scaled table `t`. -/
def workingTable (raw : Table) (ms : Symbol) (t : Table) (n : Nat) : Table := (repair raw ms (symbols.take n) t).1

/-- The first `n` turns all end without a failure. -/
def TurnsRun (raw : Table) (ms : Symbol) (t : Table) (n : Nat) : Prop :=
  repair raw ms (symbols.take n) t = (workingTable raw ms t n, none)

theorem turnsRun_of_repair {n : Nat} (h : repair raw ms (symbols.take n) t = (u, none)) :
    TurnsRun raw ms t n ∧ workingTable raw ms t n = u := by
  rw [TurnsRun, workingTable, h]
  exact ⟨rfl, rfl⟩

/-- The end of the loop: all 256 turns run, or they stop at a victim without a donor (R159). -/
theorem repair_symbols_ends (raw : Table) (ms : Symbol) (t : Table) :
    ∃ turns, TurnsRun raw ms t turns ∧
      (turns = 256 ∧ repair raw ms symbols t = (workingTable raw ms t turns, none) ∨
        ∃ v : Symbol, turns = v.toNat ∧ isVictim raw (workingTable raw ms t turns) v = true ∧
          chooseDonor (workingTable raw ms t turns) ms = none ∧
          repair raw ms symbols t = (workingTable raw ms t turns, some v)) := by
  rcases hr : repair raw ms symbols t with ⟨u, _ | v⟩
  · have hall : symbols.take 256 = symbols := List.take_of_length_le length_symbols.le
    obtain ⟨hrun, rfl⟩ := turnsRun_of_repair (n := 256) (by rw [hall, hr])
    exact ⟨256, hrun, .inl ⟨rfl, rfl⟩⟩
  · obtain ⟨before, after, hsplit, hbefore, hv, hd⟩ := repair_eq_some hr
    obtain ⟨hrun, rfl⟩ := turnsRun_of_repair (n := v.toNat) (by rw [take_symbols_of_eq_append hsplit, hbefore])
    exact ⟨v.toNat, hrun, .inr ⟨v, rfl, hv, hd, rfl⟩⟩

/-- The turn of `v` among turns that ran: a donation to a victim, and otherwise nothing (R156, R158). -/
theorem workingTable_turn {n : Nat} (hrun : TurnsRun raw ms t n) (hv : v.toNat < n) :
    isVictim raw (workingTable raw ms t v.toNat) v = false ∧
      workingTable raw ms t (v.toNat + 1) = workingTable raw ms t v.toNat ∨
    isVictim raw (workingTable raw ms t v.toNat) v = true ∧ ∃ d,
      IsDonor (workingTable raw ms t v.toNat) ms d ∧
      workingTable raw ms t (v.toNat + 1) = donate (workingTable raw ms t v.toNat) d v := by
  have hle : v.toNat + 1 ≤ n := hv
  have hsplit := List.take_append_drop (v.toNat + 1) (symbols.take n)
  rw [List.take_take, Nat.min_eq_left hle, take_symbols_succ] at hsplit
  rw [TurnsRun, ← hsplit] at hrun
  obtain ⟨w, hw, -⟩ := repair_append_eq_none _ hrun
  obtain ⟨u, hu, hturn⟩ := repair_append_eq_none _ hw
  rw [← take_symbols_succ] at hw
  obtain ⟨-, rfl⟩ := turnsRun_of_repair hw
  obtain ⟨-, rfl⟩ := turnsRun_of_repair hu
  rcases repair_cons_cases raw ms v [] (workingTable raw ms t v.toNat) with
    ⟨hvic, hr⟩ | ⟨hvic, d, hd, hr⟩ | ⟨-, -, hr⟩
  · exact .inl ⟨hvic, (congrArg Prod.fst (hr.symm.trans hturn)).symm⟩
  · exact .inr ⟨hvic, d, isDonor_of_chooseDonor hd, (congrArg Prod.fst (hr.symm.trans hturn)).symm⟩
  · cases congrArg Prod.snd (hr.symm.trans hturn)

/-- A victim is present and has no unit (R158). -/
theorem isVictim_iff_entries : isVictim raw t v = true ↔ raw.entry v ≠ 0 ∧ t.entry v = 0 := by
  rw [isVictim_iff, toNat_entry_pos, ← Nat.le_zero, ← Nat.not_lt, toNat_entry_pos, not_not]

/-- The turns make no unit (R156). -/
theorem total_workingTable (n : Nat) : (workingTable raw ms t n).total = t.total := total_repair _ t

end NormalizerCommands

/-- Settles O55: the search keeps the preferred eligible symbol, and R157's order has one least symbol. -/
theorem donorIsTheSmallestEligible : Obligations.DonorIsTheSmallestEligible := by
  intro t ms
  refine ⟨chooseDonor_eq_none_iff, fun d => ⟨fun h => ?_, fun ⟨hne, hunits, hleast⟩ => ?_⟩⟩
  · obtain ⟨hne, hunits, hleast⟩ := chooseDonor_eq_some_iff.mp h
    exact ⟨hne, hunits, hleast⟩
  · exact chooseDonor_eq_some_iff.mpr ⟨hne, hunits, hleast⟩

/-- Settles O56: both commands answer from the state as it is. -/
theorem tableReadoutsAnswerTheEntry : Obligations.TableReadoutsAnswerTheEntry := by
  intro s idx
  exact ⟨⟨(s.fn.raw.entry idx).setWidth 64, rfl, BitVec.toNat_setWidth_of_le (by decide)⟩,
    ⟨(s.fn.norm.entry idx).setWidth 64, rfl, BitVec.toNat_setWidth_of_le (by decide)⟩⟩

/-- Settles O48: the counting loop's table is the histogram. -/
theorem countBuildsTheHistogram : Obligations.CountBuildsTheHistogram := by
  intro s a l hrun hfit
  exact ⟨countBytes s.mem a.toNat l.toNat, exec_fnCount_of_fits hrun hfit,
    fun i => (entry_countBytes s.mem a.toNat l.toNat (l.isLt.trans (by decide)) i).1⟩

/-- Settles O49: each byte adds one to the sum. -/
theorem countsSumToTheLength : Obligations.CountsSumToTheLength := by
  intro s a l hrun hfit
  exact ⟨_, exec_fnCount_of_fits hrun hfit, total_countBytes s.mem a.toNat l.toNat (l.isLt.trans (by decide))⟩

/-- Settles O50: R152's special case. -/
theorem normOfTheEmptyHistogram : Obligations.NormOfTheEmptyHistogram := by
  intro s m hrun hm hzero
  exact ⟨Table.zero, exec_fnNorm_of_empty hrun hm hzero, entry_zero⟩

/-- Settles O51: without victims the repair leaves the scaled table. -/
theorem normScalesProportionally : Obligations.NormScalesProportionally := by
  intro s m ms hrun hm hpresent hle hlow hkeeps
  obtain ⟨rfl, hmax⟩ := maxSymbol_unique hle hlow
  rw [← hmax] at hkeeps ⊢
  have hne : maxEntry s.fn.raw ≠ 0 := fun h0 => hpresent (maxEntry_eq_zero.mp h0 _)
  have hvictims : ∀ v ∈ symbols, isVictim s.fn.raw (scaleTable s.fn.raw m.toNat) v = false := by
    intro v _
    rw [Bool.eq_false_iff, ne_eq, isVictim_scaleTable_iff hm]
    rintro ⟨hv, hshrink, hstarved⟩
    exact absurd (hkeeps hshrink v hv) (Nat.not_le_of_lt hstarved)
  exact ⟨scaleTable s.fn.raw m.toNat,
    exec_fnNorm_of_repaired hrun hm hne (repair_of_no_victim symbols _ hvictims),
    entry_scaleTable_maxSymbol _ _, fun i hi => entry_scaleTable_of_ne hi⟩

/-- Settles O52: without donors the repair stops at its first victim with the scaled table. -/
theorem normFailsWithoutADonor : Obligations.NormFailsWithoutADonor := by
  intro s m ms v hrun hm hle hlow hshrink hv hstarved hbelow hunits
  obtain ⟨rfl, hmax⟩ := maxSymbol_unique hle hlow
  rw [← hmax] at hshrink hstarved hbelow hunits ⊢
  have hscaled : ∀ i : Symbol, i ≠ maxSymbol s.fn.raw → ((scaleTable s.fn.raw m.toNat).entry i).toNat =
      m.toNat * (s.fn.raw.entry i).toNat / maxEntry s.fn.raw := fun i hi => by
    rw [entry_scaleTable_of_ne hi, scaleCount, if_pos hshrink]
  have hvictim := (isVictim_scaleTable_iff hm).mpr ⟨hv, hshrink, hstarved⟩
  have hfirst : ∀ i : Symbol, i.toNat < v.toNat →
      isVictim s.fn.raw (scaleTable s.fn.raw m.toNat) i = false := by
    intro i hi
    rw [Bool.eq_false_iff, ne_eq, isVictim_scaleTable_iff hm]
    rintro ⟨hpresent, -, hstarved⟩
    exact absurd (hbelow i hi hpresent) (Nat.not_le_of_lt hstarved)
  have hnone : chooseDonor (scaleTable s.fn.raw m.toNat) (maxSymbol s.fn.raw) = none :=
    chooseDonor_eq_none_iff.mpr fun j hj => (hscaled j hj).trans_le (hunits j hj)
  exact ⟨scaleTable s.fn.raw m.toNat,
    exec_fnNorm_of_starved hrun hm (Nat.ne_zero_of_lt hshrink)
      (repair_of_first_victim symbols _ v hvictim hnone (mem_symbols v) symbols_ascending hfirst),
    entry_scaleTable_maxSymbol _ _, hscaled⟩

/-- Settles O53: the three outcomes of FN_NORM, and what the repair keeps of the scaled table. -/
theorem normalizationInvariants : Obligations.NormalizationInvariants := by
  intro s m hrun hm
  by_cases hempty : maxEntry s.fn.raw = 0
  · have hzero := maxEntry_eq_zero.mp hempty
    exact ⟨_, ⟨0x00, 0x100⟩, exec_fnNorm_of_empty hrun hm hzero, rfl, rfl, .inl ⟨rfl, rfl, rfl⟩,
      fun _ ⟨i, hi⟩ => absurd (hzero i) hi⟩
  · rcases hr : repair s.fn.raw (maxSymbol s.fn.raw) symbols (scaleTable s.fn.raw m.toNat) with ⟨u, _ | v⟩
    · obtain ⟨hms, hpresent, hbound⟩ := entries_of_repaired hm hempty hr
      obtain ⟨hmax, hlow⟩ := maxSymbol_spec s.fn.raw
      have hmaxPresent : s.fn.raw.entry (maxSymbol s.fn.raw) ≠ 0 :=
        toNat_entry_pos.mp (hmax.symm ▸ Nat.pos_of_ne_zero hempty)
      refine ⟨_, ⟨0x00, (maxSymbol s.fn.raw).setWidth 64⟩, exec_fnNorm_of_repaired hrun hm hempty hr, rfl, rfl,
        .inl ⟨rfl, rfl, rfl⟩, fun _ _ => ⟨maxSymbol s.fn.raw, rfl, rfl, ?_, ?_, hms, hpresent, fun x halone => ?_,
          hbound⟩⟩
      · rw [hmax]
        exact entry_le_maxEntry s.fn.raw
      · rwa [hmax]
      · obtain rfl := (halone _).mp hmaxPresent
        exact ⟨hms, fun i hi => by_contra fun hunit => hi ((halone i).mp ((hpresent i).mpr hunit))⟩
    · exact ⟨_, ⟨0x03, v.setWidth 64⟩, exec_fnNorm_of_starved hrun hm hempty hr, rfl, rfl,
        .inr ⟨rfl, rfl, rfl⟩, nofun⟩

/-- Settles O54: the tables are those of the repair's turns, and it ends as R159 says. -/
theorem repairKeepsTheSum : Obligations.RepairKeepsTheSum := by
  intro s m ms hrun hm hpresent hle hlow
  obtain ⟨rfl, hmax⟩ := maxSymbol_unique hle hlow
  have hne : maxEntry s.fn.raw ≠ 0 := fun h0 => hpresent (maxEntry_eq_zero.mp h0 _)
  rw [← hmax]
  obtain ⟨turns, hturns, hend⟩ :=
    repair_symbols_ends s.fn.raw (maxSymbol s.fn.raw) (scaleTable s.fn.raw m.toNat)
  refine ⟨workingTable s.fn.raw (maxSymbol s.fn.raw) (scaleTable s.fn.raw m.toNat), turns,
    entry_scaleTable m.isLt s.fn.raw, fun v hv => ?_, ?_, total_workingTable turns⟩
  · rcases workingTable_turn hturns hv with ⟨hvictim, hsame⟩ | ⟨hvictim, d, hd, hdonate⟩
    · rwa [if_neg (mt isVictim_iff_entries.mpr (Bool.eq_false_iff.mp hvictim))]
    · rw [if_pos (isVictim_iff_entries.mp hvictim), hdonate]
      exact ⟨d, hd.ne, hd.units, hd.least, toNat_entry_donate hd.units⟩
  · rcases hend with ⟨hall, hr⟩ | ⟨v, hv, hvictim, hnone, hr⟩
    · exact .inl ⟨hall, exec_fnNorm_of_repaired hrun hm hne hr⟩
    · obtain ⟨hpresent, hzero⟩ := isVictim_iff_entries.mp hvictim
      exact .inr ⟨v, hv, hpresent, hzero, chooseDonor_eq_none_iff.mp hnone, exec_fnNorm_of_starved hrun hm hne hr⟩

end Sys2Proof.Machine

namespace Sys2Proof.Machine

/-! ### The command cycle and NOP (R180, R181) -/

/-- Settles O7: the step takes the command word from the host's list, and a word that decodes is executed. -/
theorem stepRunsTheDecodedCommand : Obligations.StepRunsTheDecodedCommand := by
  intro s cw rest i hmoves hdecode
  calc step s = runWord cw { s with moves := rest } := step_of_command hmoves
    _ = exec i { s with moves := rest } := runWord_of_ok hdecode

/-- NOP commits the state as it is, with no check before it (R181, R204). -/
theorem exec_nop (s : State) : exec .nop s = commit s (.ok (s, .ok, 0)) := rfl

/-- Settles O25: what NOP commits is the state with the response (OK, 0) added. -/
theorem nopAnswersOk : Obligations.NopAnswersOk := by
  intro s
  rw [exec_nop, commit_ok]
  rfl

end Sys2Proof.Machine

namespace Sys2Proof.Machine

/-! ### Faults and the halt (R200 to R216) -/

section FaultsAndHalt

variable {s t : State} {i : Instr} {cw : Word}

/-! #### The endings of a command word -/

theorem rejectWord_of_halted (hs : s.blk.halted = true) : s.rejectWord = s.refuseHalted := if_pos hs

theorem rejectWord_of_running (hrun : s.blk.halted = false) : s.rejectWord = s.takeFault .illegal :=
  if_neg (Bool.eq_false_iff.mp hrun)

/-- The three endings of a command word: refused while halted, a fault from the state before it, or an answer that
keeps BLK_STATUS (R180). -/
theorem runWord_eq_next (h : runWord cw s = .next t) :
    (s.blk.halted = true ∧ t = s.refuseHalted) ∨
    (s.blk.halted = false ∧ ∃ c, t = s.takeFault c) ∨
    t.blk = s.blk := by
  cases hd : decode cw with
  | ok i =>
    rw [runWord_of_ok hd] at h
    rcases exec_eq_next h with hrefused | hfault | ⟨u, rc, d, rfl, hframe, -⟩
    · exact .inl hrefused
    · exact .inr (.inl hfault)
    · exact .inr (.inr hframe.blk)
  | error r =>
    rw [runWord_of_error hd] at h
    cases h
    cases hb : s.blk.halted with
    | true => exact .inl ⟨rfl, rejectWord_of_halted hb⟩
    | false => exact .inr (.inl ⟨rfl, .illegal, rejectWord_of_running hb⟩)

/-- Only a fault halts a running block (R203). -/
theorem runWord_halts (hrun : s.blk.halted = false) (h : runWord cw s = .next t) (hhalt : t.blk.halted = true) :
    ∃ c, t = s.takeFault c := by
  rcases runWord_eq_next h with ⟨hs, -⟩ | ⟨-, hfault⟩ | hblk
  · exact absurd hs (Bool.eq_false_iff.mp hrun)
  · exact hfault
  · rw [hblk] at hhalt
    exact absurd hhalt (Bool.eq_false_iff.mp hrun)

/-- No command word touches BLK_STATUS of a halted block (R204, R216). -/
theorem runWord_blk_of_halted (hs : s.blk.halted = true) (h : runWord cw s = .next t) : t.blk = s.blk := by
  rcases runWord_eq_next h with ⟨-, rfl⟩ | ⟨hrun, -⟩ | hblk
  · rfl
  · exact absurd hs (Bool.eq_false_iff.mp hrun)
  · exact hblk

/-! #### Words and their commands -/

/-- A word that matches no row of the printed table is rejected (R81, R84, R85). -/
theorem runWord_of_no_row (h : ∀ r ∈ opcodeRows, cw &&& r.1 ≠ r.2) : runWord cw s = .next s.rejectWord := by
  cases hd : decode cw with
  | ok i =>
    obtain ⟨r, hr, hmatch⟩ := (legalWordsMatchTheTable cw).mp ⟨i, hd⟩
    exact absurd hmatch (h r hr)
  | error r => exact runWord_of_error hd

/-- An encoded command runs as that command (R90). -/
theorem runWord_of_encode (h : encode i = cw) : runWord cw s = exec i s := runWord_of_ok (decode_of_encode h)

theorem encode_nop : encode .nop = 0 := by decide

/-- A format X word is its row's match value with the index in the low byte (R76, R81, R90). -/
theorem encodeX_of_match {opc : BitVec 8} {matchValue : Word} (h : opcMatch opc = matchValue) (idx : BitVec 8) :
    encodeX opc idx = matchValue ||| idx.setWidth 64 := by
  rw [encodeX, h]

theorem encode_rdState (idx : BitVec 8) : encode (.rdState idx) = 0x0100000000000000 ||| idx.setWidth 64 :=
  encodeX_of_match (opc := 0x01) (by decide) idx

theorem encode_fnRdRaw (idx : Symbol) : encode (.fnRdRaw idx) = 0x3200000000000000 ||| idx.setWidth 64 :=
  encodeX_of_match (opc := 0x32) (by decide) idx

theorem encode_fnRdNorm (idx : Symbol) : encode (.fnRdNorm idx) = 0x3300000000000000 ||| idx.setWidth 64 :=
  encodeX_of_match (opc := 0x33) (by decide) idx

/-- A word of RD_STATE's match value is RD_STATE of its low byte (R76). -/
theorem encode_rdState_idxField (h : cw.toNat / 2 ^ 8 = 0x01000000000000) : encode (.rdState (idxField cw)) = cw := by
  have hopc : (Instr.rdState (idxField cw)).opcode.toNat = 0x01 := rfl
  apply BitVec.eq_of_toNat_eq
  rw [encode, encodeX_toNat, idxField_toNat, hopc]
  omega

/-- The mapped indices as numbers (R41). -/
theorem toNat_mem_of_mem_mappedIndices {idx : BitVec 8} (h : idx ∈ mappedIndices) :
    idx.toNat ∈ [0x00, 0x01, 0x10, 0x11, 0x12, 0x13, 0x14, 0x15, 0x20, 0x21, 0x22, 0x23, 0x24, 0x25, 0x26, 0x30,
      0x31] :=
  List.mem_map_of_mem (f := BitVec.toNat) h

/-- RD_STATE of an unmapped index is rejected like a word that is no command (R87). -/
theorem runWord_of_unmapped (hopc : cw.toNat / 2 ^ 8 = 0x01000000000000) (hidx : idxField cw ∉ mappedIndices) :
    runWord cw s = .next s.rejectWord :=
  (runWord_of_encode (encode_rdState_idxField hopc)).trans (exec_rdState_of_none (stateRegister_of_unmapped hidx))

/-! #### Commands of a halted block -/

/-- FN_RDRAW commits the state as it is, with no check before it (R160, R204). -/
theorem exec_fnRdRaw (s : State) (idx : Symbol) :
    exec (.fnRdRaw idx) s = .next (s.answered 0x00 ((s.fn.raw.entry idx).setWidth 64)) := rfl

/-- FN_RDNORM commits the state as it is, with no check before it (R161, R204). -/
theorem exec_fnRdNorm (s : State) (idx : Symbol) :
    exec (.fnRdNorm idx) s = .next (s.answered 0x00 ((s.fn.norm.entry idx).setWidth 64)) := rfl

/-- While halted, a command that is none of the four readouts in legal form is refused (R204). -/
theorem exec_of_halted (hs : s.blk.halted = true) (hnop : i ≠ .nop)
    (hstate : ∀ idx, i = .rdState idx → stateRegister s idx = none)
    (hraw : ∀ idx, i ≠ .fnRdRaw idx) (hnorm : ∀ idx, i ≠ .fnRdNorm idx) : exec i s = .next s.refuseHalted := by
  cases i with
  | nop => exact absurd rfl hnop
  | rdState idx => rw [exec_rdState_of_none (hstate idx rfl), rejectWord_of_halted hs]
  | fnRdRaw idx => exact absurd rfl (hraw idx)
  | fnRdNorm idx => exact absurd rfl (hnorm idx)
  | weInit | weWrite | weFlush | weClose | reInit | rePeek | reConsume | reRead | reReload | reClose | fnCount
  | fnNorm => exact unlessHalted_of_halted hs

/-! #### Commands that fail a check (R205) -/

theorem unlessHalted_requireBits_of_gt {nb : BitVec 5} {k : StepOutcome} (hrun : s.blk.halted = false)
    (hnb : 26 < nb.toNat) : unlessHalted s (requireBits s nb k) = .next (s.faulted 0x11) := by
  rw [unlessHalted_of_running hrun, requireBits_of_gt hnb]
  rfl

theorem unlessHalted_requireInit_of_invalid {v : Bool} {k : StepOutcome} (hrun : s.blk.halted = false)
    (hv : v = false) : unlessHalted s (requireInit s v k) = .next (s.faulted 0x12) := by
  rw [unlessHalted_of_running hrun, requireInit_of_invalid hv]
  rfl

/-- The bit count is checked before VALID (R205), so a legal one leaves NOTINIT. -/
theorem unlessHalted_requireBits_of_invalid {nb : BitVec 5} {v : Bool} {k : StepOutcome}
    (hrun : s.blk.halted = false) (hnb : nb.toNat ≤ 26) (hv : v = false) :
    unlessHalted s (requireBits s nb (requireInit s v k)) = .next (s.faulted 0x12) := by
  rw [requireBits_of_le hnb, unlessHalted_requireInit_of_invalid hrun hv]

theorem unlessHalted_requireRegion_of_passes {a : Addr} {l : BitVec 24} {k : StepOutcome}
    (hrun : s.blk.halted = false) (hpast : 2 ^ 32 < a.toNat + l.toNat) :
    unlessHalted s (requireRegion s a l k) = .next (s.faulted 0x15) := by
  rw [unlessHalted_of_running hrun, requireRegion_of_passes hpast]
  rfl

end FaultsAndHalt

/-- Settles O16: a word that halts a running block ends in a fault, which is the state before with HALTED, FCODE and
the response. -/
theorem faultsArePrecise : Obligations.FaultsArePrecise := by
  intro s t cw rest hmoves hrun h hhalt
  rw [step_of_command hmoves] at h
  obtain ⟨c, rfl⟩ := runWord_halts (s := { s with moves := rest }) hrun h hhalt
  exact ⟨c.code_mem, rfl⟩

/-- Settles O8: either word is rejected, and a running block rejects a word with ILLEGAL. -/
theorem wordThatIsNoCommandIsIllegal : Obligations.WordThatIsNoCommandIsIllegal := by
  intro s cw rest hmoves hrun hcw
  have hreject : { s with moves := rest }.rejectWord = { s with moves := rest }.faulted 0x10 :=
    rejectWord_of_running hrun
  rw [step_of_command hmoves, ← hreject]
  rcases hcw with hrow | ⟨hopc, hidx⟩
  · exact runWord_of_no_row hrow
  · refine runWord_of_unmapped hopc fun hmap => hidx ?_
    rw [← idxField_toNat]
    exact toNat_mem_of_mem_mappedIndices hmap

/-- Settles O17: the readouts commit the state as it is, halted or not; a word that is none of them either decodes to
a command that is refused, or decodes to none and is refused too. -/
theorem haltedBlockOnlyReadsOut : Obligations.HaltedBlockOnlyReadsOut := by
  intro s cw rest hmoves hs
  rw [step_of_command hmoves]
  refine ⟨?_, ?_, ?_, ?_, ?_⟩
  · rintro rfl
    exact (runWord_of_encode encode_nop).trans (nopAnswersOk _)
  · rintro idx v rfl hv
    exact (runWord_of_encode (encode_rdState idx)).trans (exec_rdState_of_some hv)
  · rintro idx rfl
    exact (runWord_of_encode (encode_fnRdRaw idx)).trans (exec_fnRdRaw _ idx)
  · rintro idx rfl
    exact (runWord_of_encode (encode_fnRdNorm idx)).trans (exec_fnRdNorm _ idx)
  · intro hnop hstate htables
    cases hd : decode cw with
    | error r => exact (runWord_of_error hd).trans (congrArg _ (rejectWord_of_halted hs))
    | ok i =>
      obtain rfl := encodeInvertsDecode cw i hd
      rw [runWord_of_ok hd]
      refine exec_of_halted hs ?_ ?_ ?_ ?_
      · rintro rfl
        exact hnop encode_nop
      · rintro idx rfl
        exact hstate idx (encode_rdState idx)
      · rintro idx rfl
        obtain ⟨hraw, -⟩ := htables idx
        exact hraw (encode_fnRdRaw idx)
      · rintro idx rfl
        obtain ⟨-, hnorm⟩ := htables idx
        exact hnorm (encode_fnRdNorm idx)

/-- Settles O18, by cases on the host's next move. -/
theorem onlyResetLeavesTheHalt : Obligations.OnlyResetLeavesTheHalt := by
  intro s t hs h
  match hm : s.moves with
  | [] =>
    rw [step_of_idle hm] at h
    cases h
    exact .inr rfl
  | .command cw :: rest =>
    rw [step_of_command hm] at h
    exact .inr (runWord_blk_of_halted (s := { s with moves := rest }) hs h)
  | .store a b :: rest =>
    rw [step_of_store hm] at h
    cases h
    exact .inr rfl
  | .reset :: rest => exact .inl ⟨rest, rfl⟩

/-- Settles O60: a refusal and a fault answer with other codes, and a halted block that answers answers OK. -/
theorem statusOutcomesNeverHalt : Obligations.StatusOutcomesNeverHalt := by
  intro i s t r h hresp hcode
  rcases exec_eq_next h with ⟨-, rfl⟩ | ⟨-, c, rfl⟩ | ⟨u, rc, d, rfl, hframe, -, hhalted⟩
  · obtain ⟨rfl, -⟩ := List.cons.inj hresp
    exact absurd hcode (by decide)
  · obtain ⟨rfl, -⟩ := List.cons.inj hresp
    exact absurd hcode (by cases c <;> decide)
  · obtain ⟨rfl, -⟩ := List.cons.inj hresp
    refine ⟨hframe.blk, ?_⟩
    rw [State.respond_blk, hframe.blk, Bool.eq_false_iff]
    intro hs
    obtain ⟨-, rfl⟩ := hhalted hs
    exact absurd hcode (by simp [RCode.code])

/-- Settles O19: past the halt check, the bit count is the first check of each of the five commands. -/
theorem bitCountAbove26Faults : Obligations.BitCountAbove26Faults := by
  intro s nb v hrun hnb i hi
  simp only [List.mem_cons, List.not_mem_nil, or_false] at hi
  rcases hi with rfl | rfl | rfl | rfl | rfl <;> exact unlessHalted_requireBits_of_gt hrun hnb

/-- Settles O20: with a legal bit count, or none, the check of VALID is the one that fails. -/
theorem uninitialisedEngineFaults : Obligations.UninitialisedEngineFaults := by
  intro s nb v hrun hnb
  refine ⟨fun hv i hi => ?_, fun hv i hi => ?_⟩
  · simp only [List.mem_cons, List.not_mem_nil, or_false] at hi
    rcases hi with rfl | rfl | rfl
    · exact unlessHalted_requireBits_of_invalid hrun hnb hv
    · exact unlessHalted_requireInit_of_invalid hrun hv
    · exact unlessHalted_requireBits_of_invalid hrun hnb hv
  · simp only [List.mem_cons, List.not_mem_nil, or_false] at hi
    rcases hi with rfl | rfl | rfl | rfl | rfl
    · exact unlessHalted_requireBits_of_invalid hrun hnb hv
    · exact unlessHalted_requireBits_of_invalid hrun hnb hv
    · exact unlessHalted_requireBits_of_invalid hrun hnb hv
    · exact unlessHalted_requireInit_of_invalid hrun hv
    · exact unlessHalted_requireInit_of_invalid hrun hv

/-- Settles O21: past the halt check, the three commands check their region first, and FN_NORM its maxTotal. -/
theorem argumentOutsideTheDomainFaults : Obligations.ArgumentOutsideTheDomainFaults := by
  intro s hrun
  refine ⟨fun a l hpast i hi => ?_, ?_⟩
  · simp only [List.mem_cons, List.not_mem_nil, or_false] at hi
    rcases hi with rfl | rfl | rfl <;> exact unlessHalted_requireRegion_of_passes hrun hpast
  · rw [exec, execFnNorm, unlessHalted_of_running hrun]
    exact require_false

end Sys2Proof.Machine

namespace Sys2Proof.Machine

/-! ### The units and the parts they may change (R244) -/

/-- Settles O58: a refusal and a fault touch no unit, and an answer comes from a state within the command's frame. -/
theorem unitsAreIndependent : Obligations.UnitsAreIndependent := by
  intro i s t h
  rcases exec_eq_next h with ⟨-, rfl⟩ | ⟨-, c, rfl⟩ | ⟨u, rc, d, rfl, hframe, -⟩
  · exact ⟨rfl, rfl, fun _ => ⟨rfl, rfl⟩, fun _ => rfl, fun _ => rfl⟩
  · exact ⟨rfl, rfl, fun _ => ⟨rfl, rfl⟩, fun _ => rfl, fun _ => rfl⟩
  · exact ⟨hframe.width, hframe.moves, hframe.we, hframe.re, hframe.fn⟩

end Sys2Proof.Machine
